-- ==== Sys2Proof/Word.lean ====
section
/-! DEFINITION. The word and byte types, and the enumerations that name how a word reaches the machine. -/

namespace Sys2Proof

/-- Every buffer word, FIFO word and register is 32 bits wide, unsigned (00_scope R11, R13; 30_encoding R100). -/
abbrev Word := BitVec 32

/-- The unit of the physical address space (20_memory R60). -/
abbrev Byte := BitVec 8

/-- One access to a register whose table row covers both directions (30_encoding R116: dir 0 read, 1 write). -/
inductive Access where
  | read
  | write (v : Word)
  deriving DecidableEq, Repr

/-- The interface a list of words arrives on. The spec selects a command by a bit pattern, a register access by a
selector, a Register Address operation by the function called, a phase-step by PHASE, a device-side step by its agent,
and a wire-format word by the position it stands in (30_encoding R100, R116, R120, R121). One name per interface
(log 18). -/
inductive Port where
  /-- the command word and its operand words; a program is a stream of them (R121, R125) -/
  | command
  /-- the 9-bit selector SEL, then the value of a write (R116) -/
  | regAccess
  /-- the ENGINE's phase-steps (R163 to R166) -/
  | submitPoll | submitWrite | corrPoll | corrRead
  /-- the Register Address operations (R210 to R213) -/
  | raNew | raOffset | raRead | raWrite
  /-- the steps of FW and FOREIGN (R226 to R231) -/
  | fwPop | fwProcess | fwPush | foreignPush
  /-- the whole-buffer code word, BUF[1] (R105) -/
  | bufferCode
  /-- a tag's own code word, with the index of its tag (R106) -/
  | tagCode
  /-- a tag word list, tag_id first (R102, R111) -/
  | tagId
  /-- the submission word (R107) -/
  | submission
  /-- the status word (R109) -/
  | status
  /-- the channel field of a response word (R108, R110) -/
  | channel
  /-- a result: KIND, then INFO (R122) -/
  | result
  deriving DecidableEq, Repr

end Sys2Proof
end

