-- ==== Sys2Proof/Syntax.lean ====
section
/-! DEFINITION. The instructions: one constructor per row of spec/opcode_table.json, in the table's order. -/

namespace Sys2Proof

/-- The instruction set in the sense of 00_scope R2: the commands, the steps of the agents, and the wire formats. Rules
are those of 30_encoding R120 unless a line names another. -/
inductive Instr where
  /-- NEW_BUFFER (R140) -/
  | newBuffer
  /-- WRITE_TAG n, w[0] .. w[n-1]: the tag word list (R142) -/
  | writeTag (ws : List Word)
  /-- CALL on channel 8 (R160) -/
  | call
  /-- TAG_CHECK t (R190) -/
  | tagCheck (t : BitVec 8)
  /-- READ_WORD i (R191) -/
  | readWord (i : BitVec 8)
  /-- DISCARD (R193) -/
  | discard
  /-- TRY_ACQUIRE k (R241) -/
  | tryAcquire (k : BitVec 8)
  /-- RELEASE k (R242) -/
  | release (k : BitVec 8)
  /-- GET_FIRMWARE_REVISION (R195) -/
  | getFirmwareRevision
  /-- GET_BOARD_SERIAL (R196) -/
  | getBoardSerial
  /-- a command word with OP = 0 (R123) -/
  | reservedOp0 (cw : Word)
  /-- a command word with OP = 7 (R123) -/
  | reservedOp7 (cw : Word)
  /-- a command word with OP = 0xC to 0xF (R123) -/
  | reservedOpCToF (cw : Word)
  /-- phase-step SUBMIT_POLL (R163) -/
  | stepSubmitPoll
  /-- phase-step SUBMIT_WRITE (R164) -/
  | stepSubmitWrite
  /-- phase-step CORR_POLL (R165) -/
  | stepCorrPoll
  /-- phase-step CORR_READ (R166) -/
  | stepCorrRead
  /-- RA_NEW off (R210) -/
  | raNew (off : Word)
  /-- RA_OFFSET a, n (R211) -/
  | raOffset (a n : Word)
  /-- RA_READ a (R212) -/
  | raRead (a : Word)
  /-- RA_WRITE a, v (R213) -/
  | raWrite (a v : Word)
  /-- RD MBOX_RW, offset 0x00 (R215) -/
  | rdMboxRw
  /-- WR MBOX_RW, offset 0x00 (R216) -/
  | wrMboxRw (v : Word)
  /-- RD or WR MBOX_PEEK, offset 0x10 (R217) -/
  | rdwrMboxPeek (acc : Access)
  /-- RD or WR MBOX_SENDER, offset 0x14 (R218) -/
  | rdwrMboxSender (acc : Access)
  /-- RD MBOX_STATUS, offset 0x18 (R219) -/
  | rdMboxStatus
  /-- WR MBOX_STATUS, offset 0x18 (R219) -/
  | wrMboxStatus (v : Word)
  /-- RD or WR MBOX_CONFIG, offset 0x1c (R220) -/
  | rdwrMboxConfig (acc : Access)
  /-- WR MBOX_WRITE v, offset 0x20 (R221) -/
  | wrMboxWrite (v : Word)
  /-- RD MBOX_WRITE, offset 0x20 (R222) -/
  | rdMboxWrite
  /-- an access at any other offset a selector can name (R223) -/
  | regOtherOffset (off : BitVec 8) (acc : Access)
  /-- FW_POP (R226) -/
  | fwPop
  /-- FW_PROCESS w, f: f is the 36 words the firmware leaves in the buffer (R228; log 7) -/
  | fwProcess (w : Word) (f : List Word)
  /-- FW_PUSH w (R229) -/
  | fwPush (w : Word)
  /-- FOREIGN_PUSH x (R231) -/
  | foreignPush (x : Word)
  /-- whole-buffer code word Request (R105) -/
  | codeRequest
  /-- whole-buffer code word Response (R105) -/
  | codeResponse
  /-- whole-buffer code word ResponseError (R105) -/
  | codeResponseError
  /-- any other whole-buffer code word (R105) -/
  | codeUnknown (c : Word)
  /-- the response bit of the code word of the tag at index t (R106) -/
  | tagResponseBit (t : BitVec 8)
  /-- the zero word in tag_id position, and the words after it (R104) -/
  | terminator (rest : List Word)
  /-- the submission word: pointer field, channel 8 (R107) -/
  | submissionWordCh8 (ptr : BitVec 28)
  /-- the status word with FULL set (R109) -/
  | statusFull
  /-- the status word with EMPTY set (R109) -/
  | statusEmpty
  /-- channel 0, power management (R110) -/
  | channel0
  /-- channel 1, framebuffer (R110) -/
  | channel1
  /-- channel 2, virtual UART (R110) -/
  | channel2
  /-- channel 3, VCHIQ (R110) -/
  | channel3
  /-- channel 4, LED (R110) -/
  | channel4
  /-- channel 5, button (R110) -/
  | channel5
  /-- channel 6, touchscreen (R110) -/
  | channel6
  /-- channel 7, count (R110) -/
  | channel7
  /-- channel 8, property tags (R110) -/
  | channel8
  /-- channels 9 to 15 (R110, R123) -/
  | channelReserved (ch : BitVec 4)
  /-- tag_id 0x1, firmware revision, and the words after it (R111) -/
  | tag1 (rest : List Word)
  /-- tag_id 0x10001, board model, and the words after it (R111) -/
  | tag10001 (rest : List Word)
  /-- tag_id 0x10004, board serial, and the words after it (R111) -/
  | tag10004 (rest : List Word)
  /-- tag_id 0x10005, ARM memory, and the words after it (R111) -/
  | tag10005 (rest : List Word)
  /-- tag_id 0x30002, clock rate get, and the words after it (R111) -/
  | tag30002 (rest : List Word)
  /-- tag_id 0x38002, clock rate set, and the words after it (R111) -/
  | tag38002 (rest : List Word)
  /-- tag_id 0x40001, framebuffer allocate, and the words after it (R111) -/
  | tag40001 (rest : List Word)
  /-- tag_id 0x40003, physical size get, and the words after it (R111) -/
  | tag40003 (rest : List Word)
  /-- tag_id 0x40004, virtual size get, and the words after it (R112) -/
  | tag40004 (rest : List Word)
  /-- tag_id 0x44003, physical size test, and the words after it (R112) -/
  | tag44003 (rest : List Word)
  /-- tag_id 0x44004, virtual size test, and the words after it (R112) -/
  | tag44004 (rest : List Word)
  /-- tag_id 0x48003, physical size set, and the words after it (R112) -/
  | tag48003 (rest : List Word)
  /-- tag_id 0x48004, virtual size set, and the words after it (R111) -/
  | tag48004 (rest : List Word)
  /-- tag_id 0x40005, depth get, and the words after it (R111) -/
  | tag40005 (rest : List Word)
  /-- tag_id 0x48005, depth set, and the words after it (R111) -/
  | tag48005 (rest : List Word)
  /-- tag_id 0x40006, pixel order get, and the words after it (R111) -/
  | tag40006 (rest : List Word)
  /-- tag_id 0x48006, pixel order set, and the words after it (R111) -/
  | tag48006 (rest : List Word)
  /-- result kind Ok, code 0 (R261) -/
  | kindOk (info : Word)
  /-- result kind LockContention, code 1 (R261) -/
  | kindLockContention (info : Word)
  /-- result kind BufferFull, code 2 (R261) -/
  | kindBufferFull (info : Word)
  /-- result kind FirmwareRejected, code 3 (R261) -/
  | kindFirmwareRejected (info : Word)
  /-- result kind UnknownResponseStatus, code 4 (R261) -/
  | kindUnknownResponseStatus (info : Word)
  /-- result kind NoResponse, code 5 (R261) -/
  | kindNoResponse (info : Word)
  /-- result kind TagNotAnswered, code 6 (R261) -/
  | kindTagNotAnswered (info : Word)
  /-- result kind Timeout, code 7 (R261) -/
  | kindTimeout (info : Word)
  /-- result kind UnsupportedBoard, code 8; R122 gives every result an INFO word, which records nothing here (R261) -/
  | kindUnsupportedBoard (info : Word)
  /-- result kind UnsupportedCpuModel, code 9; its INFO word records nothing either (R261) -/
  | kindUnsupportedCpuModel (info : Word)
  /-- result kind codes 10 to 15 (R261) -/
  | kindReserved (code : BitVec 4) (info : Word)
  deriving DecidableEq, Repr

end Sys2Proof
end

