-- ==== Sys2Proof/Config.lean ====
section
/-! DEFINITION. The constants the source fixes (00_scope R11), the parameters it leaves to the board (R12), and the
two free values (10_state R36; 70_reset_and_hazards R333). -/

namespace Sys2Proof

/-- BUF_WORDS (00_scope R11). -/
abbrev Config.bufWords : Nat := 36
/-- BUF_BYTES = 36 * 4 (00_scope R11). -/
abbrev Config.bufBytes : Nat := 144
/-- BUF_ALIGN, in bytes (00_scope R11). -/
abbrev Config.bufAlign : Nat := 16
/-- HEADER_BYTES (00_scope R11). -/
abbrev Config.headerBytes : Nat := 8
/-- FIRST_TAG, the word index of the first tag slot (00_scope R11). -/
abbrev Config.firstTag : Nat := 2
/-- PROPERTY_CHANNEL (00_scope R11; 30_encoding R110). -/
abbrev Config.propertyChannel : BitVec 4 := 8#4
/-- MBOX_OFFSET, the offset of the register block from MMIO_BASE (00_scope R11). -/
abbrev Config.mboxOffset : Nat := 0xb880
/-- CODE_REQUEST (00_scope R11; 30_encoding R105). -/
abbrev Config.codeRequest : Word := 0x00000000#32
/-- CODE_RESPONSE (00_scope R11; 30_encoding R105). -/
abbrev Config.codeResponse : Word := 0x80000000#32
/-- CODE_RESPONSE_ERROR (00_scope R11; 30_encoding R105). -/
abbrev Config.codeResponseError : Word := 0x80000001#32

/-- SCAN_MODE (00_scope R12; 40_buffer_build R143, R144). -/
inductive ScanMode where
  | tagWalk
  | wordScan
  deriving DecidableEq, Repr

/-- The parameters of 00_scope R12: fixed for the whole run, arguments of the model (10_state R41). They are a field of
State that no step changes (log 1). -/
structure Params where
  mmioBase    : Word
  bufAddr     : Word
  fifoDepth   : Nat
  /-- none is the reference behaviour: the polling loops are unbounded (41_call R175) -/
  pollLimit   : Option Nat
  scanMode    : ScanMode
  /-- words WRITE_TAG keeps free after the copied tag: 0 or 1 -/
  termReserve : Fin 2
  lockCount   : Nat
  deriving DecidableEq, Repr

/-- The constraints 00_scope R12 puts on the parameters (20_memory R67, R68). Anything else is not a configuration of
this hardware (93_implementation_defined U11). -/
abbrev Params.Valid (c : Params) : Prop :=
  c.mmioBase.toNat % 4 = 0 ∧
  c.mmioBase.toNat + Config.mboxOffset + 0x23 < 2 ^ 32 ∧
  c.bufAddr.toNat % Config.bufAlign = 0 ∧
  c.bufAddr.toNat + 143 < 2 ^ 32 ∧
  (c.bufAddr.toNat + 143 < c.mmioBase.toNat + Config.mboxOffset ∨
    c.mmioBase.toNat + Config.mboxOffset + 0x23 < c.bufAddr.toNat) ∧
  1 ≤ c.fifoDepth ∧
  c.pollLimit ≠ some 0 ∧
  1 ≤ c.lockCount

/-- The configuration State.reset stands in: the defaults of 00_scope R12, and for the three parameters without a
default the values of 95_test_vectors' common configuration. DESIGN CHOICE, log 1 (FIFO_DEPTH 8: PRESUMED, the family's,
93_implementation_defined G2). -/
def Params.reference : Params where
  mmioBase := 0x3F000000#32
  bufAddr := 0x00012340#32
  fifoDepth := 8
  pollLimit := none
  scanMode := .tagWalk
  termReserve := 1
  lockCount := 3

/-- Status bits 29:0 at the n-th draw: a free value, not in source, a fresh one on every read (10_state R36;
93_implementation_defined U1). Nothing in the model constrains it; log 6. -/
opaque Config.statusLowBits : Nat → BitVec 30

/-- Who moves at the n-th draw, and with what: an instruction, or none for the ENGINE. A free value: between any two steps
any other enabled agent may take any number of steps (70_reset_and_hazards R333). Nothing constrains it; log 33. -/
opaque Config.drawnMove : Nat → Option Instr

end Sys2Proof
end

