-- ==== Sys2Proof/Decode.lean ====
section
/-! DEFINITION. The decoder and the encoder, both written from the tables of 30_encoding (R105 to R111, R116, R121) and of
60_exceptions R261. The decoder is total: what no table row names is rejected, by name. -/

namespace Sys2Proof

/-- Why a list of words is no instruction of its port (30_encoding R123: refuse). -/
inductive Reject where
  /-- the port was given too few words -/
  | missingWords
  /-- the port was given words beyond the instruction's -/
  | trailingWords
  /-- CW[31:16] is not zero -/
  | reservedBits
  /-- CH is not 8 on CALL, or not 0 on another command; a submission word not on channel 8 (D24) -/
  | channelField
  /-- ARG is not zero on a command that takes none -/
  | argumentField
  /-- a selector of more than 9 bits (R116) -/
  | selector
  /-- a tag_id the table does not list (R111) -/
  | tagIdentifier
  /-- a tag or status word without the bit its row names (R106, R109) -/
  | clearBit
  /-- a field value wider than the field -/
  | fieldWidth
  deriving DecidableEq, Repr

/-! ### Fields of the command word (30_encoding R121) -/

/-- OP = CW[3:0]. -/
def cwOp (cw : Word) : BitVec 4 := cw.extractLsb' 0 4
/-- CH = CW[7:4]. -/
def cwCh (cw : Word) : BitVec 4 := cw.extractLsb' 4 4
/-- ARG = CW[15:8]. -/
def cwArg (cw : Word) : BitVec 8 := cw.extractLsb' 8 8
/-- CW[31:16], reserved. -/
def cwReserved (cw : Word) : BitVec 16 := cw.extractLsb' 16 16
/-- The command word with these fields and zero reserved bits. -/
def cwMake (arg : BitVec 8) (ch op : BitVec 4) : Word := 0#16 ++ (arg ++ (ch ++ op))

/-! ### The command port (30_encoding R121, R123) -/

/-- A command that takes an argument in ARG and no channel. -/
def decodeArg (cw : Word) (i : BitVec 8 → Instr) : Except Reject Instr :=
  if cwCh cw ≠ 0#4 then .error .channelField else .ok (i (cwArg cw))

/-- A command without operands: CH must be `ch`, ARG must be 0. -/
def decodePlain (cw : Word) (ch : BitVec 4) (i : Instr) : Except Reject Instr :=
  if cwCh cw ≠ ch then .error .channelField
  else if cwArg cw ≠ 0#8 then .error .argumentField
  else .ok i

/-- A command word other than WRITE_TAG's, whose reserved bits are zero. -/
def decodeFixed (cw : Word) : Except Reject Instr :=
  if cwOp cw = 1#4 then decodePlain cw 0#4 .newBuffer
  else if cwOp cw = 3#4 then decodePlain cw Config.propertyChannel .call
  else if cwOp cw = 4#4 then decodeArg cw .tagCheck
  else if cwOp cw = 5#4 then decodeArg cw .readWord
  else if cwOp cw = 6#4 then decodePlain cw 0#4 .discard
  else if cwOp cw = 8#4 then decodeArg cw .tryAcquire
  else if cwOp cw = 9#4 then decodeArg cw .release
  else if cwOp cw = 10#4 then decodePlain cw 0#4 .getFirmwareRevision
  else decodePlain cw 0#4 .getBoardSerial

/-- The next command of a stream and what follows it (R121, R125). OP 0, 7 and 0xC to 0xF are the table's reserved rows,
whatever the other bits are. -/
def decodeCommand : List Word → Except Reject (Instr × List Word)
  | [] => .error .missingWords
  | cw :: rest =>
    if cwOp cw = 0#4 then .ok (.reservedOp0 cw, rest)
    else if cwOp cw = 7#4 then .ok (.reservedOp7 cw, rest)
    else if 12#4 ≤ cwOp cw then .ok (.reservedOpCToF cw, rest)
    else if cwReserved cw ≠ 0#16 then .error .reservedBits
    else if cwOp cw = 2#4 then
      if cwCh cw ≠ 0#4 then .error .channelField
      else if rest.length < (cwArg cw).toNat then .error .missingWords
      else .ok (.writeTag (rest.take (cwArg cw).toNat), rest.drop (cwArg cw).toNat)
    else (decodeFixed cw).map fun i => (i, rest)

/-! ### Register accesses (30_encoding R116; 10_state R35) -/

/-- Bit 8 of the selector: 1 for a write. -/
def selWrites (sel : Word) : Bool := sel.getLsbD 8
/-- off[7:0] of the selector. -/
def selOffset (sel : Word) : BitVec 8 := sel.extractLsb' 0 8
/-- The selector of an access. -/
def selMake (write : Bool) (off : BitVec 8) : Word := 0#23 ++ (BitVec.ofBool write ++ off)

/-- The row a read or a write of an offset falls under. -/
def accessRow (off : BitVec 8) : Access → Instr
  | .read =>
    if off = 0x00#8 then .rdMboxRw
    else if off = 0x10#8 then .rdwrMboxPeek .read
    else if off = 0x14#8 then .rdwrMboxSender .read
    else if off = 0x18#8 then .rdMboxStatus
    else if off = 0x1c#8 then .rdwrMboxConfig .read
    else if off = 0x20#8 then .rdMboxWrite
    else .regOtherOffset off .read
  | .write v =>
    if off = 0x00#8 then .wrMboxRw v
    else if off = 0x10#8 then .rdwrMboxPeek (.write v)
    else if off = 0x14#8 then .rdwrMboxSender (.write v)
    else if off = 0x18#8 then .wrMboxStatus v
    else if off = 0x1c#8 then .rdwrMboxConfig (.write v)
    else if off = 0x20#8 then .wrMboxWrite v
    else .regOtherOffset off (.write v)

/-- What follows the selector: nothing on a read, the value on a write. -/
def decodeValue (write : Bool) (vs : List Word) : Except Reject Access :=
  match write, vs with
  | false, [] => .ok .read
  | false, _ :: _ => .error .trailingWords
  | true, [] => .error .missingWords
  | true, [v] => .ok (.write v)
  | true, _ :: _ :: _ => .error .trailingWords

/-- SEL, then the value of a write. -/
def decodeAccess (ws : List Word) : Except Reject Instr :=
  match ws with
  | [] => .error .missingWords
  | sel :: vs =>
    if 0x200 ≤ sel.toNat then .error .selector
    else (decodeValue (selWrites sel) vs).map (accessRow (selOffset sel))

/-! ### Wire formats -/

/-- The whole-buffer code word (30_encoding R105). -/
def codeRow (c : Word) : Instr :=
  if c = Config.codeRequest then .codeRequest
  else if c = Config.codeResponse then .codeResponse
  else if c = Config.codeResponseError then .codeResponseError
  else .codeUnknown c

/-- The tag identifiers of 30_encoding R111 and R112 (log 30), and the terminator (R104). -/
def tagRow (id : Word) (rest : List Word) : Option Instr :=
  if id = 0x0#32 then some (.terminator rest)
  else if id = 0x1#32 then some (.tag1 rest)
  else if id = 0x10001#32 then some (.tag10001 rest)
  else if id = 0x10004#32 then some (.tag10004 rest)
  else if id = 0x10005#32 then some (.tag10005 rest)
  else if id = 0x30002#32 then some (.tag30002 rest)
  else if id = 0x38002#32 then some (.tag38002 rest)
  else if id = 0x40001#32 then some (.tag40001 rest)
  else if id = 0x40003#32 then some (.tag40003 rest)
  else if id = 0x40004#32 then some (.tag40004 rest)
  else if id = 0x44003#32 then some (.tag44003 rest)
  else if id = 0x44004#32 then some (.tag44004 rest)
  else if id = 0x48003#32 then some (.tag48003 rest)
  else if id = 0x48004#32 then some (.tag48004 rest)
  else if id = 0x40005#32 then some (.tag40005 rest)
  else if id = 0x48005#32 then some (.tag48005 rest)
  else if id = 0x40006#32 then some (.tag40006 rest)
  else if id = 0x48006#32 then some (.tag48006 rest)
  else none

/-- The channel field (30_encoding R110). -/
def channelRow (ch : BitVec 4) : Instr :=
  if ch = 0#4 then .channel0
  else if ch = 1#4 then .channel1
  else if ch = 2#4 then .channel2
  else if ch = 3#4 then .channel3
  else if ch = 4#4 then .channel4
  else if ch = 5#4 then .channel5
  else if ch = 6#4 then .channel6
  else if ch = 7#4 then .channel7
  else if ch = 8#4 then .channel8
  else .channelReserved ch

/-- The result kinds (60_exceptions R261). -/
def kindRow (code : BitVec 4) (info : Word) : Instr :=
  if code = 0#4 then .kindOk info
  else if code = 1#4 then .kindLockContention info
  else if code = 2#4 then .kindBufferFull info
  else if code = 3#4 then .kindFirmwareRejected info
  else if code = 4#4 then .kindUnknownResponseStatus info
  else if code = 5#4 then .kindNoResponse info
  else if code = 6#4 then .kindTagNotAnswered info
  else if code = 7#4 then .kindTimeout info
  else if code = 8#4 then .kindUnsupportedBoard info
  else if code = 9#4 then .kindUnsupportedCpuModel info
  else .kindReserved code info

/-! ### The decoder -/

/-- An instruction of a port that takes exactly `n` words. -/
def decodeWords (n : Nat) (ws : List Word) (k : List Word → Except Reject Instr) : Except Reject Instr :=
  if ws.length < n then .error .missingWords
  else if n < ws.length then .error .trailingWords
  else k ws

/-- Word `n` of a list; 0 past its end (used under a length check only). -/
def wordAt (ws : List Word) (n : Nat) : Word := ws.getD n 0#32

/-- One instruction from a port that carries one at a time. A status word with both bits set fits both rows of 30_encoding
R109, and the spec does not say which it is: it is read as STATUS_FULL (DESIGN CHOICE, log 32). -/
def decodeOne : Port → List Word → Except Reject Instr
  | .command, _ => .error .trailingWords
  | .regAccess, ws => decodeAccess ws
  | .submitPoll, ws => decodeWords 0 ws fun _ => .ok .stepSubmitPoll
  | .submitWrite, ws => decodeWords 0 ws fun _ => .ok .stepSubmitWrite
  | .corrPoll, ws => decodeWords 0 ws fun _ => .ok .stepCorrPoll
  | .corrRead, ws => decodeWords 0 ws fun _ => .ok .stepCorrRead
  | .raNew, ws => decodeWords 1 ws fun l => .ok (.raNew (wordAt l 0))
  | .raOffset, ws => decodeWords 2 ws fun l => .ok (.raOffset (wordAt l 0) (wordAt l 1))
  | .raRead, ws => decodeWords 1 ws fun l => .ok (.raRead (wordAt l 0))
  | .raWrite, ws => decodeWords 2 ws fun l => .ok (.raWrite (wordAt l 0) (wordAt l 1))
  | .fwPop, ws => decodeWords 0 ws fun _ => .ok .fwPop
  | .fwProcess, ws => decodeWords 37 ws fun l => .ok (.fwProcess (wordAt l 0) (l.drop 1))
  | .fwPush, ws => decodeWords 1 ws fun l => .ok (.fwPush (wordAt l 0))
  | .foreignPush, ws => decodeWords 1 ws fun l => .ok (.foreignPush (wordAt l 0))
  | .bufferCode, ws => decodeWords 1 ws fun l => .ok (codeRow (wordAt l 0))
  | .tagCode, ws => decodeWords 2 ws fun l =>
      if (wordAt l 0).getLsbD 31 = false then .error .clearBit
      else if 256 ≤ (wordAt l 1).toNat then .error .fieldWidth
      else .ok (.tagResponseBit ((wordAt l 1).setWidth 8))
  | .tagId, ws =>
      match ws with
      | [] => .error .missingWords
      | id :: rest =>
        if 254 < rest.length then .error .trailingWords
        else match tagRow id rest with
          | some i => .ok i
          | none => .error .tagIdentifier
  | .submission, ws => decodeWords 1 ws fun l =>
      if (wordAt l 0).extractLsb' 0 4 ≠ Config.propertyChannel then .error .channelField
      else .ok (.submissionWordCh8 ((wordAt l 0).extractLsb' 4 28))
  | .status, ws => decodeWords 1 ws fun l =>
      if (wordAt l 0).getLsbD 31 then .ok .statusFull
      else if (wordAt l 0).getLsbD 30 then .ok .statusEmpty
      else .error .clearBit
  | .channel, ws => decodeWords 1 ws fun l =>
      if 16 ≤ (wordAt l 0).toNat then .error .fieldWidth else .ok (channelRow ((wordAt l 0).setWidth 4))
  | .result, ws => decodeWords 2 ws fun l =>
      if 16 ≤ (wordAt l 0).toNat then .error .fieldWidth
      else .ok (kindRow ((wordAt l 0).setWidth 4) (wordAt l 1))

/-- The next instruction on a port, and the words after it. The command port is a stream (R125); every other port carries
one instruction. -/
def decode (p : Port) (ws : List Word) : Except Reject (Instr × List Word) :=
  if p = .command then decodeCommand ws else (decodeOne p ws).map fun i => (i, [])

/-- All commands of a stream, in order (R125: "The encoding of a program is the sequence of its command words, each
WRITE_TAG followed by its n operand words"). `fuel` bounds their number; every command takes a word, so the stream's
length is enough. -/
def decodeProgram : Nat → List Word → Except Reject (List Instr)
  | _, [] => .ok []
  | 0, _ :: _ => .error .trailingWords
  | fuel + 1, ws =>
    match decodeCommand ws with
    | .error r => .error r
    | .ok (i, rest) => (decodeProgram fuel rest).map fun is => i :: is

/-! ### The encoder -/

/-- The words of an access. -/
def encodeAccess (off : BitVec 8) : Access → List Word
  | .read => [selMake false off]
  | .write v => [selMake true off, v]

/-- The port of an instruction. -/
def encodePort : Instr → Port
  | .newBuffer => .command
  | .writeTag _ => .command
  | .call => .command
  | .tagCheck _ => .command
  | .readWord _ => .command
  | .discard => .command
  | .tryAcquire _ => .command
  | .release _ => .command
  | .getFirmwareRevision => .command
  | .getBoardSerial => .command
  | .reservedOp0 _ => .command
  | .reservedOp7 _ => .command
  | .reservedOpCToF _ => .command
  | .stepSubmitPoll => .submitPoll
  | .stepSubmitWrite => .submitWrite
  | .stepCorrPoll => .corrPoll
  | .stepCorrRead => .corrRead
  | .raNew _ => .raNew
  | .raOffset _ _ => .raOffset
  | .raRead _ => .raRead
  | .raWrite _ _ => .raWrite
  | .rdMboxRw => .regAccess
  | .wrMboxRw _ => .regAccess
  | .rdwrMboxPeek _ => .regAccess
  | .rdwrMboxSender _ => .regAccess
  | .rdMboxStatus => .regAccess
  | .wrMboxStatus _ => .regAccess
  | .rdwrMboxConfig _ => .regAccess
  | .wrMboxWrite _ => .regAccess
  | .rdMboxWrite => .regAccess
  | .regOtherOffset _ _ => .regAccess
  | .fwPop => .fwPop
  | .fwProcess _ _ => .fwProcess
  | .fwPush _ => .fwPush
  | .foreignPush _ => .foreignPush
  | .codeRequest => .bufferCode
  | .codeResponse => .bufferCode
  | .codeResponseError => .bufferCode
  | .codeUnknown _ => .bufferCode
  | .tagResponseBit _ => .tagCode
  | .terminator _ => .tagId
  | .submissionWordCh8 _ => .submission
  | .statusFull => .status
  | .statusEmpty => .status
  | .channel0 => .channel
  | .channel1 => .channel
  | .channel2 => .channel
  | .channel3 => .channel
  | .channel4 => .channel
  | .channel5 => .channel
  | .channel6 => .channel
  | .channel7 => .channel
  | .channel8 => .channel
  | .channelReserved _ => .channel
  | .tag1 _ => .tagId
  | .tag10001 _ => .tagId
  | .tag10004 _ => .tagId
  | .tag10005 _ => .tagId
  | .tag30002 _ => .tagId
  | .tag38002 _ => .tagId
  | .tag40001 _ => .tagId
  | .tag40003 _ => .tagId
  | .tag40004 _ => .tagId
  | .tag44003 _ => .tagId
  | .tag44004 _ => .tagId
  | .tag48003 _ => .tagId
  | .tag48004 _ => .tagId
  | .tag40005 _ => .tagId
  | .tag48005 _ => .tagId
  | .tag40006 _ => .tagId
  | .tag48006 _ => .tagId
  | .kindOk _ => .result
  | .kindLockContention _ => .result
  | .kindBufferFull _ => .result
  | .kindFirmwareRejected _ => .result
  | .kindUnknownResponseStatus _ => .result
  | .kindNoResponse _ => .result
  | .kindTagNotAnswered _ => .result
  | .kindTimeout _ => .result
  | .kindUnsupportedBoard _ => .result
  | .kindUnsupportedCpuModel _ => .result
  | .kindReserved _ _ => .result

/-- The words of an instruction on its port. -/
def encodeWords : Instr → List Word
  | .newBuffer => [cwMake 0#8 0#4 1#4]
  | .writeTag ws => cwMake (BitVec.ofNat 8 ws.length) 0#4 2#4 :: ws
  | .call => [cwMake 0#8 Config.propertyChannel 3#4]
  | .tagCheck t => [cwMake t 0#4 4#4]
  | .readWord i => [cwMake i 0#4 5#4]
  | .discard => [cwMake 0#8 0#4 6#4]
  | .tryAcquire k => [cwMake k 0#4 8#4]
  | .release k => [cwMake k 0#4 9#4]
  | .getFirmwareRevision => [cwMake 0#8 0#4 10#4]
  | .getBoardSerial => [cwMake 0#8 0#4 11#4]
  | .reservedOp0 cw => [cw]
  | .reservedOp7 cw => [cw]
  | .reservedOpCToF cw => [cw]
  | .stepSubmitPoll => []
  | .stepSubmitWrite => []
  | .stepCorrPoll => []
  | .stepCorrRead => []
  | .raNew off => [off]
  | .raOffset a n => [a, n]
  | .raRead a => [a]
  | .raWrite a v => [a, v]
  | .rdMboxRw => encodeAccess 0x00#8 .read
  | .wrMboxRw v => encodeAccess 0x00#8 (.write v)
  | .rdwrMboxPeek acc => encodeAccess 0x10#8 acc
  | .rdwrMboxSender acc => encodeAccess 0x14#8 acc
  | .rdMboxStatus => encodeAccess 0x18#8 .read
  | .wrMboxStatus v => encodeAccess 0x18#8 (.write v)
  | .rdwrMboxConfig acc => encodeAccess 0x1c#8 acc
  | .wrMboxWrite v => encodeAccess 0x20#8 (.write v)
  | .rdMboxWrite => encodeAccess 0x20#8 .read
  | .regOtherOffset off acc => encodeAccess off acc
  | .fwPop => []
  | .fwProcess w f => w :: f
  | .fwPush w => [w]
  | .foreignPush x => [x]
  | .codeRequest => [Config.codeRequest]
  | .codeResponse => [Config.codeResponse]
  | .codeResponseError => [Config.codeResponseError]
  | .codeUnknown c => [c]
  | .tagResponseBit t => [0x80000000#32, t.setWidth 32]
  | .terminator rest => 0x0#32 :: rest
  | .submissionWordCh8 ptr => [ptr ++ Config.propertyChannel]
  | .statusFull => [0x80000000#32]
  | .statusEmpty => [0x40000000#32]
  | .channel0 => [0#32]
  | .channel1 => [1#32]
  | .channel2 => [2#32]
  | .channel3 => [3#32]
  | .channel4 => [4#32]
  | .channel5 => [5#32]
  | .channel6 => [6#32]
  | .channel7 => [7#32]
  | .channel8 => [8#32]
  | .channelReserved ch => [ch.setWidth 32]
  | .tag1 rest => 0x1#32 :: rest
  | .tag10001 rest => 0x10001#32 :: rest
  | .tag10004 rest => 0x10004#32 :: rest
  | .tag10005 rest => 0x10005#32 :: rest
  | .tag30002 rest => 0x30002#32 :: rest
  | .tag38002 rest => 0x38002#32 :: rest
  | .tag40001 rest => 0x40001#32 :: rest
  | .tag40003 rest => 0x40003#32 :: rest
  | .tag40004 rest => 0x40004#32 :: rest
  | .tag44003 rest => 0x44003#32 :: rest
  | .tag44004 rest => 0x44004#32 :: rest
  | .tag48003 rest => 0x48003#32 :: rest
  | .tag48004 rest => 0x48004#32 :: rest
  | .tag40005 rest => 0x40005#32 :: rest
  | .tag48005 rest => 0x48005#32 :: rest
  | .tag40006 rest => 0x40006#32 :: rest
  | .tag48006 rest => 0x48006#32 :: rest
  | .kindOk info => [0#32, info]
  | .kindLockContention info => [1#32, info]
  | .kindBufferFull info => [2#32, info]
  | .kindFirmwareRejected info => [3#32, info]
  | .kindUnknownResponseStatus info => [4#32, info]
  | .kindNoResponse info => [5#32, info]
  | .kindTagNotAnswered info => [6#32, info]
  | .kindTimeout info => [7#32, info]
  | .kindUnsupportedBoard info => [8#32, info]
  | .kindUnsupportedCpuModel info => [9#32, info]
  | .kindReserved code info => [code.setWidth 32, info]

/-- The port and the words of an instruction. -/
def encode (i : Instr) : Port × List Word := (encodePort i, encodeWords i)

/-! ### The opcode table's words -/

/-- Which port a word of spec/opcode_table.json belongs to. The table's formats overlap as bare numbers (0x00000001 is
NEW_BUFFER and the tag_id firmware revision; a nibble is a channel and a result kind), since each format stands in its own
position; this choice reads a number as the row that fixes most of it: a command, then a code word, a tag_id, a submission
word and a status bit, and a channel before a result kind. The operand words the table gives no bits are zeros. Log 18. -/
def tablePacket (nbits w : Nat) : Port × List Word :=
  let cw : Word := BitVec.ofNat 32 w
  if nbits ≤ 8 then
    if w < 9 then (.channel, [cw]) else (.result, [cw, 0#32])
  else if nbits ≤ 16 then
    (.regAccess, if selWrites cw then [cw, 0#32] else [cw])
  else
    let command := cw :: List.replicate (if cwOp cw = 2#4 then (cwArg cw).toNat else 0) 0#32
    if cwReserved cw = 0#16 then (.command, command)
    else if cw = Config.codeResponse ∨ cw = Config.codeResponseError then (.bufferCode, [cw])
    else if (tagRow cw []).isSome then (.tagId, [cw])
    else if cw.extractLsb' 0 4 = Config.propertyChannel then (.submission, [cw])
    else if cw.getLsbD 31 = true ∨ cw.getLsbD 30 = true then (.status, [cw])
    else (.command, command)

/-- The instruction the decoder reads from an instruction whose bits are w, numbered as the table numbers them. -/
def decodeTableWord (nbits w : Nat) : Option Instr :=
  match decode (tablePacket nbits w).1 (tablePacket nbits w).2 with
  | .ok (i, _) => some i
  | .error _ => none

end Sys2Proof
end

