-- ==== Sys2Proof/Machine/Memory.lean ====
section
/-! DEFINITION. Ordinary memory as plain data, and the operations over its bytes and words (20_memory R60 to R73). -/

namespace Sys2Proof.Machine

/-- Ordinary memory: (address, byte) pairs, addresses strictly rising. An address that is not listed holds no value: of
the address space the spec gives contents to the 36 words of the buffer only (10_state R20, R21; log 3). -/
abbrev Memory := List Host.Cell

/-- The canonical form of memory: addresses strictly rising. No value can be listed that an unlisted address reads as,
since an unlisted address has none. -/
def Memory.wf : Memory → Bool
  | [] => true
  | [_] => true
  | c :: d :: m => decide (c.1 < d.1) && Memory.wf (d :: m)

/-- The byte at an address; none where none is listed. -/
def Memory.readByte : Memory → Nat → Option Byte
  | [], _ => none
  | c :: m, a => if c.1 = a then some c.2 else Memory.readByte m a

/-- Writes one byte, keeping addresses rising. -/
def Memory.writeByte : Memory → Nat → Byte → Memory
  | [], a, b => [(a, b)]
  | c :: m, a, b =>
    if a < c.1 then (a, b) :: c :: m
    else if a = c.1 then (a, b) :: m
    else c :: Memory.writeByte m a b

/-- Byte k of a word: bits 8k+7 down to 8k (20_memory R65: little-endian; log 4). -/
def byteOf (v : Word) (k : Nat) : Byte := v.extractLsb' (8 * k) 8

/-- The word whose byte 0 is the first argument (20_memory R65). -/
def wordOf (b0 b1 b2 b3 : Byte) : Word := b3 ++ (b2 ++ (b1 ++ b0))

/-- MemRead(a, 4) (00_scope R15). -/
def Memory.readWord (m : Memory) (a : Nat) : Option Word :=
  match m.readByte a, m.readByte (a + 1), m.readByte (a + 2), m.readByte (a + 3) with
  | some b0, some b1, some b2, some b3 => some (wordOf b0 b1 b2 b3)
  | _, _, _, _ => none

/-- MemWrite(a, 4, v) (00_scope R15). -/
def Memory.writeWord (m : Memory) (a : Nat) (v : Word) : Memory :=
  (((m.writeByte a (byteOf v 0)).writeByte (a + 1) (byteOf v 1)).writeByte (a + 2) (byteOf v 2)).writeByte (a + 3)
    (byteOf v 3)

/-- Words written one after another from an address, in ascending order. -/
def Memory.writeWords : Memory → Nat → List Word → Memory
  | m, _, [] => m
  | m, a, w :: ws => Memory.writeWords (m.writeWord a w) (a + 4) ws

/-- The memory that holds these words from an address on, and nothing else. -/
def Memory.image : Nat → List Word → Memory
  | _, [] => []
  | a, w :: ws => (a, byteOf w 0) :: (a + 1, byteOf w 1) :: (a + 2, byteOf w 2) :: (a + 3, byteOf w 3) ::
      Memory.image (a + 4) ws

end Sys2Proof.Machine
end

