-- ==== Sys2Proof/Machine/State.lean ====
section
/-! DEFINITION. The state of the machine as plain data, its value after reset, and the reasons a step can stop. -/

namespace Sys2Proof.Machine

/-! ### The pieces of state -/

/-- PHASE, the state of the request/response state machine (10_state R24). -/
inductive Phase where
  | none
  | build
  | submitPoll
  | submitWrite
  | corrPoll
  | corrRead
  | doneOk
  | doneErr
  deriving DecidableEq, Repr

/-- KIND (60_exceptions R261). -/
inductive Kind where
  | ok
  | lockContention
  | bufferFull
  | firmwareRejected
  | unknownResponseStatus
  | noResponse
  | tagNotAnswered
  | timeout
  | unsupportedBoard
  | unsupportedCpuModel
  deriving DecidableEq, Repr

/-- RESULT = (KIND, INFO) (10_state R28). -/
structure Result where
  kind : Kind
  info : Word
  deriving DecidableEq, Repr

/-- The agents that issue commands: the code path running on the one core (00_scope R10; 60_exceptions R275). -/
inductive Agent where
  | host
  | irq
  deriving DecidableEq, Repr

/-- LOCK[k].FLAG (10_state R31). -/
inductive LockFlag where
  | unlocked
  | locked
  deriving DecidableEq, Repr

/-- One lock instance: LOCK[k].FLAG (10_state R31) and GUARD[k] = (LIVE, SAVED_IE) (R33). `holder` is the agent that
acquired the guard (44_lock R242, R249), read only while `live` (log 8). -/
structure LockCell where
  flag    : LockFlag
  live    : Bool
  savedIe : Bool
  holder  : Agent
  deriving DecidableEq, Repr

/-- The two recipes (42_readback R195, R196). -/
inductive RecipeKind where
  | firmwareRevision
  | boardSerial
  deriving DecidableEq, Repr

/-- Which command of a recipe's expansion the engine takes next (30_encoding R126). NEW_BUFFER is taken when the recipe is
issued. `checkTag` is entered when CALL is accepted; while PHASE is inside CALL the engine takes CALL's phase-steps. -/
inductive RecipeStage where
  | writeTag
  | call
  | checkTag
  | readLow
  | readHigh
  | discard
  /-- a command of the expansion did not return Ok: DISCARD, then return that command's RESULT (42_readback R194) -/
  | cleanup (r : Result)
  deriving DecidableEq, Repr

/-- A recipe in progress: the rest of its expansion and the words it has read back (log 14). -/
structure RecipeRun where
  kind  : RecipeKind
  stage : RecipeStage
  low   : Word
  high  : Word
  deriving DecidableEq, Repr

/-- What the world presents to the machine next, and who moves (log 2). -/
inductive Input where
  /-- words on a port -/
  | words (port : Port) (ws : List Word)
  /-- the ENGINE takes its next step -/
  | engine
  /-- the CPU-model detection resolves the MMIO base (70_reset_and_hazards R303) -/
  | resolveBase
  /-- an interrupt handler begins (60_exceptions R275) -/
  | irqEnter
  /-- the handler ends (60_exceptions R275) -/
  | irqExit
  /-- the host writes its interrupt enable itself (10_state R30) -/
  | setIe (b : Bool)
  /-- an instruction of one of these ports, or the ENGINE's next step: which, and what, is a free value
  (70_reset_and_hazards R333; log 33) -/
  | drawn (ports : List Port)
  /-- this input, and again when the rest of the agenda has had its turn (log 33) -/
  | again (i : Input)
  deriving DecidableEq, Repr

/-! ### The state -/

/-- Everything the spec gives the machine (10_state), and the model's own fields, marked so. -/
structure State where
  /-- the parameters of 00_scope R12; no step changes them (log 1) -/
  cfg        : Params
  /-- ordinary memory; BUF[i] is the word at BUF_ADDR + 4 i (10_state R21; 20_memory R62, R63) -/
  mem        : Memory
  /-- PHASE (R24) -/
  phase      : Phase
  /-- SUB (R26) -/
  sub        : Word
  /-- RESP (R27) -/
  resp       : Word
  /-- RESULT (R28) -/
  result     : Result
  /-- VALUE64 (R28; log 31) -/
  value64    : BitVec 64
  /-- POLLS (R29; log 26) -/
  polls      : Nat
  /-- LOCK[k].FLAG and GUARD[k], instance k at place k (R31, R33) -/
  locks      : List LockCell
  /-- the model's own: GUARD[0] has not been released since the last NEW_BUFFER, so the request in the buffer is covered by
  one guard (44_lock R249; log 34) -/
  unbroken   : Bool
  /-- IE (R32) -/
  ie         : Bool
  /-- BASE_VALID (R34) -/
  baseValid  : Bool
  /-- the kind the CPU-model detection ended with; none while it has not failed (60_exceptions R261, R270; log 24) -/
  startup    : Option Kind
  /-- OUTQ, head first (R37) -/
  outq       : List Word
  /-- INQ, head first (R38) -/
  inq        : List Word
  /-- MBOX_PEEK (R35, R42): no rule reads or writes it (log 21) -/
  mboxPeek   : Word
  /-- MBOX_SENDER (R35, R42): no rule reads or writes it (log 21) -/
  mboxSender : Word
  /-- MBOX_CONFIG (R35, R42): no rule reads or writes it (log 21) -/
  mboxConfig : Word
  /-- FW_PENDING, a multiset kept as an ascending list (R39; log 20) -/
  fwPending  : List Word
  /-- the model's own: which code path runs on the core (60_exceptions R275; log 8) -/
  running    : Agent
  /-- the model's own: the recipe in progress (30_encoding R126; log 14) -/
  recipe     : Option RecipeRun
  /-- the model's own: the word the last bare register read returned (log 13) -/
  readData   : Word
  /-- the model's own: how many draws of free values have been made (log 6, log 33) -/
  draws      : Nat
  /-- the model's own: which agent moves next, and with what (log 2) -/
  agenda     : List Input
  deriving DecidableEq, Repr

/-! ### Reset -/

/-- The elements 10_state R42 lists as unspecified at reset, and the model's own of which no reset value is given: one draw
of each (70_reset_and_hazards R301). -/
structure ResetDraw where
  /-- the 36 buffer words (R21; 93_implementation_defined U19) -/
  buf        : Vector Word Config.bufWords
  sub        : Word
  resp       : Word
  value64    : BitVec 64
  /-- GUARD[k].SAVED_IE, one for each lock instance; false where the list is shorter than LOCK_COUNT -/
  savedIe    : List Bool
  ie         : Bool
  mboxPeek   : Word
  mboxSender : Word
  mboxConfig : Word
  readData   : Word
  deriving DecidableEq, Repr

/-- The state after reset in a given configuration, for a given draw of the unspecified elements (10_state R42). -/
def State.resetWith (c : Params) (d : ResetDraw) : State where
  cfg := c
  mem := Memory.image c.bufAddr.toNat d.buf.toList
  phase := .none
  sub := d.sub
  resp := d.resp
  result := ⟨.ok, 0#32⟩
  value64 := d.value64
  polls := 0
  locks := (List.range c.lockCount).map fun k => ⟨.unlocked, false, d.savedIe.getD k false, .host⟩
  unbroken := false
  ie := d.ie
  baseValid := false
  startup := none
  outq := []
  inq := []
  mboxPeek := d.mboxPeek
  mboxSender := d.mboxSender
  mboxConfig := d.mboxConfig
  fwPending := []
  running := .host
  recipe := none
  readData := d.readData
  draws := 0
  agenda := []

/-- DESIGN CHOICE, log 5: every element the spec leaves unspecified at reset is 0 in State.reset. -/
def ResetDraw.zero : ResetDraw where
  buf := Vector.replicate Config.bufWords 0#32
  sub := 0#32
  resp := 0#32
  value64 := 0#64
  savedIe := []
  ie := false
  mboxPeek := 0#32
  mboxSender := 0#32
  mboxConfig := 0#32
  readData := 0#32

/-- The machine right after reset (70_reset_and_hazards R300, R301). -/
def State.reset : State := State.resetWith Params.reference ResetDraw.zero

/-! ### Why a step stops -/

/-- The spec's `fault` and `fatal`: a state after which no step is defined. -/
inductive Fault where
  /-- fatal: an access to a register, or a Register Address operation, with BASE_VALID = 0 (00_scope R4; 60_exceptions
  R271). Raised by the RA operations, by every phase-step and by the bare register accesses. Safe. -/
  | baseNotResolved
  /-- a write of MBOX_WRITE while OUTQ is full (43_mailbox_registers R221; U2). Raised by WR MBOX_WRITE, RA_WRITE and
  SUBMIT_WRITE. Safe. -/
  | outqFull
  /-- a read of MBOX_RW while INQ is empty (43_mailbox_registers R215; U3). Raised by RD MBOX_RW, RA_READ and CORR_READ.
  Safe. -/
  | inqEmpty
  /-- a read of a byte of memory that holds no value (log 3). Raised by the commands that read the buffer, in a state whose
  memory does not list all of its bytes; no such state can be reached (Safety: State.Inv). Safe. -/
  | unwrittenMemory
  deriving DecidableEq, Repr

/-- The spec's `refuse` (00_scope R15): the situation has no meaning, and the model computes no value. All are safe. -/
inductive Refusal where
  /-- an instruction whose meaning is not written yet; raised by exec's own arms only -/
  | notModelled (mnemonic : String)
  /-- words that are no instruction of their port (30_encoding R123); raised by the sequencer -/
  | illegalEncoding (why : Reject)
  /-- a reserved command code (30_encoding R123; U10); raised by the RESERVED_OP rows -/
  | reservedCommand
  /-- a kind code from 10 to 15, never produced (60_exceptions R261); raised by KIND_RESERVED -/
  | reservedKind
  /-- a configuration that is none of this hardware (U11); raised by the sequencer -/
  | badConfiguration
  /-- HOST and IRQ have no step while the engine runs a command (41_call R173); raised by what they issue -/
  | hostWaits
  /-- the issuer does not hold GUARD[0] (44_lock R249; U15); raised by the engine commands and recipes -/
  | guardNotHeld
  /-- the command is not admitted in this PHASE (10_state R25; U9); raised by the engine commands and recipes -/
  | phaseNotAdmitted
  /-- GUARD[0] was released since the NEW_BUFFER of this request (44_lock R249; 70_reset_and_hazards R320); raised by the
  engine commands other than NEW_BUFFER, and the rows that act as one of them; safe -/
  | requestBroken
  /-- t, i or k out of range (30_encoding R123; U10); raised by TAG_CHECK, READ_WORD, TRY_ACQUIRE, RELEASE -/
  | operandOutOfRange
  /-- RELEASE without a live guard of the issuer's (44_lock R242; U16) -/
  | noLiveGuard
  /-- the engine is not in the PHASE of this phase-step (41_call R176) -/
  | noSuchStep
  /-- an address of 2^32 or more (43_mailbox_registers R210, R211; U21); raised by RA_NEW, RA_OFFSET -/
  | addressOverflow
  /-- an access through an address that is not a multiple of 4 (20_memory R69); raised by RA_READ, RA_WRITE -/
  | misalignedAddress
  /-- an access the source gives no behaviour (43_mailbox_registers R216 to R220, R222, R223; U4, U5) -/
  | registerNotDescribed
  /-- the condition of a device-side step does not hold (43_mailbox_registers R226, R228, R229, R231), or KIND_Timeout without
  POLL_LIMIT (60_exceptions R269) -/
  | stepNotEnabled
  /-- the word a wire-format row names is not the one present (log 15), or the command of a result-kind row does not end with
  that result (log 17) -/
  | wordNotPresent
  /-- the MMIO base is resolved once (70_reset_and_hazards R303); raised by resolving it and by the two start-up kinds -/
  | baseAlreadyResolved
  /-- the CPU-model detection has failed: "fatal at startup, nothing can proceed" (60_exceptions R270; log 24); raised by
  resolving the base and by the two start-up kinds -/
  | detectionFailed
  /-- a handler cannot begin (IE = 0, a guard is live, or one is running), or none is running that could end (60_exceptions
  R275) -/
  | interruptNotDeliverable
  /-- interrupts enabled inside a critical section, or written by a handler, which the model leaves out (90_conflicts C7;
  log 10) -/
  | interruptEnableNotAdmitted
  deriving DecidableEq, Repr

/-- The outcome of a step of this machine. -/
abbrev Out := Host.Outcome State Fault Refusal

end Sys2Proof.Machine
end

