-- ==== Sys2Proof/Machine/Operands.lean ====
section
/-! DEFINITION. Operand forms and the arithmetic on words and indices (30_encoding R103, R107, R108, R114; 41_call R162,
R167; 43_mailbox_registers R214). -/

namespace Sys2Proof.Machine

/-- ceil4(b) = (b + 3) div 4 on natural numbers: the words a value area of b bytes takes (30_encoding R103). -/
def ceil4 (b : Nat) : Nat := (b + 3) / 4

/-- The structural length of a tag in words, from its size word: 3 + v (30_encoding R103). -/
def tagLength (size : Word) : Nat := 3 + ceil4 size.toNat

/-- The submission word BUF_ADDR | 8 (30_encoding R107; 41_call R162). -/
def submissionWord (bufAddr : Word) : Word := bufAddr ||| Config.propertyChannel.setWidth 32

/-- The channel field of a submission or response word, bits 3:0 (30_encoding R107, R108). -/
def wordChannel (w : Word) : BitVec 4 := w.extractLsb' 0 4

/-- The pointer field of a submission or response word, bits 31:4 (30_encoding R107, R108). -/
def wordPointer (w : Word) : BitVec 28 := w.extractLsb' 4 28

/-- The match test: both fields of the response equal those of the submission word (41_call R167). -/
def responseMatches (resp sub : Word) : Bool :=
  wordChannel resp = wordChannel sub && wordPointer resp = wordPointer sub

/-- w & 0xFFFF_FFF0, the buffer a request word designates (43_mailbox_registers R227). -/
def wordBuffer (w : Word) : Word := w &&& 0xFFFFFFF0#32

/-- The 64-bit serial (high << 32) | low (30_encoding R114). -/
def serial64 (high low : Word) : BitVec 64 := high ++ low

/-- The tag word list of a recipe (42_readback R195, R196; D22). -/
def recipeTag : RecipeKind → List Word
  | .firmwareRevision => [0x1#32, 0x4#32, 0#32, 0#32, 0#32]
  | .boardSerial => [0x10004#32, 0x8#32, 0#32, 0#32, 0#32, 0#32]

/-- The stage that follows a recipe's first READ_WORD (42_readback R195, R196). -/
def afterReadLow : RecipeKind → RecipeStage
  | .firmwareRevision => .discard
  | .boardSerial => .readHigh

/-- REG(0), the address of the register block (00_scope R15; 43_mailbox_registers R214). -/
def regBlock (c : Params) : Nat := c.mmioBase.toNat + Config.mboxOffset

/-- The offset of an address from the register block; none below it. -/
def regOffset (c : Params) (a : Word) : Option Nat :=
  if regBlock c ≤ a.toNat then some (a.toNat - regBlock c) else none

end Sys2Proof.Machine
end

