-- ==== Sys2Proof/Machine/Flags.lean ====
section
/-! DEFINITION. The bits that decide a step (10_state R30): FULL, EMPTY, the response bit, the guard, and whether the
engine is running a command. -/

namespace Sys2Proof.Machine

/-- FULL: OUTQ holds FIFO_DEPTH words, as an equality (10_state R36; log 22). -/
def State.outqFull (s : State) : Bool := decide (s.outq.length = s.cfg.fifoDepth)

/-- EMPTY: INQ holds no word (10_state R36). -/
def State.inqEmpty (s : State) : Bool := decide (s.inq.length = 0)

/-- What a read of MBOX_STATUS returns: STATUS[31], STATUS[30] and the draw STATUS[29:0] (10_state R36). -/
structure StatusRead where
  full  : Bool
  empty : Bool
  low   : BitVec 30
  deriving DecidableEq, Repr

/-- The status word (30_encoding R109). -/
def StatusRead.word (r : StatusRead) : Word := BitVec.ofBool r.full ++ (BitVec.ofBool r.empty ++ r.low)

/-- What a status read returns in this state: FULL and EMPTY are exact functions of the queues, and the other bits are the
next draw (43_mailbox_registers R219). -/
def State.status (s : State) : StatusRead := ⟨s.outqFull, s.inqEmpty, Config.statusLowBits s.draws⟩

/-- The response bit of a tag's code word, bit 31 (30_encoding R106; D16). -/
def responseBit (c : Word) : Bool := c.getLsbD 31

/-- The four PHASE values inside CALL (10_state R24; 41_call R173). -/
def Phase.inCall : Phase → Bool
  | .submitPoll => true
  | .submitWrite => true
  | .corrPoll => true
  | .corrRead => true
  | .none => false
  | .build => false
  | .doneOk => false
  | .doneErr => false

/-- The engine is running a command: CALL, or a recipe. HOST and IRQ have no step then (41_call R173; 44_lock R249). -/
def State.busy (s : State) : Bool := s.phase.inCall || s.recipe.isSome

/-- GUARD[k] is live and the running code path acquired it (44_lock R242, R249). -/
def State.holdsGuard (s : State) (k : Nat) : Bool :=
  match s.locks[k]? with
  | some l => l.live && decide (l.holder = s.running)
  | none => false

/-- The running code path holds the guard that has covered the request since its NEW_BUFFER (44_lock R249; log 34). -/
def State.holdsRequest (s : State) : Bool := s.holdsGuard 0 && s.unbroken

/-- Some guard is live (44_lock R247). -/
def State.anyGuardLive (s : State) : Bool := s.locks.any fun l => l.live

end Sys2Proof.Machine
end

