-- ==== Sys2Proof/Machine/Ops.lean ====
section
/-! DEFINITION. The named operations over the state: field updates, the buffer, ending a command, admission, the
poll bound, the queues, and FW_PENDING. -/

namespace Sys2Proof.Machine

/-! ### Field updates: one field written, every other kept -/

def State.setMem (s : State) (v : Memory) : State := { s with mem := v }
def State.setPhase (s : State) (v : Phase) : State := { s with phase := v }
def State.setSub (s : State) (v : Word) : State := { s with sub := v }
def State.setResp (s : State) (v : Word) : State := { s with resp := v }
def State.setResult (s : State) (v : Result) : State := { s with result := v }
def State.setValue64 (s : State) (v : BitVec 64) : State := { s with value64 := v }
def State.setPolls (s : State) (v : Nat) : State := { s with polls := v }
def State.setLocks (s : State) (v : List LockCell) : State := { s with locks := v }
def State.setUnbroken (s : State) (v : Bool) : State := { s with unbroken := v }
def State.setIe (s : State) (v : Bool) : State := { s with ie := v }
def State.setBaseValid (s : State) (v : Bool) : State := { s with baseValid := v }
def State.setStartup (s : State) (v : Option Kind) : State := { s with startup := v }
def State.setOutq (s : State) (v : List Word) : State := { s with outq := v }
def State.setInq (s : State) (v : List Word) : State := { s with inq := v }
def State.setFwPending (s : State) (v : List Word) : State := { s with fwPending := v }
def State.setRunning (s : State) (v : Agent) : State := { s with running := v }
def State.setRecipe (s : State) (v : Option RecipeRun) : State := { s with recipe := v }
def State.setReadData (s : State) (v : Word) : State := { s with readData := v }
def State.setDraws (s : State) (v : Nat) : State := { s with draws := v }
def State.setAgenda (s : State) (v : List Input) : State := { s with agenda := v }

/-! ### The buffer (20_memory R60 to R73) -/

/-- The address of BUF[i] (20_memory R62). -/
def State.wordAddr (s : State) (i : Nat) : Nat := s.cfg.bufAddr.toNat + 4 * i

/-- BUF[i]; none where nothing has been written (20_memory R63). -/
def State.buf (s : State) (i : Nat) : Option Word := s.mem.readWord (s.wordAddr i)

/-- BUF[i], BUF[i+1], … <- ws (20_memory R63). -/
def State.writeBuf (s : State) (i : Nat) (ws : List Word) : State := s.setMem (s.mem.writeWords (s.wordAddr i) ws)

/-- Reads BUF[i] for the rest of a command. -/
def withWord (s : State) (i : Nat) (k : Word → Out) : Out :=
  match s.buf i with
  | some v => k v
  | none => .fault .unwrittenMemory

/-- The first of the `n` buffer words from index `i` on that holds `w`. -/
def State.findWord (s : State) (w : Word) (i n : Nat) : Option Nat :=
  (List.range' i n).find? fun j => s.buf j = some w

/-! ### Ending a command (00_scope R15; 60_exceptions R262) -/

/-- `raise K(info)`: RESULT <- (K, info), and nothing else. This is what stands here where other hardware takes an
exception: nothing is saved, nothing vectors, no mode changes (60_exceptions R262, R277). -/
def State.raise (s : State) (k : Kind) (info : Word) : State := s.setResult ⟨k, info⟩

/-- `return v`: RESULT <- (Ok, v). -/
def State.ret (s : State) (v : Word) : State := s.setResult ⟨.ok, v⟩

/-- A step taken for the result it ends a command with: only when it ends with exactly (K, INFO) (log 17). -/
def endingWith (k : Kind) (info : Word) (o : Out) : Out :=
  match o with
  | .next t => if t.phase.inCall = false ∧ t.result = ⟨k, info⟩ then .next t else .refused .wordNotPresent
  | .fault f => .fault f
  | .refused r => .refused r

/-- The next operation of the same step, on the state the first leaves. -/
def andThen (o : Out) (k : State → Out) : Out :=
  match o with
  | .next t => k t
  | .fault f => .fault f
  | .refused r => .refused r

/-! ### Admission (60_exceptions R276; log 27) -/

/-- HOST and IRQ have no step while the engine runs a command (41_call R173). -/
def hostTurn (s : State) (k : Out) : Out := if s.busy then .refused .hostWaits else k

/-- Checks 2 and 3 of 60_exceptions R276: the issuer holds GUARD[0] (44_lock R249), and PHASE admits the command
(10_state R25). -/
def admitted (phases : List Phase) (s : State) (k : Out) : Out :=
  if s.holdsGuard 0 then if s.phase ∈ phases then k else .refused .phaseNotAdmitted
  else .refused .guardNotHeld

/-- The admission of a command of a request in progress, every one but NEW_BUFFER: one guard covers the whole request, and a
command after that guard was released is refused (44_lock R249; 70_reset_and_hazards R320; log 34). -/
def admittedInRequest (phases : List Phase) (s : State) (k : Out) : Out :=
  admitted phases s (if s.unbroken then k else .refused .requestBroken)

/-- Every access to the registers is made through the Register Address unit (00_scope R4), which is fatal while the base is
unresolved (60_exceptions R271). -/
def throughRa (s : State) (k : Out) : Out := if s.baseValid then k else .fault .baseNotResolved

/-- A phase-step exists in its own PHASE only (41_call R176; log 19). -/
def inStep (p : Phase) (s : State) (k : Out) : Out := if s.phase = p then k else .refused .noSuchStep

/-! ### The poll bound (41_call R175) -/

/-- poll_failed() in the loop that goes on in PHASE `p`: with POLL_LIMIT = none the loop goes on; with POLL_LIMIT = n the
failure is counted and the n-th ends CALL with Timeout, INFO 1 when a request is outstanding. -/
def pollFailed (p : Phase) (s : State) : State :=
  match s.cfg.pollLimit with
  | none => s.setPhase p
  | some n =>
    if n ≤ s.polls + 1 then
      ((s.setPolls (s.polls + 1)).setPhase .doneErr).raise .timeout
        (if s.phase = .corrPoll ∨ s.phase = .corrRead then 1#32 else 0#32)
    else (s.setPolls (s.polls + 1)).setPhase p

/-! ### The mailbox device (43_mailbox_registers R215, R219, R221) -/

/-- MmioRead of MBOX_RW: takes the head of INQ (R215). -/
def takeInbound (s : State) (k : Word → State → Out) : Out :=
  match s.inq with
  | [] => .fault .inqEmpty
  | w :: q => k w (s.setInq q)

/-- MmioWrite of MBOX_WRITE: appends to OUTQ (R221). -/
def appendOutbound (v : Word) (s : State) : Out :=
  if s.outqFull then .fault .outqFull else .next (s.setOutq (s.outq ++ [v]))

/-- The state after a read of MBOX_STATUS: the device is unchanged (R219), and the next read draws anew (log 6). -/
def State.statusDrawn (s : State) : State := s.setDraws (s.draws + 1)

/-! ### FW_PENDING (10_state R39), a multiset as an ascending list (log 20) -/

/-- Adds one word. -/
def insertWord (w : Word) : List Word → List Word
  | [] => [w]
  | v :: vs => if w.toNat ≤ v.toNat then w :: v :: vs else v :: insertWord w vs

/-- Removes one occurrence of a word. -/
def removeWord (w : Word) : List Word → List Word
  | [] => []
  | v :: vs => if v = w then vs else v :: removeWord w vs

end Sys2Proof.Machine
end

