-- ==== Sys2Proof/Machine/Build.lean ====
section
/-! DEFINITION. Building the message: NEW_BUFFER and WRITE_TAG (40_buffer_build). -/

namespace Sys2Proof.Machine

/-- The PHASE values that admitted NEW_BUFFER (10_state R25). -/
def newBufferPhases : List Phase := [.none, .build, .doneOk, .doneErr]

/-- NEW_BUFFER without its admission: every word zero, then SIZE = 8 (40_buffer_build R140). A request begins here, under
the guard that is live (44_lock R249). -/
def newBuffer (s : State) : State :=
  ((((s.writeBuf 0 (List.replicate Config.bufWords 0#32)).writeBuf 0 [BitVec.ofNat 32 Config.headerBytes]).setPhase
    .build).setUnbroken true).ret 0#32

/-- NEW_BUFFER with its admission. -/
def cmdNewBuffer (s : State) : Out := admitted newBufferPhases s (.next (newBuffer s))

/-- How FindEnd ends: at the index of the terminator, with none inside the buffer, or at a byte nothing has written. -/
inductive ScanEnd where
  | found (p : Nat)
  | noTerminator
  | unwritten
  deriving DecidableEq, Repr

/-- FindEnd with SCAN_MODE = tag_walk, from index p (40_buffer_build R143). A step of the walk adds at least 3 to p, so 36
of them are more than enough. -/
def walkTags (s : State) : Nat → Nat → ScanEnd
  | 0, _ => .noTerminator
  | fuel + 1, p =>
    if Config.bufWords ≤ p then .noTerminator
    else match s.buf p with
      | none => .unwritten
      | some id =>
        if id = 0#32 then .found p
        else if Config.bufWords ≤ p + 1 then .noTerminator
        else match s.buf (p + 1) with
          | none => .unwritten
          | some size => walkTags s fuel (p + tagLength size)

/-- FindEnd with SCAN_MODE = word_scan, from index p (40_buffer_build R144). -/
def scanWords (s : State) : Nat → Nat → ScanEnd
  | 0, _ => .noTerminator
  | fuel + 1, p =>
    if Config.bufWords ≤ p then .noTerminator
    else match s.buf p with
      | none => .unwritten
      | some w => if w = 0#32 then .found p else scanWords s fuel (p + 1)

/-- FindEnd() (40_buffer_build R142 to R144). -/
def findEnd (s : State) : ScanEnd :=
  match s.cfg.scanMode with
  | .tagWalk => walkTags s Config.bufWords Config.firstTag
  | .wordScan => scanWords s Config.bufWords Config.firstTag

/-- The capacity check `p + n + TERM_RESERVE > 36` (40_buffer_build R145). -/
def tagTooLong (s : State) (p n : Nat) : Bool := decide (Config.bufWords < p + n + s.cfg.termReserve.val)

/-- The state after the tag list is copied to index p and SIZE, read as `size`, is updated modulo 2^32 (40_buffer_build
R146, R147). -/
def copyTag (s : State) (p : Nat) (ws : List Word) (size : Word) : State :=
  ((s.writeBuf p ws).writeBuf 0 [size + BitVec.ofNat 32 (4 * ws.length)]).ret (BitVec.ofNat 32 p)

/-- WRITE_TAG without its admission (40_buffer_build R142). -/
def writeTag (ws : List Word) (s : State) : Out :=
  match findEnd s with
  | .unwritten => .fault .unwrittenMemory
  | .noTerminator => .next (s.raise .bufferFull (BitVec.ofNat 32 Config.bufWords))
  | .found p =>
    if tagTooLong s p ws.length then .next (s.raise .bufferFull (BitVec.ofNat 32 p))
    else withWord s 0 fun size => .next (copyTag s p ws size)

/-- WRITE_TAG with its admission. -/
def cmdWriteTag (ws : List Word) (s : State) : Out := admittedInRequest [.build] s (writeTag ws s)

/-- NEW_BUFFER (40_buffer_build R140). -/
def execNewBuffer (s : State) : Out := hostTurn s (cmdNewBuffer s)

/-- WRITE_TAG n, w[0] .. w[n-1] (40_buffer_build R142). -/
def execWriteTag (ws : List Word) (s : State) : Out := hostTurn s (cmdWriteTag ws s)

end Sys2Proof.Machine
end

