-- ==== Sys2Proof/Machine/Call.lean ====
section
/-! DEFINITION. The call: CALL and the phase-steps of submit, correlate and classify (41_call). -/

namespace Sys2Proof.Machine

/-- The acceptance step of CALL (41_call R160). -/
def acceptCall (s : State) : State := (s.setPolls 0).setPhase .submitPoll

/-- CALL with its admission (10_state R25). -/
def cmdCall (s : State) : Out := admittedInRequest [.build] s (.next (acceptCall s))

/-- classify(): inspects BUF[1] and ends the command (41_call R170). -/
def classify (s : State) : Out :=
  withWord s 1 fun c =>
    if c = Config.codeResponse then .next ((s.setPhase .doneOk).ret c)
    else if c = Config.codeResponseError then .next ((s.setPhase .doneErr).raise .firmwareRejected c)
    else if c = Config.codeRequest then .next ((s.setPhase .doneErr).raise .noResponse c)
    else .next ((s.setPhase .doneErr).raise .unknownResponseStatus c)

/-- Phase-step SUBMIT_POLL: one read of MBOX_STATUS, of which only bit 31 is examined (41_call R163). -/
def submitPollStep (s : State) : Out :=
  inStep .submitPoll s <| throughRa s <|
    .next (if s.status.full then pollFailed .submitPoll s.statusDrawn else s.statusDrawn.setPhase .submitWrite)

/-- Phase-step SUBMIT_WRITE: the one write of SUB to MBOX_WRITE (41_call R164). -/
def submitWriteStep (s : State) : Out :=
  inStep .submitWrite s <| throughRa s <|
    andThen (appendOutbound (submissionWord s.cfg.bufAddr) (s.setSub (submissionWord s.cfg.bufAddr))) fun t =>
      .next ((t.setPolls 0).setPhase .corrPoll)

/-- Phase-step CORR_POLL: one read of MBOX_STATUS, of which only bit 30 is examined (41_call R165). -/
def corrPollStep (s : State) : Out :=
  inStep .corrPoll s <| throughRa s <|
    .next (if s.status.empty then pollFailed .corrPoll s.statusDrawn else s.statusDrawn.setPhase .corrRead)

/-- Phase-step CORR_READ: one read of MBOX_RW; a word that matches is classified in the same step, any other is dropped
(41_call R166, R169). -/
def corrReadStep (s : State) : Out :=
  inStep .corrRead s <| throughRa s <| takeInbound s fun w t =>
    if responseMatches w s.sub then classify (t.setResp w) else .next (pollFailed .corrPoll (t.setResp w))

/-- The step of CALL that PHASE names, of those that can end it (41_call R163, R165, R166, R175). -/
def callStep (s : State) : Out :=
  match s.phase with
  | .submitPoll => submitPollStep s
  | .corrPoll => corrPollStep s
  | .corrRead => corrReadStep s
  | .submitWrite => .refused .noSuchStep
  | .none => .refused .noSuchStep
  | .build => .refused .noSuchStep
  | .doneOk => .refused .noSuchStep
  | .doneErr => .refused .noSuchStep

/-- CALL (41_call R160). -/
def execCall (s : State) : Out := hostTurn s (cmdCall s)

/-- STEP_SUBMIT_POLL (41_call R163). -/
def execStepSubmitPoll (s : State) : Out := submitPollStep s

/-- STEP_SUBMIT_WRITE (41_call R164). -/
def execStepSubmitWrite (s : State) : Out := submitWriteStep s

/-- STEP_CORR_POLL (41_call R165). -/
def execStepCorrPoll (s : State) : Out := corrPollStep s

/-- STEP_CORR_READ (41_call R166). -/
def execStepCorrRead (s : State) : Out := corrReadStep s

end Sys2Proof.Machine
end

