-- ==== Sys2Proof/Machine/Device.lean ====
section
/-! DEFINITION. The device side: firmware and foreign traffic (43_mailbox_registers R226 to R231). -/

namespace Sys2Proof.Machine

/-- FW_POP (43_mailbox_registers R226). -/
def execFwPop (s : State) : Out :=
  match s.outq with
  | [] => .refused .stepNotEnabled
  | w :: q => .next ((s.setOutq q).setFwPending (insertWord w s.fwPending))

/-- A request word that designates this engine's buffer (43_mailbox_registers R227). -/
def designatesBuffer (c : Params) (w : Word) : Bool :=
  wordChannel w = Config.propertyChannel && wordBuffer w = c.bufAddr

/-- FW_PROCESS w, f (43_mailbox_registers R228). The firmware may leave any words in the buffer: f is the 36 it leaves, a
word left alone being given as it is (log 7). -/
def execFwProcess (w : Word) (f : List Word) (s : State) : Out :=
  if w ∈ s.fwPending ∧ designatesBuffer s.cfg w ∧ f.length = Config.bufWords then .next (s.writeBuf 0 f)
  else .refused .stepNotEnabled

/-- FW_PUSH w (43_mailbox_registers R229). -/
def execFwPush (w : Word) (s : State) : Out :=
  if w ∈ s.fwPending ∧ s.inq.length < s.cfg.fifoDepth then
    .next ((s.setFwPending (removeWord w s.fwPending)).setInq (s.inq ++ [w]))
  else .refused .stepNotEnabled

/-- FOREIGN_PUSH x (43_mailbox_registers R231). -/
def execForeignPush (x : Word) (s : State) : Out :=
  if s.inq.length < s.cfg.fifoDepth ∧ x ≠ submissionWord s.cfg.bufAddr then .next (s.setInq (s.inq ++ [x]))
  else .refused .stepNotEnabled

end Sys2Proof.Machine
end

