-- ==== Sys2Proof/Machine/Lock.lean ====
section
/-! DEFINITION. The Interrupt-Masking Lock: TRY_ACQUIRE and RELEASE (44_lock R241, R242). -/

namespace Sys2Proof.Machine

/-- The state after a successful TRY_ACQUIRE k (44_lock R241). -/
def acquire (k : Nat) (s : State) : State :=
  ((s.setLocks (s.locks.set k ⟨.locked, true, s.ie, s.running⟩)).setIe false).ret (BitVec.ofNat 32 k)

/-- The state after RELEASE k of a lock whose cell is `l`: the flag first, then the saved interrupt enable (44_lock
R242; log 29). The release of lock 0 ends the cover of the request in the buffer (R249; log 34). -/
def giveBack (k : Nat) (l : LockCell) (s : State) : State :=
  (((s.setLocks (s.locks.set k { l with flag := .unlocked, live := false })).setIe l.savedIe).setUnbroken
    (s.unbroken && decide (k ≠ 0))).ret 0#32

/-- An attempt on lock instance k (44_lock R241). A failing attempt clears IE and restores it in the same atomic step, so it
leaves IE as it found it. -/
def tryAcquire (k : Nat) (s : State) : Out :=
  match s.locks[k]? with
  | none => .refused .operandOutOfRange
  | some l =>
    match l.flag with
    | .unlocked => .next (acquire k s)
    | .locked => .next (s.raise .lockContention (BitVec.ofNat 32 k))

/-- TRY_ACQUIRE k (44_lock R241). -/
def execTryAcquire (k : BitVec 8) (s : State) : Out := hostTurn s (tryAcquire k.toNat s)

/-- RELEASE k, by the holder of a live guard (44_lock R242; U16). -/
def execRelease (k : BitVec 8) (s : State) : Out :=
  hostTurn s <|
    match s.locks[k.toNat]? with
    | none => .refused .operandOutOfRange
    | some l => if s.holdsGuard k.toNat then .next (giveBack k.toNat l s) else .refused .noLiveGuard

end Sys2Proof.Machine
end

