-- ==== Sys2Proof/Machine/Readback.lean ====
section
/-! DEFINITION. Reading results back: TAG_CHECK, READ_WORD, DISCARD (42_readback R190 to R193). -/

namespace Sys2Proof.Machine

/-- The test of a tag's response bit, for a tag at index t (42_readback R190). -/
def tagVerdict (t : Nat) (s : State) : Out :=
  if 2 ≤ t ∧ t ≤ 33 then
    withWord s (t + 2) fun c => .next (if responseBit c then s.ret c else s.raise .tagNotAnswered c)
  else .refused .operandOutOfRange

/-- TAG_CHECK with its admission (10_state R25). -/
def cmdTagCheck (t : Nat) (s : State) : Out := admittedInRequest [.doneOk, .doneErr] s (tagVerdict t s)

/-- READ_WORD without its admission (42_readback R191). -/
def readBufferWord (i : Nat) (s : State) : Out :=
  if i < Config.bufWords then withWord s i fun w => .next (s.ret w) else .refused .operandOutOfRange

/-- READ_WORD with its admission (10_state R25). -/
def cmdReadWord (i : Nat) (s : State) : Out :=
  admittedInRequest [.build, .doneOk, .doneErr] s (readBufferWord i s)

/-- DISCARD with its admission: PHASE <- NONE, the buffer words stay (42_readback R193). -/
def cmdDiscard (s : State) : Out :=
  admittedInRequest [.build, .doneOk, .doneErr] s (.next ((s.setPhase .none).ret 0#32))

/-- TAG_CHECK t (42_readback R190). -/
def execTagCheck (t : BitVec 8) (s : State) : Out := hostTurn s (cmdTagCheck t.toNat s)

/-- READ_WORD i (42_readback R191). -/
def execReadWord (i : BitVec 8) (s : State) : Out := hostTurn s (cmdReadWord i.toNat s)

/-- DISCARD (42_readback R193). -/
def execDiscard (s : State) : Out := hostTurn s (cmdDiscard s)

end Sys2Proof.Machine
end

