-- ==== Sys2Proof/Machine/Recipe.lean ====
section
/-! DEFINITION. The recipes, run as the sequence of their commands (30_encoding R126; 42_readback R194 to R196; log 14). -/

namespace Sys2Proof.Machine

/-- Issuing a recipe runs the first command of its expansion, NEW_BUFFER, and leaves the rest to the engine. -/
def startRecipe (k : RecipeKind) (s : State) : Out :=
  andThen (cmdNewBuffer s) fun t => .next (t.setRecipe (some ⟨k, .writeTag, 0#32, 0#32⟩))

/-- A command of the expansion has ended: the next stage if it returned Ok, else the clean-up with its RESULT (42_readback
R194). -/
def advanceRecipe (r : RecipeRun) (next : RecipeStage) (t : State) : State :=
  t.setRecipe (some { r with stage := if t.result.kind = .ok then next else .cleanup t.result })

/-- The end of a recipe that succeeded: RESULT = (Ok, low), and VALUE64 for the board serial (42_readback R195, R196). -/
def finishRecipe (r : RecipeRun) (t : State) : State :=
  match r.kind with
  | .firmwareRevision => (t.setRecipe none).ret r.low
  | .boardSerial => ((t.setRecipe none).setValue64 (serial64 r.high r.low)).ret r.low

/-- The end of a recipe one of whose commands did not return Ok: DISCARD, and that command's RESULT (42_readback R194). -/
def abandonRecipe (res : Result) (s : State) : Out :=
  andThen (cmdDiscard s) fun t => .next ((t.setRecipe none).setResult res)

/-- The engine's next step in a recipe, outside CALL's phase-steps (30_encoding R126). -/
def recipeStep (r : RecipeRun) (s : State) : Out :=
  match r.stage with
  | .writeTag => andThen (cmdWriteTag (recipeTag r.kind) s) fun t => .next (advanceRecipe r .call t)
  | .call => andThen (cmdCall s) fun t => .next (t.setRecipe (some { r with stage := .checkTag }))
  | .checkTag =>
    if s.phase = .doneErr then abandonRecipe s.result s
    else andThen (cmdTagCheck 2 s) fun t => .next (advanceRecipe r .readLow t)
  | .readLow =>
    andThen (cmdReadWord 5 s) fun t =>
      .next (t.setRecipe (some { r with stage := afterReadLow r.kind, low := t.result.info }))
  | .readHigh =>
    andThen (cmdReadWord 6 s) fun t => .next (t.setRecipe (some { r with stage := .discard, high := t.result.info }))
  | .discard => andThen (cmdDiscard s) fun t => .next (finishRecipe r t)
  | .cleanup res => abandonRecipe res s

/-- GET_FIRMWARE_REVISION (42_readback R195). -/
def execGetFirmwareRevision (s : State) : Out := hostTurn s (startRecipe .firmwareRevision s)

/-- GET_BOARD_SERIAL (42_readback R196). -/
def execGetBoardSerial (s : State) : Out := hostTurn s (startRecipe .boardSerial s)

end Sys2Proof.Machine
end

