-- ==== Sys2Proof/Machine/Registers.lean ====
section
/-! DEFINITION. The Register Address operations and the register accesses (43_mailbox_registers R210 to R223). -/

namespace Sys2Proof.Machine

/-- The address a natural-number sum gives: 2^32 and beyond is refused (43_mailbox_registers R210, R211; U21). -/
def returnAddress (a : Nat) (s : State) : Out :=
  if 2 ^ 32 ≤ a then .refused .addressOverflow else .next (s.ret (BitVec.ofNat 32 a))

/-- RA_NEW off (43_mailbox_registers R210). -/
def execRaNew (off : Word) (s : State) : Out :=
  hostTurn s <| throughRa s <| returnAddress (s.cfg.mmioBase.toNat + off.toNat) s

/-- RA_OFFSET a, n (43_mailbox_registers R211). Fatal with BASE_VALID = 0 like every Register Address operation (10_state
R34; U12; log 11). -/
def execRaOffset (a n : Word) (s : State) : Out := hostTurn s <| throughRa s <| returnAddress (a.toNat + n.toNat) s

/-- RA_READ a (43_mailbox_registers R212): one read of the register that a names; the value is the operation's result
(log 12). -/
def execRaRead (a : Word) (s : State) : Out :=
  hostTurn s <| throughRa s <|
    if a.toNat % 4 ≠ 0 then .refused .misalignedAddress
    else if regOffset s.cfg a = some 0x00 then takeInbound s fun w t => .next (t.ret w)
    else if regOffset s.cfg a = some 0x18 then .next (s.statusDrawn.ret s.status.word)
    else .refused .registerNotDescribed

/-- RA_WRITE a, v (43_mailbox_registers R213): one write of the register that a names. -/
def execRaWrite (a v : Word) (s : State) : Out :=
  hostTurn s <| throughRa s <|
    if a.toNat % 4 ≠ 0 then .refused .misalignedAddress
    else if regOffset s.cfg a = some 0x20 then appendOutbound v s
    else .refused .registerNotDescribed

/-- RD MBOX_RW (43_mailbox_registers R215). A bare access, whoever makes it, goes through the Register Address unit too
(00_scope R4); the word goes to readData (log 13). -/
def execRdMboxRw (s : State) : Out := throughRa s <| takeInbound s fun w t => .next (t.setReadData w)

/-- WR MBOX_RW: refuse (43_mailbox_registers R216; U5). -/
def execWrMboxRw (_v : Word) (_s : State) : Out := .refused .registerNotDescribed

/-- RD or WR MBOX_PEEK: refuse (43_mailbox_registers R217; U4). -/
def execRdwrMboxPeek (_acc : Access) (_s : State) : Out := .refused .registerNotDescribed

/-- RD or WR MBOX_SENDER: refuse (43_mailbox_registers R218; U4). -/
def execRdwrMboxSender (_acc : Access) (_s : State) : Out := .refused .registerNotDescribed

/-- RD MBOX_STATUS (43_mailbox_registers R219). A bare access, through the unit (00_scope R4); the word goes to readData
(log 13). -/
def execRdMboxStatus (s : State) : Out := throughRa s <| .next (s.statusDrawn.setReadData s.status.word)

/-- WR MBOX_STATUS: refuse (43_mailbox_registers R219; U5). -/
def execWrMboxStatus (_v : Word) (_s : State) : Out := .refused .registerNotDescribed

/-- RD or WR MBOX_CONFIG: refuse (43_mailbox_registers R220; U4). -/
def execRdwrMboxConfig (_acc : Access) (_s : State) : Out := .refused .registerNotDescribed

/-- WR MBOX_WRITE v (43_mailbox_registers R221). A bare access, through the unit (00_scope R4). -/
def execWrMboxWrite (v : Word) (s : State) : Out := throughRa s <| appendOutbound v s

/-- RD MBOX_WRITE: refuse (43_mailbox_registers R222; U5). -/
def execRdMboxWrite (_s : State) : Out := .refused .registerNotDescribed

/-- Any other offset: refuse (43_mailbox_registers R223; U5). -/
def execRegOtherOffset (_off : BitVec 8) (_acc : Access) (_s : State) : Out := .refused .registerNotDescribed

end Sys2Proof.Machine
end

