-- ==== Sys2Proof/Machine/Startup.lean ====
section
/-! DEFINITION. The CPU-model detection (70_reset_and_hazards R303; 60_exceptions R270), and the steps of the world that no
row of the opcode table names: resolving the MMIO base, an interrupt handler beginning and ending (60_exceptions R275), and
the host writing its interrupt enable (10_state R30). -/

namespace Sys2Proof.Machine

/-- The CPU-model detection ends once: with the base resolved, or with a failure after which nothing can proceed
(70_reset_and_hazards R303; 60_exceptions R270). -/
def detection (s : State) (k : Out) : Out :=
  if s.baseValid then .refused .baseAlreadyResolved
  else if s.startup.isSome then .refused .detectionFailed
  else k

/-- BASE_VALID <- 1, once (70_reset_and_hazards R303; 10_state R34; log 28). -/
def resolveBase (s : State) : Out := detection s (.next (s.setBaseValid true))

/-- A handler begins: between two HOST commands, only with IE = 1 and no guard live, and IE <- 0 (60_exceptions R275; log
23, log 29). -/
def irqEnter (s : State) : Out :=
  hostTurn s <|
    if s.running = .host ∧ s.ie = true ∧ s.anyGuardLive = false then .next ((s.setRunning .irq).setIe false)
    else .refused .interruptNotDeliverable

/-- A handler ends: IE <- 1, whatever guards are live (60_exceptions R275; log 9). -/
def irqExit (s : State) : Out :=
  hostTurn s <|
    if s.running = .irq then .next ((s.setRunning .host).setIe true)
    else .refused .interruptNotDeliverable

/-- The host writes IE itself (10_state R30). Enabling interrupts inside a critical section is left out (90_conflicts C7;
log 10). -/
def hostSetIe (b : Bool) (s : State) : Out :=
  hostTurn s <|
    if s.running = .host ∧ (b = false ∨ s.anyGuardLive = false) then .next (s.setIe b)
    else .refused .interruptEnableNotAdmitted

end Sys2Proof.Machine
end

