-- ==== Sys2Proof/Machine/Wire.lean ====
section
/-! DEFINITION. The wire-format rows of the opcode table (30_encoding R101 to R111, 60_exceptions R261). The spec counts the
wire formats in the instruction set (00_scope R2); the meaning of a word of one is the machine's own step at which the word
is produced or consumed, taken when the word is the one present (log 15, 16, 17). -/

namespace Sys2Proof.Machine

/-! ### Reserved command words (30_encoding R123) -/

/-- OP = 0: refuse. -/
def execReservedOp0 (_cw : Word) (_s : State) : Out := .refused .reservedCommand

/-- OP = 7: refuse. -/
def execReservedOp7 (_cw : Word) (_s : State) : Out := .refused .reservedCommand

/-- OP = 0xC to 0xF: refuse. -/
def execReservedOpCToF (_cw : Word) (_s : State) : Out := .refused .reservedCommand

/-! ### The whole-buffer code word: the rows of 41_call R176 for a matching read -/

/-- The CORR_READ step whose word matches and at which BUF[1] holds c. -/
def codeStep (c : Word) (s : State) : Out :=
  inStep .corrRead s <| throughRa s <| takeInbound s fun w _ =>
    if responseMatches w s.sub = true ∧ s.buf 1 = some c then corrReadStep s else .refused .wordNotPresent

/-- CODE_REQUEST: NoResponse (41_call R170, R171). -/
def execCodeRequest (s : State) : Out := codeStep Config.codeRequest s

/-- CODE_RESPONSE: success (41_call R170, R171). -/
def execCodeResponse (s : State) : Out := codeStep Config.codeResponse s

/-- CODE_RESPONSE_ERROR: FirmwareRejected (41_call R170, R171). -/
def execCodeResponseError (s : State) : Out := codeStep Config.codeResponseError s

/-- CODE_UNKNOWN: UnknownResponseStatus, for a word that is none of the named ones (41_call R170, R171). -/
def execCodeUnknown (c : Word) (s : State) : Out :=
  if c = Config.codeRequest ∨ c = Config.codeResponse ∨ c = Config.codeResponseError then .refused .wordNotPresent
  else codeStep c s

/-! ### A tag's code word, the status word, the submission word -/

/-- TAG_RESPONSE_BIT: bit 31 set is answered, clear is TagNotAnswered (30_encoding R106; 42_readback R190). -/
def execTagResponseBit (t : BitVec 8) (s : State) : Out := hostTurn s (cmdTagCheck t.toNat s)

/-- STATUS_FULL: the SUBMIT_POLL that reads bit 31 set (30_encoding R109; 41_call R163). -/
def execStatusFull (s : State) : Out :=
  inStep .submitPoll s <| throughRa s <| if s.status.full then submitPollStep s else .refused .wordNotPresent

/-- STATUS_EMPTY: the CORR_POLL that reads bit 30 set (30_encoding R109; 41_call R165). -/
def execStatusEmpty (s : State) : Out :=
  inStep .corrPoll s <| throughRa s <| if s.status.empty then corrPollStep s else .refused .wordNotPresent

/-- SUBMISSION_WORD_CH8: the SUBMIT_WRITE of the word with this pointer field (30_encoding R107; 41_call R164). -/
def execSubmissionWordCh8 (ptr : BitVec 28) (s : State) : Out :=
  inStep .submitWrite s <| throughRa s <|
    if ptr = wordPointer s.cfg.bufAddr then submitWriteStep s else .refused .wordNotPresent

/-! ### Channels: the CORR_READ step of a word on that channel (30_encoding R108, R110; 41_call R166) -/

/-- The CORR_READ step whose word carries channel ch. -/
def channelStep (ch : BitVec 4) (s : State) : Out :=
  inStep .corrRead s <| throughRa s <| takeInbound s fun w _ =>
    if wordChannel w = ch then corrReadStep s else .refused .wordNotPresent

/-- CHANNEL_0, power management. -/
def execChannel0 (s : State) : Out := channelStep 0#4 s

/-- CHANNEL_1, framebuffer. -/
def execChannel1 (s : State) : Out := channelStep 1#4 s

/-- CHANNEL_2, virtual UART. -/
def execChannel2 (s : State) : Out := channelStep 2#4 s

/-- CHANNEL_3, VCHIQ. -/
def execChannel3 (s : State) : Out := channelStep 3#4 s

/-- CHANNEL_4, LED. -/
def execChannel4 (s : State) : Out := channelStep 4#4 s

/-- CHANNEL_5, button. -/
def execChannel5 (s : State) : Out := channelStep 5#4 s

/-- CHANNEL_6, touchscreen. -/
def execChannel6 (s : State) : Out := channelStep 6#4 s

/-- CHANNEL_7, count. -/
def execChannel7 (s : State) : Out := channelStep 7#4 s

/-- CHANNEL_8, property tags. -/
def execChannel8 (s : State) : Out := channelStep 8#4 s

/-- CHANNEL_RESERVED: values 9 to 15, in a response word a non-matching channel (30_encoding R123; U6). -/
def execChannelReserved (ch : BitVec 4) (s : State) : Out :=
  if ch.toNat < 9 then .refused .wordNotPresent else channelStep ch s

/-! ### Tag identifiers: WRITE_TAG of a list that begins with one (30_encoding R104, R111, R112, R124) -/

/-- WRITE_TAG of a tag_id and the words after it. The engine does not interpret the identifier (30_encoding R111). -/
def tagIdStep (id : Word) (rest : List Word) (s : State) : Out := hostTurn s (cmdWriteTag (id :: rest) s)

/-- TERMINATOR: a list whose first word is 0 is copied like any other and ends the tag list where it starts (30_encoding
R123; 40_buffer_build R150 case 9). -/
def execTerminator (rest : List Word) (s : State) : Out := tagIdStep 0#32 rest s

/-- tag_id 0x1, firmware revision. -/
def execTag1 (rest : List Word) (s : State) : Out := tagIdStep 0x1#32 rest s

/-- tag_id 0x10001, board model. -/
def execTag10001 (rest : List Word) (s : State) : Out := tagIdStep 0x10001#32 rest s

/-- tag_id 0x10004, board serial. -/
def execTag10004 (rest : List Word) (s : State) : Out := tagIdStep 0x10004#32 rest s

/-- tag_id 0x10005, ARM memory. -/
def execTag10005 (rest : List Word) (s : State) : Out := tagIdStep 0x10005#32 rest s

/-- tag_id 0x30002, clock rate get. -/
def execTag30002 (rest : List Word) (s : State) : Out := tagIdStep 0x30002#32 rest s

/-- tag_id 0x38002, clock rate set. -/
def execTag38002 (rest : List Word) (s : State) : Out := tagIdStep 0x38002#32 rest s

/-- tag_id 0x40001, framebuffer allocate. -/
def execTag40001 (rest : List Word) (s : State) : Out := tagIdStep 0x40001#32 rest s

/-- tag_id 0x40003, physical size get. -/
def execTag40003 (rest : List Word) (s : State) : Out := tagIdStep 0x40003#32 rest s

/-- tag_id 0x40004, virtual size get. -/
def execTag40004 (rest : List Word) (s : State) : Out := tagIdStep 0x40004#32 rest s

/-- tag_id 0x44003, physical size test. -/
def execTag44003 (rest : List Word) (s : State) : Out := tagIdStep 0x44003#32 rest s

/-- tag_id 0x44004, virtual size test. -/
def execTag44004 (rest : List Word) (s : State) : Out := tagIdStep 0x44004#32 rest s

/-- tag_id 0x48003, physical size set. -/
def execTag48003 (rest : List Word) (s : State) : Out := tagIdStep 0x48003#32 rest s

/-- tag_id 0x48004, virtual size set. -/
def execTag48004 (rest : List Word) (s : State) : Out := tagIdStep 0x48004#32 rest s

/-- tag_id 0x40005, depth get. -/
def execTag40005 (rest : List Word) (s : State) : Out := tagIdStep 0x40005#32 rest s

/-- tag_id 0x48005, depth set. -/
def execTag48005 (rest : List Word) (s : State) : Out := tagIdStep 0x48005#32 rest s

/-- tag_id 0x40006, pixel order get. -/
def execTag40006 (rest : List Word) (s : State) : Out := tagIdStep 0x40006#32 rest s

/-- tag_id 0x48006, pixel order set. -/
def execTag48006 (rest : List Word) (s : State) : Out := tagIdStep 0x48006#32 rest s

/-! ### Result kinds: the step of the command that raises one, where it ends with exactly that kind and INFO
(60_exceptions R260, R261; log 17) -/

/-- KIND_Ok: inside CALL its successful end, else the READ_WORD of the first buffer word that is INFO (60_exceptions R261;
42_readback R191). -/
def execKindOk (info : Word) (s : State) : Out :=
  if s.phase.inCall then endingWith .ok info (callStep s)
  else hostTurn s <|
    match s.findWord info 0 Config.bufWords with
    | some i => endingWith .ok info (cmdReadWord i s)
    | none => .refused .wordNotPresent

/-- KIND_LockContention: the TRY_ACQUIRE of the instance INFO names, when it is Locked (60_exceptions R268). The operand of
TRY_ACQUIRE has 8 bits (30_encoding R121). -/
def execKindLockContention (info : Word) (s : State) : Out :=
  hostTurn s <|
    if 256 ≤ info.toNat then .refused .operandOutOfRange
    else endingWith .lockContention info (tryAcquire info.toNat s)

/-- KIND_BufferFull: the WRITE_TAG of a list no buffer has room for, the longest a command word can carry, which raises it
with INFO = p, or 36 (60_exceptions R263; 30_encoding R121). -/
def execKindBufferFull (info : Word) (s : State) : Out :=
  hostTurn s <| endingWith .bufferFull info (cmdWriteTag (List.replicate 255 0#32) s)

/-- KIND_FirmwareRejected: the end of CALL that classifies ResponseError (60_exceptions R264). -/
def execKindFirmwareRejected (info : Word) (s : State) : Out := endingWith .firmwareRejected info (callStep s)

/-- KIND_UnknownResponseStatus: the end of CALL that classifies a code word none of the named ones (60_exceptions R265). -/
def execKindUnknownResponseStatus (info : Word) (s : State) : Out := endingWith .unknownResponseStatus info (callStep s)

/-- KIND_NoResponse: the end of CALL that classifies Request (60_exceptions R266). -/
def execKindNoResponse (info : Word) (s : State) : Out := endingWith .noResponse info (callStep s)

/-- KIND_TagNotAnswered: the TAG_CHECK of the first tag index whose code word is INFO, when its bit 31 is clear
(60_exceptions R267). -/
def execKindTagNotAnswered (info : Word) (s : State) : Out :=
  hostTurn s <|
    match s.findWord info 4 32 with
    | some c => endingWith .tagNotAnswered info (cmdTagCheck (c - 2) s)
    | none => .refused .wordNotPresent

/-- KIND_Timeout: the failed poll of CALL that spends POLL_LIMIT; it exists only in a configuration with POLL_LIMIT set
(60_exceptions R269). -/
def execKindTimeout (info : Word) (s : State) : Out :=
  if s.cfg.pollLimit = none then .refused .stepNotEnabled else endingWith .timeout info (callStep s)

/-- The CPU-model detection fails: BASE_VALID stays 0 for good, and RESULT, the engine's, is not written (60_exceptions
R270; log 24). -/
def detectionFails (k : Kind) (s : State) : Out := detection s (.next (s.setStartup (some k)))

/-- KIND_UnsupportedBoard, whose INFO word records nothing (60_exceptions R261, R270). -/
def execKindUnsupportedBoard (_info : Word) (s : State) : Out := detectionFails .unsupportedBoard s

/-- KIND_UnsupportedCpuModel, whose INFO word records nothing (60_exceptions R261, R270). -/
def execKindUnsupportedCpuModel (_info : Word) (s : State) : Out := detectionFails .unsupportedCpuModel s

/-- KIND_RESERVED: codes 10 to 15 are never produced (60_exceptions R261). -/
def execKindReserved (_code : BitVec 4) (_info : Word) (_s : State) : Out := .refused .reservedKind

end Sys2Proof.Machine
end

