-- ==== Sys2Proof/Machine/Dispatch.lean ====
section
/-! DEFINITION. One arm per constructor of Instr, each one call of its meaning. -/

namespace Sys2Proof.Machine

def exec (i : Instr) (s : State) : Host.Outcome State Fault Refusal :=
  match i with
  | .newBuffer => Sys2Proof.Machine.execNewBuffer s
  | .writeTag ws => Sys2Proof.Machine.execWriteTag ws s
  | .call => Sys2Proof.Machine.execCall s
  | .tagCheck t => Sys2Proof.Machine.execTagCheck t s
  | .readWord n => Sys2Proof.Machine.execReadWord n s
  | .discard => Sys2Proof.Machine.execDiscard s
  | .tryAcquire k => Sys2Proof.Machine.execTryAcquire k s
  | .release k => Sys2Proof.Machine.execRelease k s
  | .getFirmwareRevision => Sys2Proof.Machine.execGetFirmwareRevision s
  | .getBoardSerial => Sys2Proof.Machine.execGetBoardSerial s
  | .reservedOp0 cw => Sys2Proof.Machine.execReservedOp0 cw s
  | .reservedOp7 cw => Sys2Proof.Machine.execReservedOp7 cw s
  | .reservedOpCToF cw => Sys2Proof.Machine.execReservedOpCToF cw s
  | .stepSubmitPoll => Sys2Proof.Machine.execStepSubmitPoll s
  | .stepSubmitWrite => Sys2Proof.Machine.execStepSubmitWrite s
  | .stepCorrPoll => Sys2Proof.Machine.execStepCorrPoll s
  | .stepCorrRead => Sys2Proof.Machine.execStepCorrRead s
  | .raNew off => Sys2Proof.Machine.execRaNew off s
  | .raOffset a n => Sys2Proof.Machine.execRaOffset a n s
  | .raRead a => Sys2Proof.Machine.execRaRead a s
  | .raWrite a v => Sys2Proof.Machine.execRaWrite a v s
  | .rdMboxRw => Sys2Proof.Machine.execRdMboxRw s
  | .wrMboxRw v => Sys2Proof.Machine.execWrMboxRw v s
  | .rdwrMboxPeek acc => Sys2Proof.Machine.execRdwrMboxPeek acc s
  | .rdwrMboxSender acc => Sys2Proof.Machine.execRdwrMboxSender acc s
  | .rdMboxStatus => Sys2Proof.Machine.execRdMboxStatus s
  | .wrMboxStatus v => Sys2Proof.Machine.execWrMboxStatus v s
  | .rdwrMboxConfig acc => Sys2Proof.Machine.execRdwrMboxConfig acc s
  | .wrMboxWrite v => Sys2Proof.Machine.execWrMboxWrite v s
  | .rdMboxWrite => Sys2Proof.Machine.execRdMboxWrite s
  | .regOtherOffset off acc => Sys2Proof.Machine.execRegOtherOffset off acc s
  | .fwPop => Sys2Proof.Machine.execFwPop s
  | .fwProcess w f => Sys2Proof.Machine.execFwProcess w f s
  | .fwPush w => Sys2Proof.Machine.execFwPush w s
  | .foreignPush x => Sys2Proof.Machine.execForeignPush x s
  | .codeRequest => Sys2Proof.Machine.execCodeRequest s
  | .codeResponse => Sys2Proof.Machine.execCodeResponse s
  | .codeResponseError => Sys2Proof.Machine.execCodeResponseError s
  | .codeUnknown c => Sys2Proof.Machine.execCodeUnknown c s
  | .tagResponseBit t => Sys2Proof.Machine.execTagResponseBit t s
  | .terminator rest => Sys2Proof.Machine.execTerminator rest s
  | .submissionWordCh8 ptr => Sys2Proof.Machine.execSubmissionWordCh8 ptr s
  | .statusFull => Sys2Proof.Machine.execStatusFull s
  | .statusEmpty => Sys2Proof.Machine.execStatusEmpty s
  | .channel0 => Sys2Proof.Machine.execChannel0 s
  | .channel1 => Sys2Proof.Machine.execChannel1 s
  | .channel2 => Sys2Proof.Machine.execChannel2 s
  | .channel3 => Sys2Proof.Machine.execChannel3 s
  | .channel4 => Sys2Proof.Machine.execChannel4 s
  | .channel5 => Sys2Proof.Machine.execChannel5 s
  | .channel6 => Sys2Proof.Machine.execChannel6 s
  | .channel7 => Sys2Proof.Machine.execChannel7 s
  | .channel8 => Sys2Proof.Machine.execChannel8 s
  | .channelReserved ch => Sys2Proof.Machine.execChannelReserved ch s
  | .tag1 rest => Sys2Proof.Machine.execTag1 rest s
  | .tag10001 rest => Sys2Proof.Machine.execTag10001 rest s
  | .tag10004 rest => Sys2Proof.Machine.execTag10004 rest s
  | .tag10005 rest => Sys2Proof.Machine.execTag10005 rest s
  | .tag30002 rest => Sys2Proof.Machine.execTag30002 rest s
  | .tag38002 rest => Sys2Proof.Machine.execTag38002 rest s
  | .tag40001 rest => Sys2Proof.Machine.execTag40001 rest s
  | .tag40003 rest => Sys2Proof.Machine.execTag40003 rest s
  | .tag40004 rest => Sys2Proof.Machine.execTag40004 rest s
  | .tag44003 rest => Sys2Proof.Machine.execTag44003 rest s
  | .tag44004 rest => Sys2Proof.Machine.execTag44004 rest s
  | .tag48003 rest => Sys2Proof.Machine.execTag48003 rest s
  | .tag48004 rest => Sys2Proof.Machine.execTag48004 rest s
  | .tag40005 rest => Sys2Proof.Machine.execTag40005 rest s
  | .tag48005 rest => Sys2Proof.Machine.execTag48005 rest s
  | .tag40006 rest => Sys2Proof.Machine.execTag40006 rest s
  | .tag48006 rest => Sys2Proof.Machine.execTag48006 rest s
  | .kindOk info => Sys2Proof.Machine.execKindOk info s
  | .kindLockContention info => Sys2Proof.Machine.execKindLockContention info s
  | .kindBufferFull info => Sys2Proof.Machine.execKindBufferFull info s
  | .kindFirmwareRejected info => Sys2Proof.Machine.execKindFirmwareRejected info s
  | .kindUnknownResponseStatus info => Sys2Proof.Machine.execKindUnknownResponseStatus info s
  | .kindNoResponse info => Sys2Proof.Machine.execKindNoResponse info s
  | .kindTagNotAnswered info => Sys2Proof.Machine.execKindTagNotAnswered info s
  | .kindTimeout info => Sys2Proof.Machine.execKindTimeout info s
  | .kindUnsupportedBoard info => Sys2Proof.Machine.execKindUnsupportedBoard info s
  | .kindUnsupportedCpuModel info => Sys2Proof.Machine.execKindUnsupportedCpuModel info s
  | .kindReserved code info => Sys2Proof.Machine.execKindReserved code info s

end Sys2Proof.Machine
end

