-- ==== Sys2Proof/Machine/Sequencer.lean ====
section
/-! DEFINITION. Who moves, and with what: the agenda, decoding, and the engine's own next step (00_scope R9, R10; 41_call
R173; log 2). -/

namespace Sys2Proof.Machine

/-- The inputs HOST and IRQ make, which wait while the engine runs a command (41_call R173). Bare register accesses, the
words a step of ENGINE meets, the result kinds (most are ends of CALL) and the steps of FW, FOREIGN and the CPU-model
detection do not. -/
def portWaits : Port → Bool
  | .command => true
  | .raNew => true
  | .raOffset => true
  | .raRead => true
  | .raWrite => true
  | .tagCode => true
  | .tagId => true
  | .result => false
  | .regAccess => false
  | .submitPoll => false
  | .submitWrite => false
  | .corrPoll => false
  | .corrRead => false
  | .fwPop => false
  | .fwProcess => false
  | .fwPush => false
  | .foreignPush => false
  | .bufferCode => false
  | .submission => false
  | .status => false
  | .channel => false

/-- Whether an input is HOST's or IRQ's. -/
def inputWaits : Input → Bool
  | .words p _ => portWaits p
  | .irqEnter => true
  | .irqExit => true
  | .setIe _ => true
  | .engine => false
  | .resolveBase => false
  | .drawn _ => false
  | .again i => inputWaits i

/-- The ENGINE's next step: the phase-step of its PHASE (41_call R163 to R166), else the next command of a recipe
(30_encoding R126), else nothing (70_reset_and_hazards R302: idle). -/
def engineStep (s : State) : Out :=
  match s.phase with
  | .submitPoll => exec .stepSubmitPoll s
  | .submitWrite => exec .stepSubmitWrite s
  | .corrPoll => exec .stepCorrPoll s
  | .corrRead => exec .stepCorrRead s
  | _ =>
    match s.recipe with
    | some r => recipeStep r s
    | none => .next s

/-- The state in which a decoded instruction runs: what the stream still holds goes back to the front of the agenda. -/
def afterFetch (p : Port) (left : List Word) (s : State) : State :=
  if left = [] then s else s.setAgenda (.words p left :: s.agenda)

/-- A step that is not enabled, or has no meaning here, is not taken, and another is. -/
def orElse (o : Out) (k : Out) : Out :=
  match o with
  | .next t => .next t
  | .fault f => .fault f
  | .refused _ => k

/-- This instruction, if there is one, it is of one of these ports and it is not refused; else the ENGINE's step. -/
def moveOrEngine (ports : List Port) (m : Option Instr) (s : State) : Out :=
  match m with
  | some i => if encodePort i ∈ ports then orElse (exec i s) (engineStep s) else engineStep s
  | none => engineStep s

/-- A move that nothing fixes: drawn among the instructions of these ports and the ENGINE's step
(70_reset_and_hazards R333; log 33). -/
def drawnStep (ports : List Port) (s : State) : Out :=
  moveOrEngine ports (Config.drawnMove s.draws) (s.setDraws (s.draws + 1))

/-- One input, in a state whose agenda it has been taken from. -/
def perform : Input → State → Out
  | .words p ws, s =>
    match decode p ws with
    | .error r => .refused (.illegalEncoding r)
    | .ok (ins, left) => exec ins (afterFetch p left s)
  | .engine, s => engineStep s
  | .resolveBase, s => resolveBase s
  | .irqEnter, s => irqEnter s
  | .irqExit, s => irqExit s
  | .setIe b, s => hostSetIe b s
  | .drawn ports, s => drawnStep ports s
  | .again i, s => perform i (s.setAgenda (s.agenda ++ [.again i]))

/-- The next move: the first input of the agenda, or the ENGINE's when the agenda is empty or its first input waits. -/
def move (s : State) : Out :=
  match s.agenda with
  | [] => engineStep s
  | i :: rest => if inputWaits i = true ∧ s.busy = true then engineStep s else perform i (s.setAgenda rest)

/-- A configuration outside the constraints of 00_scope R12 is none of this hardware (U11; log 25). -/
def guardedMove (s : State) : Out := if s.cfg.Valid then move s else .refused .badConfiguration

/-- The words of an opcode-table row put first in the agenda. -/
def presentTableWord (s : State) (nbits w : Nat) : State :=
  s.setAgenda (.words (tablePacket nbits w).1 (tablePacket nbits w).2 :: s.agenda)

end Sys2Proof.Machine
end

