-- ==== Sys2Proof/Machine/Step.lean ====
section
/-! DEFINITION. One step of the machine, and the placing of an instruction for the next one. -/

namespace Sys2Proof.Machine

/-- One step: one input, or one step of the ENGINE (00_scope R9). -/
def step (s : State) : Host.Outcome State Fault Refusal := guardedMove s

/-- s with the instruction whose table bits are w where step takes its next instruction: first in the agenda. -/
def State.withFetchWord (s : State) (nbits w : Nat) : State := presentTableWord s nbits w

end Sys2Proof.Machine
end

