-- ==== Sys2Proof/WellFormed.lean ====
section
/-! DEFINITION. Which terms of Instr an encoding of the spec can spell. A command whose operand is in the encoding but out
of range for its meaning (TAG_CHECK 34, a lock instance that does not exist) is well formed: its meaning refuses it, after
the checks 60_exceptions R276 puts before that one. -/

namespace Sys2Proof

/-- Bounds: at most 255 operand words of WRITE_TAG, hence 254 after a tag_id (30_encoding R121); the OP field of a reserved
command word (R123); an offset no other selector row names (R116, R223); 36 words from the firmware (43_mailbox_registers
R228); a code word none of the named ones (R105); channels 9 to 15 (R110); kinds 10 to 15 (60_exceptions R261). -/
def Instr.wf : Instr → Bool
  | .newBuffer => true
  | .writeTag ws => decide (ws.length ≤ 255)
  | .call => true
  | .tagCheck _ => true
  | .readWord _ => true
  | .discard => true
  | .tryAcquire _ => true
  | .release _ => true
  | .getFirmwareRevision => true
  | .getBoardSerial => true
  | .reservedOp0 cw => decide (cw.toNat % 16 = 0)
  | .reservedOp7 cw => decide (cw.toNat % 16 = 7)
  | .reservedOpCToF cw => decide (12 ≤ cw.toNat % 16)
  | .stepSubmitPoll => true
  | .stepSubmitWrite => true
  | .stepCorrPoll => true
  | .stepCorrRead => true
  | .raNew _ => true
  | .raOffset _ _ => true
  | .raRead _ => true
  | .raWrite _ _ => true
  | .rdMboxRw => true
  | .wrMboxRw _ => true
  | .rdwrMboxPeek _ => true
  | .rdwrMboxSender _ => true
  | .rdMboxStatus => true
  | .wrMboxStatus _ => true
  | .rdwrMboxConfig _ => true
  | .wrMboxWrite _ => true
  | .rdMboxWrite => true
  | .regOtherOffset off _ => decide (off ≠ 0x00#8 ∧ off ≠ 0x10#8 ∧ off ≠ 0x14#8 ∧ off ≠ 0x18#8 ∧ off ≠ 0x1c#8 ∧ off ≠ 0x20#8)
  | .fwPop => true
  | .fwProcess _ f => decide (f.length = Config.bufWords)
  | .fwPush _ => true
  | .foreignPush _ => true
  | .codeRequest => true
  | .codeResponse => true
  | .codeResponseError => true
  | .codeUnknown c => decide (c ≠ Config.codeRequest ∧ c ≠ Config.codeResponse ∧ c ≠ Config.codeResponseError)
  | .tagResponseBit _ => true
  | .terminator rest => decide (rest.length ≤ 254)
  | .submissionWordCh8 _ => true
  | .statusFull => true
  | .statusEmpty => true
  | .channel0 => true
  | .channel1 => true
  | .channel2 => true
  | .channel3 => true
  | .channel4 => true
  | .channel5 => true
  | .channel6 => true
  | .channel7 => true
  | .channel8 => true
  | .channelReserved ch => decide (9 ≤ ch.toNat)
  | .tag1 rest => decide (rest.length ≤ 254)
  | .tag10001 rest => decide (rest.length ≤ 254)
  | .tag10004 rest => decide (rest.length ≤ 254)
  | .tag10005 rest => decide (rest.length ≤ 254)
  | .tag30002 rest => decide (rest.length ≤ 254)
  | .tag38002 rest => decide (rest.length ≤ 254)
  | .tag40001 rest => decide (rest.length ≤ 254)
  | .tag40003 rest => decide (rest.length ≤ 254)
  | .tag40004 rest => decide (rest.length ≤ 254)
  | .tag44003 rest => decide (rest.length ≤ 254)
  | .tag44004 rest => decide (rest.length ≤ 254)
  | .tag48003 rest => decide (rest.length ≤ 254)
  | .tag48004 rest => decide (rest.length ≤ 254)
  | .tag40005 rest => decide (rest.length ≤ 254)
  | .tag48005 rest => decide (rest.length ≤ 254)
  | .tag40006 rest => decide (rest.length ≤ 254)
  | .tag48006 rest => decide (rest.length ≤ 254)
  | .kindOk _ => true
  | .kindLockContention _ => true
  | .kindBufferFull _ => true
  | .kindFirmwareRejected _ => true
  | .kindUnknownResponseStatus _ => true
  | .kindNoResponse _ => true
  | .kindTagNotAnswered _ => true
  | .kindTimeout _ => true
  | .kindUnsupportedBoard _ => true
  | .kindUnsupportedCpuModel _ => true
  | .kindReserved code _ => decide (10 ≤ code.toNat)

end Sys2Proof
end

