-- ==== Sys2Proof/Safety.lean ====
section
/-! DEFINITION. The terms claims are stated in: when a command is admitted, what every step keeps, tag lists and where they
end, and the assumption that the firmware behaves. -/

namespace Sys2Proof.Machine

/-! ### Admission and poll budget -/

/-- A command that begins a request is admitted: no command is running, the code path holds GUARD[0], and PHASE is one of
these (60_exceptions R276 checks 2 and 3; 41_call R173). -/
abbrev State.ready (s : State) (phases : List Phase) : Prop :=
  s.busy = false ∧ s.holdsGuard 0 = true ∧ s.phase ∈ phases

/-- A command of a request in progress is admitted: what `ready` asks, under the guard that has covered the request since its
NEW_BUFFER (44_lock R249). -/
abbrev State.inRequest (s : State) (phases : List Phase) : Prop :=
  s.busy = false ∧ s.holdsRequest = true ∧ s.phase ∈ phases

/-- The engine is at this phase-step and its register accesses are not fatal. -/
abbrev State.atStep (s : State) (p : Phase) : Prop := s.phase = p ∧ s.baseValid = true

/-- One more failed poll does not end CALL (41_call R175). -/
abbrev State.budgetLeft (s : State) : Prop := ∀ n, s.cfg.pollLimit = some n → s.polls + 1 < n

/-- One more failed poll ends CALL with Timeout (41_call R175). -/
abbrev State.budgetSpent (s : State) : Prop := ∃ n, s.cfg.pollLimit = some n ∧ n ≤ s.polls + 1

/-- POLLS after a failed poll: counted only when POLL_LIMIT is a number (41_call R175). -/
def State.countPoll (s : State) : Nat := if s.cfg.pollLimit = none then s.polls else s.polls + 1

/-- How many more phase-steps a CALL with POLL_LIMIT = n can take (41_call R175, with the breakdown it gives). -/
def State.callBudget (s : State) (n : Nat) : Nat :=
  match s.phase with
  | .submitPoll => 2 * n + 1 + (n - s.polls)
  | .submitWrite => 2 * n + 1
  | .corrPoll => 2 * (n - s.polls)
  | .corrRead => 2 * (n - s.polls) - 1
  | _ => 0

/-! ### What every step keeps -/

/-- The PHASE values in which a recipe can stand at a stage (30_encoding R126). -/
def RecipeStage.fits : RecipeStage → Phase → Bool
  | .writeTag, p => p = .build
  | .call, p => p = .build
  | .checkTag, p => p.inCall || p = .doneOk || p = .doneErr
  | .readLow, p => p = .doneOk
  | .readHigh, p => p = .doneOk
  | .discard, p => p = .doneOk
  | .cleanup _, p => p = .build || p = .doneOk || p = .doneErr

/-- The invariant of the machine. -/
structure State.Inv (s : State) : Prop where
  /-- memory is in its canonical form -/
  memWf : s.mem.wf = true
  /-- OUTQ holds 0 to FIFO_DEPTH words (10_state R37) -/
  outqBound : s.outq.length ≤ s.cfg.fifoDepth
  /-- INQ holds 0 to FIFO_DEPTH words (10_state R38) -/
  inqBound : s.inq.length ≤ s.cfg.fifoDepth
  /-- there are LOCK_COUNT lock instances (10_state R31) -/
  lockCount : s.locks.length = s.cfg.lockCount
  /-- GUARD[k].LIVE = 1 exactly when LOCK[k].FLAG = Locked (10_state R33; 44_lock R247) -/
  lockCoherent : ∀ l ∈ s.locks, l.live = true ↔ l.flag = .locked
  /-- FW_PENDING is in its canonical form (log 20) -/
  pendingSorted : s.fwPending.Pairwise fun a b => a.toNat ≤ b.toNat
  /-- each of the 36 buffer words holds a value, in every PHASE (10_state R21; 93_implementation_defined U19) -/
  bufPresent : ∀ i < Config.bufWords, (s.buf i).isSome = true
  /-- SUB is the submission word while a request is outstanding and after it succeeded (10_state R26) -/
  subLatched : s.phase = .corrPoll ∨ s.phase = .corrRead ∨ s.phase = .doneOk → s.sub = submissionWord s.cfg.bufAddr
  /-- inside CALL, POLLS has not reached POLL_LIMIT (41_call R175) -/
  pollsBelow : ∀ n, s.cfg.pollLimit = some n → s.phase.inCall = true → s.polls < n
  /-- while the engine runs a command the running code path holds the guard that covers the request (44_lock R249) -/
  busyGuard : s.busy = true → s.holdsRequest = true
  /-- a guard that covers a request is live (44_lock R249) -/
  unbrokenLive : s.unbroken = true → ∃ l, s.locks[0]? = some l ∧ l.live = true
  /-- a recipe's stage and PHASE agree -/
  recipePhase : ∀ r, s.recipe = some r → r.stage.fits s.phase = true
  /-- a CPU-model detection that failed, with one of its two kinds, leaves BASE_VALID at 0 (60_exceptions R270) -/
  startupFatal : ∀ k, s.startup = some k → s.baseValid = false ∧ (k = .unsupportedBoard ∨ k = .unsupportedCpuModel)

/-! ### Tag lists (40_buffer_build R143, R149) -/

/-- q is reached from p by stepping over whole tags inside the buffer, each by its own length (40_buffer_build R143). -/
inductive TagPath (s : State) : Nat → Nat → Prop where
  | here (p : Nat) : TagPath s p p
  | tag {p q : Nat} {id size : Word} (inside : p + 1 < Config.bufWords) (hid : s.buf p = some id) (nonzero : id ≠ 0#32)
      (hsize : s.buf (p + 1) = some size) (rest : TagPath s (p + tagLength size) q) : TagPath s p q

/-- A well-formed tag list: exact, or with one trailing terminator (40_buffer_build R149). -/
def wellFormedTag : List Word → Bool
  | id :: size :: code :: values =>
    id ≠ 0#32 &&
      (values.length = ceil4 size.toNat ||
        (values.length = ceil4 size.toNat + 1 && (id :: size :: code :: values).getLast? = some 0#32))
  | _ => false

/-- The tags end at index z, at a zero word, and every word from there on is zero (40_buffer_build R149 (b)). -/
def State.endsAt (s : State) (z : Nat) : Prop :=
  z < Config.bufWords ∧ findEnd s = .found z ∧ ∀ j, z ≤ j → j < Config.bufWords → s.buf j = some 0#32

/-- The tags of these lists stand in the buffer one after another from index p, each whole, and z is the next index. A
tag is 3 + v words of its list; a trailing terminator is no part of it (30_encoding R103; 40_buffer_build R149 (b)). -/
def State.tagsAt (s : State) : Nat → List (List Word) → Nat → Prop
  | p, [], z => p = z
  | p, ws :: wss, z =>
    (∀ j, j < tagLength (ws.getD 1 0#32) → s.buf (p + j) = ws[j]?) ∧ s.tagsAt (p + tagLength (ws.getD 1 0#32)) wss z

/-- A sequence of WRITE_TAGs, with the lists of those that returned Ok, in order; none if one of them stops. -/
def appendAll : List (List Word) → State → List (List Word) → Option (State × List (List Word))
  | [], s, done => some (s, done)
  | ws :: wss, s, done =>
    match exec (.writeTag ws) s with
    | .next t => appendAll wss t (if t.result.kind = .ok then done ++ [ws] else done)
    | .fault _ => none
    | .refused _ => none

/-- n failed attempts on a lock, one after another. -/
def tryAgain (k : BitVec 8) : Nat → State → Out
  | 0, s => .next s
  | n + 1, s => andThen (exec (.tryAcquire k) s) (tryAgain k n)

/-! ### FW_OK (43_mailbox_registers R232), the named assumption that the firmware behaves -/

/-- The indices of the first words of the tags, as the walk meets them. -/
def tagStarts (s : State) : Nat → Nat → List Nat
  | 0, _ => []
  | fuel + 1, p =>
    if Config.bufWords ≤ p + 1 then []
    else match s.buf p, s.buf (p + 1) with
      | some id, some size => if id = 0#32 then [] else p :: tagStarts s fuel (p + tagLength size)
      | _, _ => []

/-- What a behaving firmware leaves in the buffer: (b1) BUF[1] is Response or ResponseError; (b2) to (b4) any other word it
changes is, with Response, the code word or a value word of a tag whose code word has bit 31 set. -/
def fwOkWrite (s : State) (f : List Word) : Prop :=
  f.length = Config.bufWords ∧
  (f[1]? = some Config.codeResponse ∨ f[1]? = some Config.codeResponseError) ∧
  ∀ i, i < Config.bufWords → i ≠ 1 → f[i]? ≠ s.buf i →
    f[1]? = some Config.codeResponse ∧
    ∃ t ∈ tagStarts s Config.bufWords Config.firstTag, ∃ size c,
      s.buf (t + 1) = some size ∧ t + 2 ≤ i ∧ i < t + tagLength size ∧ f[t + 2]? = some c ∧ responseBit c = true

/-- How far the firmware is with the engine's request word. -/
inductive FwStage where
  /-- the word is not yet written, or stands in OUTQ -/
  | waiting
  /-- FW_POP has taken it -/
  | taken
  /-- FW_PROCESS has run for it -/
  | processed
  /-- FW_PUSH has delivered it -/
  | answered
  deriving DecidableEq, Repr

/-- An execution of the agenda in which the firmware behaves towards the request word w (43_mailbox_registers R232): in any
interleaving with the ENGINE's steps, foreign words and the firmware's other traffic, the word is taken (a), processed
exactly once and as fwOkWrite says (b), and pushed back (c), all after finitely many steps and among finitely many foreign
words (d). Bare register accesses, which can take the response away (70_reset_and_hazards R322), are no part of it. -/
inductive FwOk (w : Word) : FwStage → State → Prop where
  /-- all of it has happened; from here on the ENGINE moves alone: what stands first in the agenda, if anything, is HOST's or
  IRQ's and waits -/
  | done {s : State} (ha : ∀ x ∈ s.agenda.head?, inputWaits x = true) : FwOk w .answered s
  /-- the ENGINE moves: a poll that fails, a poll that does not, a word written or read -/
  | engine {g : FwStage} {s t : State} (ha : ∀ x ∈ s.agenda.head?, x = .engine ∨ inputWaits x = true)
      (hs : step s = .next t) (ht : FwOk w g t) : FwOk w g s
  | foreignPush {g : FwStage} {s t : State} {x : Word} {rest : List Input}
      (ha : s.agenda = .words .foreignPush [x] :: rest) (hs : step s = .next t) (ht : FwOk w g t) : FwOk w g s
  /-- the firmware takes another word -/
  | popOther {g : FwStage} {s t : State} {rest : List Input} (ha : s.agenda = .words .fwPop [] :: rest)
      (other : s.outq.head? ≠ some w) (hs : step s = .next t) (ht : FwOk w g t) : FwOk w g s
  /-- the firmware answers another word -/
  | pushOther {g : FwStage} {s t : State} {v : Word} {rest : List Input} (ha : s.agenda = .words .fwPush [v] :: rest)
      (other : v ≠ w) (hs : step s = .next t) (ht : FwOk w g t) : FwOk w g s
  /-- (a) -/
  | pop {s t : State} {rest : List Input} (ha : s.agenda = .words .fwPop [] :: rest) (head : s.outq.head? = some w)
      (hs : step s = .next t) (ht : FwOk w .taken t) : FwOk w .waiting s
  /-- (b), once: no other stage has this step -/
  | process {s t : State} {f : List Word} {rest : List Input} (ha : s.agenda = .words .fwProcess (w :: f) :: rest)
      (good : fwOkWrite s f) (hs : step s = .next t) (ht : FwOk w .processed t) : FwOk w .taken s
  /-- (c) -/
  | push {s t : State} {rest : List Input} (ha : s.agenda = .words .fwPush [w] :: rest) (hs : step s = .next t)
      (ht : FwOk w .answered t) : FwOk w .processed s

/-! ### Rows of one shape -/

/-- The tag_id rows and the terminator: each with its identifier (30_encoding R104, R111, R112). -/
def tagIdRows : List (Word × (List Word → Instr)) :=
  [(0x0#32, .terminator),
   (0x1#32, .tag1),
   (0x10001#32, .tag10001),
   (0x10004#32, .tag10004),
   (0x10005#32, .tag10005),
   (0x30002#32, .tag30002),
   (0x38002#32, .tag38002),
   (0x40001#32, .tag40001),
   (0x40003#32, .tag40003),
   (0x40004#32, .tag40004),
   (0x44003#32, .tag44003),
   (0x44004#32, .tag44004),
   (0x48003#32, .tag48003),
   (0x48004#32, .tag48004),
   (0x40005#32, .tag40005),
   (0x48005#32, .tag48005),
   (0x40006#32, .tag40006),
   (0x48006#32, .tag48006)]

/-- The channel rows 0 to 8 (30_encoding R110). -/
def channelRows : List (BitVec 4 × Instr) :=
  [(0#4, .channel0), (1#4, .channel1), (2#4, .channel2), (3#4, .channel3), (4#4, .channel4),
   (5#4, .channel5), (6#4, .channel6), (7#4, .channel7), (8#4, .channel8)]

/-- The engine commands and recipes (30_encoding R120). -/
def engineCommands (ws : List Word) (t i : BitVec 8) : List Instr :=
  [.newBuffer, .writeTag ws, .call, .tagCheck t, .readWord i, .discard, .getFirmwareRevision, .getBoardSerial]

/-- The engine commands that some PHASE outside CALL does not admit, each with those that do (10_state R25). NEW_BUFFER and
the recipes are admitted in every PHASE outside CALL. -/
def phasedCommands (ws : List Word) (t i : BitVec 8) : List (Instr × List Phase) :=
  [(.writeTag ws, [.build]), (.call, [.build]), (.tagCheck t, [.doneOk, .doneErr]),
   (.readWord i, [.build, .doneOk, .doneErr]), (.discard, [.build, .doneOk, .doneErr])]

/-- The result-kind rows whose kind ends a command (60_exceptions R261). -/
def kindRows : List (Kind × (Word → Instr)) :=
  [(.ok, .kindOk),
   (.lockContention, .kindLockContention),
   (.bufferFull, .kindBufferFull),
   (.firmwareRejected, .kindFirmwareRejected),
   (.unknownResponseStatus, .kindUnknownResponseStatus),
   (.noResponse, .kindNoResponse),
   (.tagNotAnswered, .kindTagNotAnswered),
   (.timeout, .kindTimeout)]

/-- What HOST and IRQ can issue: the instructions of the ports that wait (41_call R173). -/
def hostIssued (i : Instr) : Bool := portWaits (encodePort i)

end Sys2Proof.Machine
end

