-- ==== Sys2Proof/Certificates/Slice0/Obligations.lean ====
section
/-! DEFINITION. The statements for the provers, each from the rules of spec/ its docstring names. A frame is written as the
record the next state is equal to: every field it does not name is the old one. -/

open Sys2Proof Sys2Proof.Machine

/-! ### Building the message (40_buffer_build) -/

/-- R140. NEW_BUFFER, command word 0x1, completes: every word is zero but SIZE = 8, PHASE = BUILD, RESULT = (Ok, 0); no
byte outside the 36 words changes, and no other field. On the fresh buffer FindEnd answers 2, in both modes (R144).
`unbroken` is the model's record that one guard covers the request from here on (R249; log 34). -/
def Obligations.NewBufferMakesEmptyMessage : Prop :=
  encode .newBuffer = (.command, [0x00000001#32]) ∧
  ∀ s : State, s.ready newBufferPhases →
    ∃ t, exec .newBuffer s = .next t ∧
      t = { s with mem := t.mem, phase := .build, unbroken := true, result := ⟨.ok, 0#32⟩ } ∧
      t.buf 0 = some 8#32 ∧ (∀ i, 1 ≤ i → i < 36 → t.buf i = some 0#32) ∧ findEnd t = .found 2 ∧
      ∀ a, a < s.wordAddr 0 ∨ s.wordAddr 36 ≤ a → t.mem.readByte a = s.mem.readByte a

/-- R146, R147 (in R142). WRITE_TAG of a list that fits completes: the list stands at the index p where FindEnd found
the terminator, SIZE has grown by 4n modulo 2^32, RESULT = (Ok, p), and nothing else has changed: every byte outside
word 0 and the n words at p reads as before. -/
def Obligations.WriteTagCopiesTheList : Prop :=
  ∀ (s : State) (ws : List Word) (p : Nat) (size : Word), s.inRequest [.build] → findEnd s = .found p →
    p + ws.length + s.cfg.termReserve.val ≤ 36 → s.buf 0 = some size →
    ∃ t, exec (.writeTag ws) s = .next t ∧
      t = { s with mem := t.mem, result := ⟨.ok, BitVec.ofNat 32 p⟩ } ∧
      (∀ (j : Nat) (h : j < ws.length), t.buf (p + j) = some ws[j]) ∧
      t.buf 0 = some (size + BitVec.ofNat 32 (4 * ws.length)) ∧
      ∀ a, (a < s.wordAddr 0 ∨ s.wordAddr 1 ≤ a) → (a < s.wordAddr p ∨ s.wordAddr (p + ws.length) ≤ a) →
        t.mem.readByte a = s.mem.readByte a

/-- R148 (with R145, R263). WRITE_TAG that does not fit, or finds no terminator, ends with BufferFull and leaves no
trace: only RESULT changes. -/
def Obligations.WriteTagBufferFullLeavesNoTrace : Prop :=
  ∀ (s : State) (ws : List Word), s.inRequest [.build] →
    (∀ p, findEnd s = .found p → 36 < p + ws.length + s.cfg.termReserve.val →
      exec (.writeTag ws) s = .next { s with result := ⟨.bufferFull, BitVec.ofNat 32 p⟩ }) ∧
    (findEnd s = .noTerminator → exec (.writeTag ws) s = .next { s with result := ⟨.bufferFull, 36#32⟩ })

/-- A tag_id row, and the terminator's, appends the list that begins with its identifier: identifiers are copied like any
other word (R104, R111, R112, R123). That such a row acts as WRITE_TAG is the model's choice (log 16). -/
def Obligations.TagIdentifierRowsAppendTheirTag : Prop :=
  ∀ (s : State) (rest : List Word) (p : Nat) (size : Word), s.inRequest [.build] → findEnd s = .found p →
    p + (rest.length + 1) + s.cfg.termReserve.val ≤ 36 → s.buf 0 = some size →
    ∀ row ∈ tagIdRows, ∃ t, exec (row.2 rest) s = .next t ∧
      t = { s with mem := t.mem, result := ⟨.ok, BitVec.ofNat 32 p⟩ } ∧
      t.buf p = some row.1 ∧ (∀ (j : Nat) (h : j < rest.length), t.buf (p + 1 + j) = some rest[j]) ∧
      t.buf 0 = some (size + BitVec.ofNat 32 (4 * (rest.length + 1))) ∧
      ∀ a, (a < s.wordAddr 0 ∨ s.wordAddr 1 ≤ a) → (a < s.wordAddr p ∨ s.wordAddr (p + (rest.length + 1)) ≤ a) →
        t.mem.readByte a = s.mem.readByte a

/-- R143. With SCAN_MODE = tag_walk, FindEnd finds exactly the zero word in tag_id position reached by stepping over whole
tags from index 2, and finds none exactly when the walk leaves the buffer or meets a tag_id in its last word; WRITE_TAG
then raises BufferFull(36). -/
def Obligations.WalkFindsTheTerminator : Prop :=
  ∀ s : State, s.cfg.scanMode = .tagWalk →
    (∀ p, findEnd s = .found p ↔ TagPath s 2 p ∧ p < 36 ∧ s.buf p = some 0#32) ∧
    (findEnd s = .noTerminator ↔
      ∃ q, TagPath s 2 q ∧ (36 ≤ q ∨ (q = 35 ∧ ∃ id, s.buf q = some id ∧ id ≠ 0#32))) ∧
    (findEnd s = .noTerminator → s.inRequest [.build] →
      ∀ ws, exec (.writeTag ws) s = .next { s with result := ⟨.bufferFull, 36#32⟩ })

/-- R144. With SCAN_MODE = word_scan, FindEnd finds exactly the first zero word at or after index 2, and finds none
exactly when there is none; WRITE_TAG then raises BufferFull(36). -/
def Obligations.ScanFindsTheFirstZeroWord : Prop :=
  ∀ s : State, s.cfg.scanMode = .wordScan →
    (∀ p, findEnd s = .found p ↔
      2 ≤ p ∧ p < 36 ∧ s.buf p = some 0#32 ∧ ∀ j, 2 ≤ j → j < p → ∃ w, s.buf j = some w ∧ w ≠ 0#32) ∧
    (findEnd s = .noTerminator ↔ ∀ j, 2 ≤ j → j < 36 → ∃ w, s.buf j = some w ∧ w ≠ 0#32) ∧
    (findEnd s = .noTerminator → s.inRequest [.build] →
      ∀ ws, exec (.writeTag ws) s = .next { s with result := ⟨.bufferFull, 36#32⟩ })

/-- R147, R149 (a), R115 (a), R141. After NEW_BUFFER and any sequence of WRITE_TAGs, well formed or not, SIZE is 8 plus
four times the words of those that returned Ok, modulo 2^32, CODE is still Request, and no other field but RESULT has
moved. -/
def Obligations.DeclaredSizeCountsTheAppendedWords : Prop :=
  ∀ (s : State) (wss : List (List Word)), s.ready newBufferPhases →
    ∃ t u done, exec .newBuffer s = .next t ∧ appendAll wss t [] = some (u, done) ∧ done.Sublist wss ∧
      u = { t with mem := u.mem, result := u.result } ∧
      u.buf 0 = some (BitVec.ofNat 32 (8 + 4 * done.flatten.length)) ∧ u.buf 1 = some 0#32

/-- R149 (b), R23 (c'). After NEW_BUFFER and any sequence of WRITE_TAGs of well-formed lists, with the default SCAN_MODE
and TERM_RESERVE, the tags end at a zero word inside the buffer, every word from there on is zero, and every tag written
lies intact between index 2 and that word, in order. -/
def Obligations.WellFormedTagsKeepTheZeroSentinel : Prop :=
  ∀ (s : State) (wss : List (List Word)), s.ready newBufferPhases → s.cfg.scanMode = .tagWalk →
    s.cfg.termReserve = 1 → (∀ ws ∈ wss, wellFormedTag ws = true) →
    ∃ t u done z, exec .newBuffer s = .next t ∧ appendAll wss t [] = some (u, done) ∧ u.endsAt z ∧ u.tagsAt 2 done z

/-! ### The call (41_call) -/

/-- R160. CALL is accepted in BUILD: POLLS <- 0 and PHASE <- SUBMIT_POLL, and nothing else. -/
def Obligations.CallIsAccepted : Prop :=
  ∀ s : State, s.inRequest [.build] → exec .call s = .next { s with polls := 0, phase := .submitPoll }

/-- R163. SUBMIT_POLL examines FULL alone: clear, the engine goes on to SUBMIT_WRITE; set, with budget left, it polls
again. `draws` is the model's own counter of status draws. -/
def Obligations.SubmitPollWaitsWhileFull : Prop :=
  ∀ s : State, s.atStep .submitPoll →
    (s.outq.length ≠ s.cfg.fifoDepth →
      exec .stepSubmitPoll s = .next { s with phase := .submitWrite, draws := s.draws + 1 }) ∧
    (s.outq.length = s.cfg.fifoDepth → s.budgetLeft →
      exec .stepSubmitPoll s = .next { s with polls := s.countPoll, draws := s.draws + 1 })

/-- R164. SUBMIT_WRITE latches BUF_ADDR | 8 in SUB, appends it to OUTQ once, zeroes POLLS and goes on to CORR_POLL. -/
def Obligations.SubmitWriteSendsTheSubmissionWord : Prop :=
  ∀ s : State, s.atStep .submitWrite → s.outq.length ≠ s.cfg.fifoDepth →
    exec .stepSubmitWrite s = .next
      { s with
        sub := s.cfg.bufAddr ||| 8#32, outq := s.outq ++ [s.cfg.bufAddr ||| 8#32], polls := 0, phase := .corrPoll }

/-- R107. With an aligned buffer address the submission word BUF_ADDR | 8 has BUF_ADDR[31:4] as its pointer field and 8 as
its channel field: the OR corrupts nothing (R161, R162). -/
def Obligations.SubmissionWordKeepsAddressAndChannel : Prop :=
  ∀ c : Params, c.Valid →
    submissionWord c.bufAddr = c.bufAddr ||| 8#32 ∧
    (submissionWord c.bufAddr).extractLsb' 4 28 = c.bufAddr.extractLsb' 4 28 ∧
    (submissionWord c.bufAddr).extractLsb' 0 4 = 8#4 ∧ wordBuffer (submissionWord c.bufAddr) = c.bufAddr

/-- R165. CORR_POLL examines EMPTY alone: clear, the engine goes on to CORR_READ; set, with budget left, it polls
again. -/
def Obligations.CorrPollWaitsWhileEmpty : Prop :=
  ∀ s : State, s.atStep .corrPoll →
    (s.inq ≠ [] → exec .stepCorrPoll s = .next { s with phase := .corrRead, draws := s.draws + 1 }) ∧
    (s.inq = [] → s.budgetLeft →
      exec .stepCorrPoll s = .next { s with polls := s.countPoll, draws := s.draws + 1 })

/-- R108. A response word matches when its channel field, bits 3:0, and its pointer field, bits 31:4, equal those of SUB,
which is 32-bit equality with SUB (R167). -/
def Obligations.MatchTestIsWordEquality : Prop :=
  ∀ r sub : Word,
    (responseMatches r sub = true ↔
      r.extractLsb' 0 4 = sub.extractLsb' 0 4 ∧ r.extractLsb' 4 28 = sub.extractLsb' 4 28) ∧
    (responseMatches r sub = true ↔ r = sub)

/-- R169 (in R166). A response word that is not SUB is dropped: it leaves INQ, RESP holds it until the next read, no other
field keeps it, and with budget left the engine polls again. -/
def Obligations.ForeignResponseIsDiscarded : Prop :=
  ∀ (s : State) (w : Word) (q : List Word), s.atStep .corrRead → s.inq = w :: q → w ≠ s.sub → s.budgetLeft →
    exec .stepCorrRead s = .next { s with inq := q, resp := w, polls := s.countPoll, phase := .corrPoll }

/-- R170 (in R166). A word equal to SUB ends CALL in the same step, by BUF[1] alone: Response is Ok, ResponseError is
FirmwareRejected, Request is NoResponse, anything else is UnknownResponseStatus, each with the word as INFO. -/
def Obligations.MatchingResponseIsClassified : Prop :=
  ∀ (s : State) (q : List Word) (c : Word), s.atStep .corrRead → s.inq = s.sub :: q → s.buf 1 = some c →
    exec .stepCorrRead s = .next
      { s with
        inq := q
        resp := s.sub
        phase := if c = 0x80000000#32 then .doneOk else .doneErr
        result :=
          ⟨if c = 0x80000000#32 then .ok
            else if c = 0x80000001#32 then .firmwareRejected
            else if c = 0#32 then .noResponse
            else .unknownResponseStatus, c⟩ }

/-- R167, R177. CALL never ends Ok on a word other than SUB, nor with a buffer whose code word is not Response. -/
def Obligations.OkFromCallNeedsTheMatchingResponse : Prop :=
  ∀ s t : State, exec .stepCorrRead s = .next t → t.phase = .doneOk →
    s.inq = s.sub :: t.inq ∧ t.resp = t.sub ∧ t.buf 1 = some 0x80000000#32 ∧ t.result = ⟨.ok, 0x80000000#32⟩

/-- R175, R269. With POLL_LIMIT = N, the failed poll that reaches N ends CALL with Timeout: INFO 0 in the submit loop, 1
in the correlate loop, where a foreign word counts like an empty queue. -/
def Obligations.ExhaustedPollsEndInTimeout : Prop :=
  ∀ s : State, s.baseValid = true → s.budgetSpent →
    (s.phase = .submitPoll → s.outq.length = s.cfg.fifoDepth →
      exec .stepSubmitPoll s = .next
        { s with polls := s.polls + 1, draws := s.draws + 1, phase := .doneErr, result := ⟨.timeout, 0#32⟩ }) ∧
    (s.phase = .corrPoll → s.inq = [] →
      exec .stepCorrPoll s = .next
        { s with polls := s.polls + 1, draws := s.draws + 1, phase := .doneErr, result := ⟨.timeout, 1#32⟩ }) ∧
    (s.phase = .corrRead → ∀ w q, s.inq = w :: q → w ≠ s.sub →
      exec .stepCorrRead s = .next
        { s with
          inq := q, resp := w, polls := s.polls + 1, phase := .doneErr, result := ⟨.timeout, 1#32⟩ })

/-- R175. With POLL_LIMIT = N every phase-step either ends CALL or uses up one of the phase-steps CALL has left, of which
it has at most 3N + 2 when it is accepted; no step of FW or FOREIGN and no bare register access changes that number. -/
def Obligations.EveryPhaseStepSpendsTheCallBudget : Prop :=
  ∀ (s : State) (n : Nat), s.cfg.pollLimit = some n → s.Inv →
    (s.phase = .submitPoll → s.callBudget n ≤ 3 * n + 2) ∧
    (∀ i ∈ [Instr.stepSubmitPoll, .stepSubmitWrite, .stepCorrPoll, .stepCorrRead], ∀ t, exec i s = .next t →
      t.phase.inCall = false ∨ t.callBudget n < s.callBudget n) ∧
    (∀ i : Instr, encodePort i ∈ [Port.fwPop, .fwProcess, .fwPush, .foreignPush, .regAccess] →
      ∀ t, exec i s = .next t → t.phase = s.phase ∧ t.callBudget n = s.callBudget n)

/-- R175. With POLL_LIMIT = N and the engine alone moving, CALL ends within 3N + 2 steps from its first poll, without a
fault. -/
def Obligations.BoundedCallEnds : Prop :=
  ∀ (s : State) (n : Nat), s.cfg.Valid → s.Inv → s.cfg.pollLimit = some n → s.atStep .submitPoll → s.agenda = [] →
    ∃ k t, k ≤ 3 * n + 2 ∧ core.run k s = .next t ∧ t.phase.inCall = false

/-- R174. With POLL_LIMIT = none, an execution of each of the three hangs is still inside CALL at every length: (a) OUTQ
stays full, (b) INQ stays empty, the ENGINE alone moving, (c) INQ keeps delivering words none of which is SUB, one after
another without end, or any finite number of them. And however ENGINE and FOREIGN move, whatever words FOREIGN pushes, a
CALL whose SUB is not in INQ stays inside CALL (the agenda and its draws are the model's: log 2, log 33). -/
def Obligations.SilentFirmwareHangsTheCall : Prop :=
  ∀ (s : State) (k : Nat) (xs : List Word), s.cfg.Valid → s.cfg.pollLimit = none → s.baseValid = true →
    (s.phase = .submitPoll → s.outq.length = s.cfg.fifoDepth → s.agenda = [] →
      ∃ t, core.run k s = .next t ∧ t.phase = .submitPoll) ∧
    (s.phase = .corrPoll → s.inq = [] → s.agenda = [] → ∃ t, core.run k s = .next t ∧ t.phase = .corrPoll) ∧
    ((∀ x ∈ xs, x ≠ submissionWord s.cfg.bufAddr) → s.sub = submissionWord s.cfg.bufAddr → s.phase = .corrPoll →
      s.inq = [] →
      (s.agenda = xs.flatMap (fun x => [Input.words .foreignPush [x], .engine, .engine]) →
        ∃ t, core.run (3 * xs.length) s = .next t ∧ t.phase = .corrPoll) ∧
      (xs ≠ [] →
        s.agenda = xs.flatMap (fun x => [.again (.words .foreignPush [x]), .again .engine, .again .engine]) →
        ∃ t, core.run k s = .next t ∧ t.phase = (if k % 3 = 2 then .corrRead else .corrPoll) ∧
          (k % 3 = 0 → t.inq = []) ∧ (k % 3 ≠ 0 → ∃ x ∈ xs, t.inq = [x]))) ∧
    (s.phase = .corrPoll → s.sub = submissionWord s.cfg.bufAddr → s.sub ∉ s.inq →
      s.agenda = [.again (.drawn [.foreignPush])] →
      ∃ t, core.run k s = .next t ∧ (t.phase = .corrPoll ∨ t.phase = .corrRead) ∧ t.sub ∉ t.inq)

/-- R232, R170, R226, R228, R229. A CALL whose word is not yet anywhere in the queues ends with Ok or FirmwareRejected in
every execution in which the firmware behaves (FwOk), with POLL_LIMIT = none; and in the execution without a failed poll
or a foreign word it does so in seven steps, the buffer as the firmware left it, and no word outstanding. -/
def Obligations.HandshakeUnderFwOkEnds : Prop :=
  ∀ s : State, s.cfg.Valid → s.atStep .submitPoll →
    (s.cfg.pollLimit = none → submissionWord s.cfg.bufAddr ∉ s.outq → submissionWord s.cfg.bufAddr ∉ s.inq →
      FwOk (submissionWord s.cfg.bufAddr) .waiting s →
      ∃ k t, core.run k s = .next t ∧
        ((t.phase = .doneOk ∧ t.result = ⟨.ok, 0x80000000#32⟩) ∨
          (t.phase = .doneErr ∧ t.result = ⟨.firmwareRejected, 0x80000001#32⟩))) ∧
    (∀ f, s.outq = [] → s.inq = [] → s.fwPending = [] → fwOkWrite s f →
      s.agenda = [.engine, .engine, .words .fwPop [], .words .fwProcess (submissionWord s.cfg.bufAddr :: f),
        .words .fwPush [submissionWord s.cfg.bufAddr], .engine, .engine] →
      ∃ t, core.run 7 s = .next t ∧
        ((t.phase = .doneOk ∧ t.result = ⟨.ok, 0x80000000#32⟩) ∨
          (t.phase = .doneErr ∧ t.result = ⟨.firmwareRejected, 0x80000001#32⟩)) ∧
        (∀ (i : Nat) (h : i < f.length), t.buf i = some f[i]) ∧
        t.sub = submissionWord s.cfg.bufAddr ∧ t.resp = submissionWord s.cfg.bufAddr ∧
        t.outq = [] ∧ t.inq = [] ∧ t.fwPending = [] ∧ t.locks = s.locks ∧ t.ie = s.ie)

/-- R176, R172, R25. Every instruction that completes moves PHASE along a row of the state machine, and no other way. -/
def Obligations.PhaseMovesByTheStateMachineOnly : Prop :=
  ∀ (i : Instr) (s t : State), exec i s = .next t → t.phase ≠ s.phase →
    (s.phase, t.phase) ∈
      [(Phase.none, Phase.build), (.doneOk, .build), (.doneErr, .build), (.build, .none), (.doneOk, .none),
        (.doneErr, .none), (.build, .submitPoll), (.submitPoll, .submitWrite), (.submitPoll, .doneErr),
        (.submitWrite, .corrPoll), (.corrPoll, .corrRead), (.corrPoll, .doneErr), (.corrRead, .corrPoll),
        (.corrRead, .doneOk), (.corrRead, .doneErr)]

/-- The wire-format rows, each at the state in which its word is the one present: STATUS_FULL, STATUS_EMPTY,
SUBMISSION_WORD_CH8, the channel rows of a foreign word, the channel and code rows of a matching one, TAG_RESPONSE_BIT.
Each completes with the effect of the machine's own step on that word (R163 to R166, R169, R170, R190), which is the end
of CALL with Timeout where a failed poll spends the budget (R175). That the row acts as that step is the model's choice
(log 15). -/
def Obligations.WireRowsAreTheStepsOfTheirWord : Prop :=
  ∀ s : State,
    (s.atStep .submitPoll → s.outq.length = s.cfg.fifoDepth → s.budgetLeft →
      exec .statusFull s = .next { s with polls := s.countPoll, draws := s.draws + 1 }) ∧
    (s.atStep .corrPoll → s.inq = [] → s.budgetLeft →
      exec .statusEmpty s = .next { s with polls := s.countPoll, draws := s.draws + 1 }) ∧
    (s.atStep .submitWrite → s.outq.length ≠ s.cfg.fifoDepth →
      exec (.submissionWordCh8 (s.cfg.bufAddr.extractLsb' 4 28)) s = .next
        { s with
          sub := s.cfg.bufAddr ||| 8#32, outq := s.outq ++ [s.cfg.bufAddr ||| 8#32], polls := 0, phase := .corrPoll }) ∧
    (∀ w q i, s.atStep .corrRead → s.inq = w :: q → w ≠ s.sub → s.budgetLeft →
      ((w.extractLsb' 0 4, i) ∈ channelRows ∨
        (i = .channelReserved (w.extractLsb' 0 4) ∧ 9 ≤ (w.extractLsb' 0 4).toNat)) →
      exec i s = .next { s with inq := q, resp := w, polls := s.countPoll, phase := .corrPoll }) ∧
    (s.atStep .submitPoll → s.outq.length = s.cfg.fifoDepth → s.budgetSpent →
      exec .statusFull s = .next
        { s with polls := s.polls + 1, draws := s.draws + 1, phase := .doneErr, result := ⟨.timeout, 0#32⟩ }) ∧
    (s.atStep .corrPoll → s.inq = [] → s.budgetSpent →
      exec .statusEmpty s = .next
        { s with polls := s.polls + 1, draws := s.draws + 1, phase := .doneErr, result := ⟨.timeout, 1#32⟩ }) ∧
    (∀ w q i, s.atStep .corrRead → s.inq = w :: q → w ≠ s.sub → s.budgetSpent →
      ((w.extractLsb' 0 4, i) ∈ channelRows ∨
        (i = .channelReserved (w.extractLsb' 0 4) ∧ 9 ≤ (w.extractLsb' 0 4).toNat)) →
      exec i s = .next
        { s with inq := q, resp := w, polls := s.polls + 1, phase := .doneErr, result := ⟨.timeout, 1#32⟩ }) ∧
    (∀ q c i, s.atStep .corrRead → s.inq = s.sub :: q → s.buf 1 = some c →
      ((s.sub.extractLsb' 0 4, i) ∈ channelRows ∨
        (i = .channelReserved (s.sub.extractLsb' 0 4) ∧ 9 ≤ (s.sub.extractLsb' 0 4).toNat) ∨
        (i = .codeResponse ∧ c = 0x80000000#32) ∨ (i = .codeResponseError ∧ c = 0x80000001#32) ∨
        (i = .codeRequest ∧ c = 0#32) ∨ (i = .codeUnknown c ∧ c ≠ 0x80000000#32 ∧ c ≠ 0x80000001#32 ∧ c ≠ 0#32)) →
      exec i s = .next
        { s with
          inq := q
          resp := s.sub
          phase := if c = 0x80000000#32 then .doneOk else .doneErr
          result :=
            ⟨if c = 0x80000000#32 then .ok
              else if c = 0x80000001#32 then .firmwareRejected
              else if c = 0#32 then .noResponse
              else .unknownResponseStatus, c⟩ }) ∧
    (∀ (t : BitVec 8) (c : Word), s.inRequest [.doneOk, .doneErr] → 2 ≤ t.toNat → t.toNat ≤ 33 →
      s.buf (t.toNat + 2) = some c →
      exec (.tagResponseBit t) s = .next { s with result := ⟨if c.getLsbD 31 then .ok else .tagNotAnswered, c⟩ })

/-! ### Reading results back (42_readback) -/

/-- R190. TAG_CHECK t, command word 0xtt04, 2 ≤ t ≤ 33: bit 31 of BUF[t + 2] set returns the word, clear raises
TagNotAnswered with it; nothing but RESULT changes. Any other t is refused. -/
def Obligations.TagCheckTestsTheResponseBit : Prop :=
  ∀ (s : State) (t : BitVec 8),
    encode (.tagCheck t) = (.command, [t.setWidth 32 <<< 8 ||| 0x4#32]) ∧
    (s.inRequest [.doneOk, .doneErr] →
      (∀ c, 2 ≤ t.toNat → t.toNat ≤ 33 → s.buf (t.toNat + 2) = some c →
        exec (.tagCheck t) s = .next { s with result := ⟨if c.getLsbD 31 then .ok else .tagNotAnswered, c⟩ }) ∧
      (t.toNat < 2 ∨ 33 < t.toNat → exec (.tagCheck t) s = .refused .operandOutOfRange))

/-- R191. READ_WORD i, command word 0xii05, i ≤ 35, returns BUF[i], and nothing but RESULT changes; any other i is
refused. -/
def Obligations.ReadWordReturnsTheBufferWord : Prop :=
  ∀ (s : State) (i : BitVec 8),
    encode (.readWord i) = (.command, [i.setWidth 32 <<< 8 ||| 0x5#32]) ∧
    (s.inRequest [.build, .doneOk, .doneErr] →
      (∀ w, i.toNat ≤ 35 → s.buf i.toNat = some w → exec (.readWord i) s = .next { s with result := ⟨.ok, w⟩ }) ∧
      (35 < i.toNat → exec (.readWord i) s = .refused .operandOutOfRange))

/-- R193. DISCARD, command word 0x6, ends the request: PHASE <- NONE, RESULT = (Ok, 0), and the buffer words keep their
values. -/
def Obligations.DiscardEndsTheRequest : Prop :=
  encode .discard = (.command, [0x00000006#32]) ∧
  ∀ s : State, s.inRequest [.build, .doneOk, .doneErr] →
    exec .discard s = .next { s with phase := .none, result := ⟨.ok, 0#32⟩ }

/-! ### The recipes (30_encoding R126; 42_readback R194 to R196) -/

/-- R126, R194, R195, R196. Issuing a recipe, command word 0xA or 0xB, runs the first command of its expansion,
NEW_BUFFER, and leaves the rest to the engine, which takes it command by command (that it is split so: log 14). -/
def Obligations.RecipeBeginsWithNewBuffer : Prop :=
  encode .getFirmwareRevision = (.command, [0x0000000A#32]) ∧ encode .getBoardSerial = (.command, [0x0000000B#32]) ∧
  ∀ s : State, s.ready newBufferPhases →
    ∃ t, exec .newBuffer s = .next t ∧
      exec .getFirmwareRevision s = .next { t with recipe := some ⟨.firmwareRevision, .writeTag, 0#32, 0#32⟩ } ∧
      exec .getBoardSerial s = .next { t with recipe := some ⟨.boardSerial, .writeTag, 0#32, 0#32⟩ }

/-- R126, R195, R196, R194. In a recipe the engine's next step outside CALL is the command its expansion names, with the
operands of the rule, and the recipe stands at the stage after it, which is the clean-up when the command did not return
Ok (that a recipe is split so: log 14). -/
def Obligations.RecipeStepsAreItsExpansion : Prop :=
  ∀ (s t : State) (r : RecipeRun), s.recipe = some r → s.phase.inCall = false →
    (r.stage = .writeTag →
      exec (.writeTag (match r.kind with
        | .firmwareRevision => [1#32, 4#32, 0#32, 0#32, 0#32]
        | .boardSerial => [0x10004#32, 8#32, 0#32, 0#32, 0#32, 0#32])) { s with recipe := none } = .next t →
      engineStep s = .next
        { t with recipe := some { r with stage := if t.result.kind = .ok then .call else .cleanup t.result } }) ∧
    (r.stage = .call → exec .call { s with recipe := none } = .next t →
      engineStep s = .next { t with recipe := some { r with stage := .checkTag } }) ∧
    (r.stage = .checkTag → s.phase ≠ .doneErr → exec (.tagCheck 2#8) { s with recipe := none } = .next t →
      engineStep s = .next
        { t with recipe := some { r with stage := if t.result.kind = .ok then .readLow else .cleanup t.result } }) ∧
    (r.stage = .readLow → exec (.readWord 5#8) { s with recipe := none } = .next t →
      engineStep s = .next
        { t with recipe := some { r with
          low := t.result.info
          stage := match r.kind with
            | .firmwareRevision => .discard
            | .boardSerial => .readHigh } }) ∧
    (r.stage = .readHigh → exec (.readWord 6#8) { s with recipe := none } = .next t →
      engineStep s = .next { t with recipe := some { r with high := t.result.info, stage := .discard } }) ∧
    (r.stage = .discard → exec .discard { s with recipe := none } = .next t →
      engineStep s = .next
        { t with
          result := ⟨.ok, r.low⟩
          value64 := match r.kind with
            | .firmwareRevision => t.value64
            | .boardSerial => r.high ++ r.low })

/-- R194. A recipe one of whose commands did not return Ok performs DISCARD and ends with that command's RESULT (that a
recipe is split into steps: log 14). -/
def Obligations.FailedRecipeDiscardsAndReturnsTheError : Prop :=
  ∀ (s : State) (r : RecipeRun), s.recipe = some r → s.holdsRequest = true →
    (r.stage = .checkTag → s.phase = .doneErr → engineStep s = .next { s with phase := .none, recipe := none }) ∧
    (∀ res, r.stage = .cleanup res → s.phase = .build ∨ s.phase = .doneOk ∨ s.phase = .doneErr →
      engineStep s = .next { s with phase := .none, recipe := none, result := res })

/-- R195, R196, R114. From a successful CALL, a recipe whose tag was answered ends by itself: GET_FIRMWARE_REVISION in
three steps with RESULT = (Ok, BUF[5]), GET_BOARD_SERIAL in four with RESULT = (Ok, BUF[5]) and VALUE64 = (BUF[6] << 32)
| BUF[5]; PHASE is NONE and the buffer is as it was (the count of steps: log 14). -/
def Obligations.AnsweredRecipeReturnsItsValue : Prop :=
  ∀ (s : State) (r : RecipeRun) (c low high : Word), s.cfg.Valid → s.agenda = [] → s.phase = .doneOk →
    s.holdsRequest = true → s.recipe = some r → r.stage = .checkTag →
    s.buf 4 = some c → c.getLsbD 31 = true → s.buf 5 = some low → s.buf 6 = some high →
    (r.kind = .firmwareRevision →
      core.run 3 s = .next { s with phase := .none, recipe := none, result := ⟨.ok, low⟩ }) ∧
    (r.kind = .boardSerial →
      core.run 4 s = .next
        { s with phase := .none, recipe := none, result := ⟨.ok, low⟩, value64 := high ++ low })

/-! ### Register Address operations, registers, device side (43_mailbox_registers) -/

/-- R210, R211, with BASE_VALID = 1. RA_NEW returns MMIO_BASE + off and RA_OFFSET returns a + n, both natural-number
sums; a sum that reaches 2^32 is refused. That the address goes to RESULT is the model's choice (log 12). -/
def Obligations.RegisterAddressesAreSums : Prop :=
  ∀ (s : State) (a n : Word), s.busy = false → s.baseValid = true →
    (s.cfg.mmioBase.toNat + n.toNat < 2 ^ 32 →
      exec (.raNew n) s = .next { s with result := ⟨.ok, s.cfg.mmioBase + n⟩ }) ∧
    (2 ^ 32 ≤ s.cfg.mmioBase.toNat + n.toNat → exec (.raNew n) s = .refused .addressOverflow) ∧
    (a.toNat + n.toNat < 2 ^ 32 → exec (.raOffset a n) s = .next { s with result := ⟨.ok, a + n⟩ }) ∧
    (2 ^ 32 ≤ a.toNat + n.toNat → exec (.raOffset a n) s = .refused .addressOverflow)

/-- R212, R213, R215, R219, R221, R69, R223. RA_READ and RA_WRITE make one access to the register the address names: the
head of INQ at REG(0x00), the status word at REG(0x18), an append to OUTQ at REG(0x20); a misaligned address and every
other access are refused. That the word read goes to RESULT is the model's choice (log 12). -/
def Obligations.RegisterAddressAccessesTheNamedRegister : Prop :=
  ∀ (s : State) (a v : Word), s.busy = false → s.baseValid = true →
    (a.toNat = s.cfg.mmioBase.toNat + 0xb880 → a.toNat % 4 = 0 → ∀ w q, s.inq = w :: q →
      exec (.raRead a) s = .next { s with inq := q, result := ⟨.ok, w⟩ }) ∧
    (a.toNat = s.cfg.mmioBase.toNat + 0xb880 + 0x18 → a.toNat % 4 = 0 →
      exec (.raRead a) s = .next { s with draws := s.draws + 1, result := ⟨.ok, s.status.word⟩ }) ∧
    (a.toNat = s.cfg.mmioBase.toNat + 0xb880 + 0x20 → a.toNat % 4 = 0 → s.outq.length ≠ s.cfg.fifoDepth →
      exec (.raWrite a v) s = .next { s with outq := s.outq ++ [v] }) ∧
    (a.toNat % 4 ≠ 0 →
      exec (.raRead a) s = .refused .misalignedAddress ∧ exec (.raWrite a v) s = .refused .misalignedAddress) ∧
    (a.toNat % 4 = 0 → a.toNat ≠ s.cfg.mmioBase.toNat + 0xb880 → a.toNat ≠ s.cfg.mmioBase.toNat + 0xb880 + 0x18 →
      exec (.raRead a) s = .refused .registerNotDescribed) ∧
    (a.toNat % 4 = 0 → a.toNat ≠ s.cfg.mmioBase.toNat + 0xb880 + 0x20 →
      exec (.raWrite a v) s = .refused .registerNotDescribed)

/-- R215, R219, R221, with BASE_VALID = 1 (R4). The bare register accesses: RD MBOX_RW takes the head of INQ, RD MBOX_STATUS
changes no state of the device, WR MBOX_WRITE appends to OUTQ. That the word read goes to readData is the model's choice
(log 13). -/
def Obligations.BareRegisterAccesses : Prop :=
  ∀ (s : State) (v : Word), s.baseValid = true →
    (∀ w q, s.inq = w :: q → exec .rdMboxRw s = .next { s with inq := q, readData := w }) ∧
    exec .rdMboxStatus s = .next { s with draws := s.draws + 1, readData := s.status.word } ∧
    (s.outq.length ≠ s.cfg.fifoDepth → exec (.wrMboxWrite v) s = .next { s with outq := s.outq ++ [v] })

/-- R36. Bit 31 of the status word is 1 exactly when OUTQ holds FIFO_DEPTH words, bit 30 exactly when INQ holds
none; the other 30 bits are the draw. -/
def Obligations.StatusBitsAreTheQueueLengths : Prop :=
  ∀ s : State,
    (s.status.word.getLsbD 31 = true ↔ s.outq.length = s.cfg.fifoDepth) ∧
    (s.status.word.getLsbD 30 = true ↔ s.inq = []) ∧
    s.status.word.extractLsb' 0 30 = Config.statusLowBits s.draws

/-- R216, R217, R218, R220, R222, R223. Every register access the source gives no behaviour is refused, a write of the
status register (R219) among them; so are a reserved command code (R123) and a kind code that is never produced (R261). -/
def Obligations.UndescribedAccessesAndReservedCodesAreRefused : Prop :=
  ∀ (s : State) (v : Word) (acc : Access) (off : BitVec 8) (cw info : Word) (code : BitVec 4),
    (∀ i ∈ [Instr.wrMboxRw v, .rdwrMboxPeek acc, .rdwrMboxSender acc, .wrMboxStatus v, .rdwrMboxConfig acc, .rdMboxWrite,
        .regOtherOffset off acc], exec i s = .refused .registerNotDescribed) ∧
    (∀ i ∈ [Instr.reservedOp0 cw, .reservedOp7 cw, .reservedOpCToF cw], exec i s = .refused .reservedCommand) ∧
    exec (.kindReserved code info) s = .refused .reservedKind

/-- R226. FW_POP moves the head of OUTQ into FW_PENDING, whatever else the machine does; with OUTQ empty it is not
enabled. -/
def Obligations.FirmwareTakesTheOldestRequest : Prop :=
  ∀ s : State,
    (∀ w q, s.outq = w :: q → ∃ t, exec .fwPop s = .next t ∧
      t = { s with outq := q, fwPending := t.fwPending } ∧ t.fwPending.Perm (w :: s.fwPending)) ∧
    (s.outq = [] → exec .fwPop s = .refused .stepNotEnabled)

/-- R228. FW_PROCESS of a pending word that designates this buffer leaves any 36 words in it and changes no byte outside
it and no other field; of any other word it is not enabled. -/
def Obligations.FirmwareRewritesTheBufferOnly : Prop :=
  ∀ (s : State) (w : Word) (f : List Word), f.length = 36 →
    (w ∈ s.fwPending → w.extractLsb' 0 4 = 8#4 → w &&& 0xFFFFFFF0#32 = s.cfg.bufAddr →
      ∃ t, exec (.fwProcess w f) s = .next t ∧ t = { s with mem := t.mem } ∧
        (∀ (i : Nat) (h : i < f.length), t.buf i = some f[i]) ∧
        ∀ a, a < s.wordAddr 0 ∨ s.wordAddr 36 ≤ a → t.mem.readByte a = s.mem.readByte a) ∧
    (w ∉ s.fwPending ∨ w.extractLsb' 0 4 ≠ 8#4 ∨ w &&& 0xFFFFFFF0#32 ≠ s.cfg.bufAddr →
      exec (.fwProcess w f) s = .refused .stepNotEnabled)

/-- R229. FW_PUSH takes one occurrence of the word out of FW_PENDING and appends it unchanged to INQ; of a word that is
not pending, or with INQ full, it is not enabled. -/
def Obligations.FirmwarePushesTheRequestWordBack : Prop :=
  ∀ (s : State) (w : Word),
    (w ∈ s.fwPending → s.inq.length < s.cfg.fifoDepth → ∃ t, exec (.fwPush w) s = .next t ∧
      t = { s with inq := s.inq ++ [w], fwPending := t.fwPending } ∧ s.fwPending.Perm (w :: t.fwPending)) ∧
    (w ∉ s.fwPending ∨ s.cfg.fifoDepth ≤ s.inq.length → exec (.fwPush w) s = .refused .stepNotEnabled)

/-- R231. FOREIGN_PUSH appends to INQ any word other than BUF_ADDR | 8; that word, or with INQ full, it is not enabled. -/
def Obligations.ForeignWordsAreNeverTheSubmissionWord : Prop :=
  ∀ (s : State) (x : Word),
    (s.inq.length < s.cfg.fifoDepth → x ≠ s.cfg.bufAddr ||| 8#32 →
      exec (.foreignPush x) s = .next { s with inq := s.inq ++ [x] }) ∧
    (s.cfg.fifoDepth ≤ s.inq.length ∨ x = s.cfg.bufAddr ||| 8#32 →
      exec (.foreignPush x) s = .refused .stepNotEnabled)

/-- R221, R215, U2, U3. Writing a full OUTQ and reading an empty INQ are faults, for the bare accesses, for RA_WRITE and
RA_READ through the address of the register (R212, R213), and for CALL. -/
def Obligations.QueueMisuseFaults : Prop :=
  ∀ (s : State) (a v : Word), s.baseValid = true →
    (s.outq.length = s.cfg.fifoDepth →
      exec (.wrMboxWrite v) s = .fault .outqFull ∧
      (s.busy = false → a.toNat = s.cfg.mmioBase.toNat + 0xb880 + 0x20 → a.toNat % 4 = 0 →
        exec (.raWrite a v) s = .fault .outqFull) ∧
      (s.phase = .submitWrite → exec .stepSubmitWrite s = .fault .outqFull)) ∧
    (s.inq = [] →
      exec .rdMboxRw s = .fault .inqEmpty ∧
      (s.busy = false → a.toNat = s.cfg.mmioBase.toNat + 0xb880 → a.toNat % 4 = 0 →
        exec (.raRead a) s = .fault .inqEmpty) ∧
      (s.phase = .corrRead → exec .stepCorrRead s = .fault .inqEmpty))

/-! ### The lock (44_lock) -/

/-- R241. TRY_ACQUIRE k, command word 0xkk08, succeeds if and only if the flag is Unlocked: the flag is Locked, the
guard live with the saved IE (and its holder recorded: log 8), IE is 0; on a Locked flag it raises LockContention and
changes nothing but RESULT; a k that names no lock is refused. -/
def Obligations.TryAcquireSucceedsIffUnlocked : Prop :=
  ∀ (s : State) (k : BitVec 8),
    encode (.tryAcquire k) = (.command, [k.setWidth 32 <<< 8 ||| 0x8#32]) ∧
    (s.busy = false →
      (∀ l, s.locks[k.toNat]? = some l → l.flag = .unlocked →
        exec (.tryAcquire k) s = .next
          { s with
            locks := s.locks.set k.toNat ⟨.locked, true, s.ie, s.running⟩, ie := false,
            result := ⟨.ok, k.setWidth 32⟩ }) ∧
      (∀ l, s.locks[k.toNat]? = some l → l.flag = .locked →
        exec (.tryAcquire k) s = .next { s with result := ⟨.lockContention, k.setWidth 32⟩ }) ∧
      (s.locks.length ≤ k.toNat → exec (.tryAcquire k) s = .refused .operandOutOfRange))

/-- R242. RELEASE k, command word 0xkk09, by the holder of a live guard clears the flag, restores the saved IE and ends
the guard; without a live guard of the issuer's it is refused. With lock 0 the guard that covers the request ends, which the
model records in `unbroken` (R249; log 34). -/
def Obligations.ReleaseRestoresTheInterruptEnable : Prop :=
  ∀ (s : State) (k : BitVec 8) (l : LockCell),
    encode (.release k) = (.command, [k.setWidth 32 <<< 8 ||| 0x9#32]) ∧
    (s.busy = false → s.locks[k.toNat]? = some l →
      (l.live = true → l.holder = s.running →
        exec (.release k) s = .next
          { s with
            locks := s.locks.set k.toNat ⟨.unlocked, false, l.savedIe, l.holder⟩, ie := l.savedIe,
            unbroken := s.unbroken && decide (k.toNat ≠ 0), result := ⟨.ok, 0#32⟩ }) ∧
      (l.live = false ∨ l.holder ≠ s.running → exec (.release k) s = .refused .noLiveGuard))

/-- R242, R243, R246. Whatever number of failed attempts is made while a lock is held, releasing it leaves the flag
Unlocked, the guard dead, and IE as it was before it was taken; every other lock is untouched. -/
def Obligations.ReleaseUndoesAcquireAfterAnyFailures : Prop :=
  ∀ (s t u : State) (k : BitVec 8) (n : Nat), exec (.tryAcquire k) s = .next t → t.result.kind = .ok →
    tryAgain k n t = .next u →
    (∀ m, m < n → ∃ v, tryAgain k (m + 1) t = .next v ∧ v.result.kind = .lockContention) ∧
    ∃ v l, exec (.release k) u = .next v ∧ v.locks[k.toNat]? = some l ∧ l.flag = .unlocked ∧ l.live = false ∧
      v.ie = s.ie ∧ ∀ j, j ≠ k.toNat → v.locks[j]? = s.locks[j]?

/-- R249, R25, R276. An engine command or recipe whose issuer does not hold GUARD[0] is refused; with the guard, one that
the PHASE does not admit is refused too (NEW_BUFFER and the recipes are admitted in every PHASE outside CALL). One guard
covers a request: where GUARD[0] was released since NEW_BUFFER and taken again, by HOST or IRQ, every command that would go
on with the request is refused (R320; that NEW_BUFFER then begins a new one is the model's reading: log 34), and no handler
begins while the guard covers it. -/
def Obligations.EngineCommandsNeedGuardAndPhase : Prop :=
  ∀ (s : State) (ws : List Word) (t i : BitVec 8), s.busy = false →
    (s.holdsGuard 0 = false → ∀ c ∈ engineCommands ws t i, exec c s = .refused .guardNotHeld) ∧
    (s.holdsGuard 0 = true → ∀ c ∈ phasedCommands ws t i, s.phase ∉ c.2 → exec c.1 s = .refused .phaseNotAdmitted) ∧
    (s.holdsGuard 0 = true → s.unbroken = false → ∀ c ∈ phasedCommands ws t i, s.phase ∈ c.2 →
      exec c.1 s = .refused .requestBroken) ∧
    (∀ r u : State, exec (.release 0#8) s = .next r → exec (.tryAcquire 0#8) r = .next u →
      r.unbroken = false ∧ u.unbroken = false) ∧
    (s.Inv → s.unbroken = true → irqEnter s = .refused .interruptNotDeliverable)

/-! ### Errors, interrupts, waiting (60_exceptions) -/

/-- R260, R261, R262 to R270. A result-kind row is the step of the command that raises the kind, and completes where that
command ends with exactly (KIND, INFO), leaving what R277 says: READ_WORD (Ok), the four classifications of CALL, the
contended TRY_ACQUIRE, the WRITE_TAG that does not fit, the TAG_CHECK of an unanswered tag, the failed poll that spends
POLL_LIMIT. A row never completes with another result, and the error kinds of CALL never outside DONE_ERR. Timeout does
not exist without POLL_LIMIT (R269). The two start-up kinds belong to the CPU-model detection: the base stays unresolved,
and they are refused once it is resolved (R270). That a row selects that command is the model's choice (log 17, 24). -/
def Obligations.ResultKindsAreReported : Prop :=
  ∀ (s : State) (info : Word),
    (s.inRequest [.build, .doneOk, .doneErr] → ∀ i, i < 36 → s.buf i = some info →
      exec (.kindOk info) s = .next { s with result := ⟨.ok, info⟩ }) ∧
    (∀ q i, s.atStep .corrRead → s.inq = s.sub :: q → s.buf 1 = some info →
      ((i = .kindOk info ∧ info = 0x80000000#32) ∨ (i = .kindFirmwareRejected info ∧ info = 0x80000001#32) ∨
        (i = .kindNoResponse info ∧ info = 0#32) ∨
        (i = .kindUnknownResponseStatus info ∧ info ≠ 0x80000000#32 ∧ info ≠ 0x80000001#32 ∧ info ≠ 0#32)) →
      exec i s = .next
        { s with
          inq := q
          resp := s.sub
          phase := if info = 0x80000000#32 then .doneOk else .doneErr
          result :=
            ⟨if info = 0x80000000#32 then .ok
              else if info = 0x80000001#32 then .firmwareRejected
              else if info = 0#32 then .noResponse
              else .unknownResponseStatus, info⟩ }) ∧
    (s.busy = false → info.toNat < 256 → ∀ l, s.locks[info.toNat]? = some l → l.flag = .locked →
      exec (.kindLockContention info) s = .next { s with result := ⟨.lockContention, info⟩ }) ∧
    (s.inRequest [.build] →
      (∀ p, findEnd s = .found p → exec (.kindBufferFull (BitVec.ofNat 32 p)) s = .next
        { s with result := ⟨.bufferFull, BitVec.ofNat 32 p⟩ }) ∧
      (findEnd s = .noTerminator → exec (.kindBufferFull 36#32) s = .next
        { s with result := ⟨.bufferFull, 36#32⟩ })) ∧
    (s.inRequest [.doneOk, .doneErr] → ∀ t, 2 ≤ t → t ≤ 33 → s.buf (t + 2) = some info → info.getLsbD 31 = false →
      exec (.kindTagNotAnswered info) s = .next { s with result := ⟨.tagNotAnswered, info⟩ }) ∧
    (s.baseValid = true → s.budgetSpent →
      (s.phase = .submitPoll → s.outq.length = s.cfg.fifoDepth →
        exec (.kindTimeout 0#32) s = .next
          { s with polls := s.polls + 1, draws := s.draws + 1, phase := .doneErr, result := ⟨.timeout, 0#32⟩ }) ∧
      (s.phase = .corrPoll → s.inq = [] →
        exec (.kindTimeout 1#32) s = .next
          { s with polls := s.polls + 1, draws := s.draws + 1, phase := .doneErr, result := ⟨.timeout, 1#32⟩ }) ∧
      (s.phase = .corrRead → ∀ w q, s.inq = w :: q → w ≠ s.sub →
        exec (.kindTimeout 1#32) s = .next
          { s with
            inq := q, resp := w, polls := s.polls + 1, phase := .doneErr, result := ⟨.timeout, 1#32⟩ })) ∧
    (∀ row ∈ kindRows, ∀ t, exec (row.2 info) s = .next t → t.result = ⟨row.1, info⟩ ∧
      (row.1 ∈ [Kind.firmwareRejected, .unknownResponseStatus, .noResponse, .timeout] → t.phase = .doneErr)) ∧
    (s.cfg.pollLimit = none → exec (.kindTimeout info) s = .refused .stepNotEnabled) ∧
    (s.baseValid = false → s.startup = none →
      exec (.kindUnsupportedBoard info) s = .next { s with startup := some .unsupportedBoard } ∧
      exec (.kindUnsupportedCpuModel info) s = .next { s with startup := some .unsupportedCpuModel }) ∧
    (s.baseValid = true →
      exec (.kindUnsupportedBoard info) s = .refused .baseAlreadyResolved ∧
      exec (.kindUnsupportedCpuModel info) s = .refused .baseAlreadyResolved)

/-- R271, R210, R212, R213, R4. With BASE_VALID = 0 every Register Address operation, every bare access to a register the
source describes and every register access of CALL is fatal. That RA_OFFSET is among them is read from R34 and U12 (log
11). -/
def Obligations.UnresolvedBaseIsFatal : Prop :=
  ∀ (s : State) (a n : Word), s.baseValid = false →
    (s.busy = false → ∀ i ∈ [Instr.raNew n, .raOffset a n, .raRead a, .raWrite a n],
      exec i s = .fault .baseNotResolved) ∧
    (∀ i ∈ [Instr.rdMboxRw, .rdMboxStatus, .wrMboxWrite n], exec i s = .fault .baseNotResolved) ∧
    (∀ p ∈ [(Phase.submitPoll, Instr.stepSubmitPoll), (.submitWrite, .stepSubmitWrite), (.corrPoll, .stepCorrPoll),
        (.corrRead, .stepCorrRead)], s.phase = p.1 → exec p.2 s = .fault .baseNotResolved)

/-- R173. While the engine runs a command, everything HOST or IRQ could issue is refused by exec, and in a step of the
machine it waits: the engine moves instead (that it waits is the model's choice, log 2). -/
def Obligations.HostAndIrqWaitForTheEngine : Prop :=
  ∀ s : State, s.busy = true →
    (∀ i : Instr, hostIssued i = true → ∃ r, exec i s = .refused r) ∧
    (∀ x rest, s.agenda = x :: rest → inputWaits x = true → s.cfg.Valid → step s = engineStep s)

/-- R275, R30. A handler begins only with IE = 1, no guard live and no command running, with IE <- 0; it ends with IE <- 1;
handlers do not nest. The host's own write of IE takes effect, but for enabling interrupts while a guard is live, which the
model leaves out, as it does a handler's write (log 10). -/
def Obligations.HandlersMaskInterrupts : Prop :=
  ∀ s : State, s.busy = false →
    (s.running = .host → s.ie = true → s.anyGuardLive = false →
      irqEnter s = .next { s with running := .irq, ie := false }) ∧
    (s.running = .irq ∨ s.ie = false ∨ s.anyGuardLive = true → irqEnter s = .refused .interruptNotDeliverable) ∧
    (s.running = .irq → irqExit s = .next { s with running := .host, ie := true }) ∧
    (s.running = .host → irqExit s = .refused .interruptNotDeliverable) ∧
    (∀ b, s.running = .host → b = false ∨ s.anyGuardLive = false → hostSetIe b s = .next { s with ie := b }) ∧
    (∀ b, s.running = .irq ∨ (b = true ∧ s.anyGuardLive = true) →
      hostSetIe b s = .refused .interruptEnableNotAdmitted)

/-- R30, R141, R21. Memory is written by NEW_BUFFER, by WRITE_TAG and the rows that append a tag, by a recipe (whose
first command is NEW_BUFFER), and by the firmware; the locks and IE by TRY_ACQUIRE and RELEASE; the failure of the
CPU-model detection by its two kinds; the cover of a request (R249) begins with NEW_BUFFER or a recipe, and ends with
RELEASE 0; no instruction writes BASE_VALID, the parameters, MBOX_PEEK, MBOX_SENDER or MBOX_CONFIG. -/
def Obligations.WhoWritesWhat : Prop :=
  ∀ (i : Instr) (s t : State), exec i s = .next t →
    (t.mem ≠ s.mem → i = .newBuffer ∨ i = .getFirmwareRevision ∨ i = .getBoardSerial ∨ (∃ ws, i = .writeTag ws) ∨
      encodePort i = .tagId ∨ encodePort i = .fwProcess) ∧
    (t.locks ≠ s.locks ∨ t.ie ≠ s.ie → ∃ k, i = .tryAcquire k ∨ i = .release k) ∧
    (t.unbroken ≠ s.unbroken → t.unbroken = true ∧ (i = .newBuffer ∨ i = .getFirmwareRevision ∨ i = .getBoardSerial) ∨
      t.unbroken = false ∧ i = .release 0#8) ∧
    (t.startup ≠ s.startup → ∃ w, i = .kindUnsupportedBoard w ∨ i = .kindUnsupportedCpuModel w) ∧
    t.baseValid = s.baseValid ∧ t.cfg = s.cfg ∧ t.mboxPeek = s.mboxPeek ∧ t.mboxSender = s.mboxSender ∧
    t.mboxConfig = s.mboxConfig

/-! ### Encodings (30_encoding) -/

/-- R121, R116, R105. A few words, written out from the tables, decode to the instructions they stand for, and reserved
ones do not decode to a command (95_test_vectors 2.1). -/
def Obligations.SampleWordsDecode : Prop :=
  decode .command [0x00000001#32] = .ok (.newBuffer, []) ∧
  decode .command [0x00000502#32, 1#32, 4#32, 0#32, 0#32, 0#32, 0x00000083#32]
    = .ok (.writeTag [1#32, 4#32, 0#32, 0#32, 0#32], [0x00000083#32]) ∧
  decode .command [0x00000083#32] = .ok (.call, []) ∧
  decode .command [0x00002104#32] = .ok (.tagCheck 33#8, []) ∧
  decode .command [0x00000208#32] = .ok (.tryAcquire 2#8, []) ∧
  decode .command [0x00000003#32] = .error .channelField ∧
  decode .command [0x00010001#32] = .error .reservedBits ∧
  decode .regAccess [0x018#32] = .ok (.rdMboxStatus, []) ∧
  decode .regAccess [0x120#32, 0x00012348#32] = .ok (.wrMboxWrite 0x00012348#32, []) ∧
  decode .bufferCode [0x80000001#32] = .ok (.codeResponseError, [])

/-- R121, R125. On the command port the decoder reads back every well-formed command from its words, whatever follows them
in the stream. -/
def Obligations.CommandStreamRoundTrip : Prop :=
  ∀ (i : Instr) (rest : List Word), i.wf = true → encodePort i = .command →
    decode .command (encodeWords i ++ rest) = .ok (i, rest)

/-- R125. A program, the sequence of its command words each with its operand words, decodes to the same program. -/
def Obligations.ProgramRoundTrip : Prop :=
  ∀ is : List Instr, (∀ i ∈ is, i.wf = true ∧ encodePort i = .command) →
    decodeProgram (is.flatMap encodeWords).length (is.flatMap encodeWords) = .ok is

/-- R121, R123. Every stream the decoder accepts is the words of the command it answers, followed by the rest: no two
streams stand for one command, and what is decoded is well formed. -/
def Obligations.CommandWordsAreUnique : Prop :=
  ∀ (ws rest : List Word) (i : Instr), decode .command ws = .ok (i, rest) →
    i.wf = true ∧ encodePort i = .command ∧ encodeWords i ++ rest = ws

/-! ### The machine -/

/-- When the first input of the agenda is words of a port that decode, and it does not wait, a step runs exactly
the decoded instruction, on the state with those words taken: what is left of the stream stays first (R9, R125; the agenda
is the model's: log 2). -/
def Obligations.StepRunsTheDecodedInstruction : Prop :=
  ∀ (s : State) (p : Port) (ws left : List Word) (tail : List Input) (i : Instr), s.cfg.Valid →
    s.agenda = .words p ws :: tail → (portWaits p = true → s.busy = false) → decode p ws = .ok (i, left) →
    step s = exec i { s with agenda := if left = [] then tail else .words p left :: tail }

/-- R10, R163 to R166, R302. With an empty agenda the engine takes the phase-step of its PHASE; with no command running
and no recipe the machine stays as it is. The agenda is the model's (log 2). -/
def Obligations.EngineMovesByItsPhase : Prop :=
  ∀ s : State, s.cfg.Valid → s.agenda = [] →
    (∀ p ∈ [(Phase.submitPoll, Instr.stepSubmitPoll), (.submitWrite, .stepSubmitWrite), (.corrPoll, .stepCorrPoll),
        (.corrRead, .stepCorrRead)], s.phase = p.1 → step s = exec p.2 s) ∧
    (s.busy = false → step s = .next s)

/-- R303, R34. Resolving the MMIO base sets BASE_VALID, once (as an input of the agenda: log 28), and never after the
detection has failed (R270; log 24). -/
def Obligations.BaseIsResolvedOnce : Prop :=
  ∀ (s : State) (tail : List Input), s.cfg.Valid → s.agenda = .resolveBase :: tail →
    (s.baseValid = false → s.startup = none → step s = .next { s with baseValid := true, agenda := tail }) ∧
    (s.baseValid = true → step s = .refused .baseAlreadyResolved) ∧
    (s.baseValid = false → s.startup ≠ none → step s = .refused .detectionFailed)

/-- The invariant of Safety.lean is kept by every step of the machine, whoever moves: memory canonical, both queues within
FIFO_DEPTH, LIVE exactly when Locked, a value in every buffer word, SUB latched while it is compared, POLLS below
POLL_LIMIT, the guard that covers a request live, and held while a command runs, and BASE_VALID = 0 for good once the
detection has failed. -/
def Obligations.EveryStepKeepsTheInvariant : Prop :=
  ∀ s t : State, s.Inv → step s = .next t → t.Inv

/-- R42. Reset, in every configuration and for every draw of the elements it leaves unspecified: the values the spec
gives, the draw in every element it leaves open (R301), FULL = 0 and EMPTY = 1, and the invariant. -/
def Obligations.ResetState : Prop :=
  ∀ (c : Params) (d : ResetDraw) (s : State), c.Valid → s = State.resetWith c d →
    s.Inv ∧ s.phase = .none ∧ s.result = ⟨.ok, 0#32⟩ ∧ s.polls = 0 ∧ s.baseValid = false ∧ s.outq = [] ∧ s.inq = [] ∧
    s.fwPending = [] ∧ s.status.word.getLsbD 31 = false ∧ s.status.word.getLsbD 30 = true ∧
    (∀ (i : Nat) (h : i < 36), s.buf i = some d.buf[i]) ∧ s.sub = d.sub ∧ s.resp = d.resp ∧ s.ie = d.ie ∧
    s.mboxPeek = d.mboxPeek ∧ s.mboxSender = d.mboxSender ∧ s.mboxConfig = d.mboxConfig ∧
    s.status.word.extractLsb' 0 30 = Config.statusLowBits s.draws ∧
    ∀ k, k < c.lockCount → ∃ l, s.locks[k]? = some l ∧ l.flag = .unlocked ∧ l.live = false ∧
      l.savedIe = d.savedIe.getD k false

/-- R65. Byte k of a buffer word, at its address + k, is bits 8k+7 down to 8k of the word: little-endian (from general
knowledge by the spec's own mark; log 4). -/
def Obligations.BufferWordsAreLittleEndian : Prop :=
  ∀ (s : State) (i k : Nat) (w : Word), s.buf i = some w → k < 4 →
    s.mem.readByte (s.wordAddr i + k) = some (w.extractLsb' (8 * k) 8)
end

