-- ==== Sys2Proof/Laws/State.lean ====
section
/-! SUPPORT. What each field update leaves in each field: true by unfolding the record, so that no later proof has to. -/

namespace Sys2Proof.Machine

@[simp] theorem State.setMem_cfg (s : State) (v : Memory) : (s.setMem v).cfg = s.cfg := rfl
@[simp] theorem State.setMem_mem (s : State) (v : Memory) : (s.setMem v).mem = v := rfl
@[simp] theorem State.setMem_phase (s : State) (v : Memory) : (s.setMem v).phase = s.phase := rfl
@[simp] theorem State.setMem_sub (s : State) (v : Memory) : (s.setMem v).sub = s.sub := rfl
@[simp] theorem State.setMem_resp (s : State) (v : Memory) : (s.setMem v).resp = s.resp := rfl
@[simp] theorem State.setMem_result (s : State) (v : Memory) : (s.setMem v).result = s.result := rfl
@[simp] theorem State.setMem_value64 (s : State) (v : Memory) : (s.setMem v).value64 = s.value64 := rfl
@[simp] theorem State.setMem_polls (s : State) (v : Memory) : (s.setMem v).polls = s.polls := rfl
@[simp] theorem State.setMem_locks (s : State) (v : Memory) : (s.setMem v).locks = s.locks := rfl
@[simp] theorem State.setMem_unbroken (s : State) (v : Memory) : (s.setMem v).unbroken = s.unbroken := rfl
@[simp] theorem State.setMem_ie (s : State) (v : Memory) : (s.setMem v).ie = s.ie := rfl
@[simp] theorem State.setMem_baseValid (s : State) (v : Memory) : (s.setMem v).baseValid = s.baseValid := rfl
@[simp] theorem State.setMem_startup (s : State) (v : Memory) : (s.setMem v).startup = s.startup := rfl
@[simp] theorem State.setMem_outq (s : State) (v : Memory) : (s.setMem v).outq = s.outq := rfl
@[simp] theorem State.setMem_inq (s : State) (v : Memory) : (s.setMem v).inq = s.inq := rfl
@[simp] theorem State.setMem_mboxPeek (s : State) (v : Memory) : (s.setMem v).mboxPeek = s.mboxPeek := rfl
@[simp] theorem State.setMem_mboxSender (s : State) (v : Memory) : (s.setMem v).mboxSender = s.mboxSender := rfl
@[simp] theorem State.setMem_mboxConfig (s : State) (v : Memory) : (s.setMem v).mboxConfig = s.mboxConfig := rfl
@[simp] theorem State.setMem_fwPending (s : State) (v : Memory) : (s.setMem v).fwPending = s.fwPending := rfl
@[simp] theorem State.setMem_running (s : State) (v : Memory) : (s.setMem v).running = s.running := rfl
@[simp] theorem State.setMem_recipe (s : State) (v : Memory) : (s.setMem v).recipe = s.recipe := rfl
@[simp] theorem State.setMem_readData (s : State) (v : Memory) : (s.setMem v).readData = s.readData := rfl
@[simp] theorem State.setMem_draws (s : State) (v : Memory) : (s.setMem v).draws = s.draws := rfl
@[simp] theorem State.setMem_agenda (s : State) (v : Memory) : (s.setMem v).agenda = s.agenda := rfl

@[simp] theorem State.setPhase_cfg (s : State) (v : Phase) : (s.setPhase v).cfg = s.cfg := rfl
@[simp] theorem State.setPhase_mem (s : State) (v : Phase) : (s.setPhase v).mem = s.mem := rfl
@[simp] theorem State.setPhase_phase (s : State) (v : Phase) : (s.setPhase v).phase = v := rfl
@[simp] theorem State.setPhase_sub (s : State) (v : Phase) : (s.setPhase v).sub = s.sub := rfl
@[simp] theorem State.setPhase_resp (s : State) (v : Phase) : (s.setPhase v).resp = s.resp := rfl
@[simp] theorem State.setPhase_result (s : State) (v : Phase) : (s.setPhase v).result = s.result := rfl
@[simp] theorem State.setPhase_value64 (s : State) (v : Phase) : (s.setPhase v).value64 = s.value64 := rfl
@[simp] theorem State.setPhase_polls (s : State) (v : Phase) : (s.setPhase v).polls = s.polls := rfl
@[simp] theorem State.setPhase_locks (s : State) (v : Phase) : (s.setPhase v).locks = s.locks := rfl
@[simp] theorem State.setPhase_unbroken (s : State) (v : Phase) : (s.setPhase v).unbroken = s.unbroken := rfl
@[simp] theorem State.setPhase_ie (s : State) (v : Phase) : (s.setPhase v).ie = s.ie := rfl
@[simp] theorem State.setPhase_baseValid (s : State) (v : Phase) : (s.setPhase v).baseValid = s.baseValid := rfl
@[simp] theorem State.setPhase_startup (s : State) (v : Phase) : (s.setPhase v).startup = s.startup := rfl
@[simp] theorem State.setPhase_outq (s : State) (v : Phase) : (s.setPhase v).outq = s.outq := rfl
@[simp] theorem State.setPhase_inq (s : State) (v : Phase) : (s.setPhase v).inq = s.inq := rfl
@[simp] theorem State.setPhase_mboxPeek (s : State) (v : Phase) : (s.setPhase v).mboxPeek = s.mboxPeek := rfl
@[simp] theorem State.setPhase_mboxSender (s : State) (v : Phase) : (s.setPhase v).mboxSender = s.mboxSender := rfl
@[simp] theorem State.setPhase_mboxConfig (s : State) (v : Phase) : (s.setPhase v).mboxConfig = s.mboxConfig := rfl
@[simp] theorem State.setPhase_fwPending (s : State) (v : Phase) : (s.setPhase v).fwPending = s.fwPending := rfl
@[simp] theorem State.setPhase_running (s : State) (v : Phase) : (s.setPhase v).running = s.running := rfl
@[simp] theorem State.setPhase_recipe (s : State) (v : Phase) : (s.setPhase v).recipe = s.recipe := rfl
@[simp] theorem State.setPhase_readData (s : State) (v : Phase) : (s.setPhase v).readData = s.readData := rfl
@[simp] theorem State.setPhase_draws (s : State) (v : Phase) : (s.setPhase v).draws = s.draws := rfl
@[simp] theorem State.setPhase_agenda (s : State) (v : Phase) : (s.setPhase v).agenda = s.agenda := rfl

@[simp] theorem State.setSub_cfg (s : State) (v : Word) : (s.setSub v).cfg = s.cfg := rfl
@[simp] theorem State.setSub_mem (s : State) (v : Word) : (s.setSub v).mem = s.mem := rfl
@[simp] theorem State.setSub_phase (s : State) (v : Word) : (s.setSub v).phase = s.phase := rfl
@[simp] theorem State.setSub_sub (s : State) (v : Word) : (s.setSub v).sub = v := rfl
@[simp] theorem State.setSub_resp (s : State) (v : Word) : (s.setSub v).resp = s.resp := rfl
@[simp] theorem State.setSub_result (s : State) (v : Word) : (s.setSub v).result = s.result := rfl
@[simp] theorem State.setSub_value64 (s : State) (v : Word) : (s.setSub v).value64 = s.value64 := rfl
@[simp] theorem State.setSub_polls (s : State) (v : Word) : (s.setSub v).polls = s.polls := rfl
@[simp] theorem State.setSub_locks (s : State) (v : Word) : (s.setSub v).locks = s.locks := rfl
@[simp] theorem State.setSub_unbroken (s : State) (v : Word) : (s.setSub v).unbroken = s.unbroken := rfl
@[simp] theorem State.setSub_ie (s : State) (v : Word) : (s.setSub v).ie = s.ie := rfl
@[simp] theorem State.setSub_baseValid (s : State) (v : Word) : (s.setSub v).baseValid = s.baseValid := rfl
@[simp] theorem State.setSub_startup (s : State) (v : Word) : (s.setSub v).startup = s.startup := rfl
@[simp] theorem State.setSub_outq (s : State) (v : Word) : (s.setSub v).outq = s.outq := rfl
@[simp] theorem State.setSub_inq (s : State) (v : Word) : (s.setSub v).inq = s.inq := rfl
@[simp] theorem State.setSub_mboxPeek (s : State) (v : Word) : (s.setSub v).mboxPeek = s.mboxPeek := rfl
@[simp] theorem State.setSub_mboxSender (s : State) (v : Word) : (s.setSub v).mboxSender = s.mboxSender := rfl
@[simp] theorem State.setSub_mboxConfig (s : State) (v : Word) : (s.setSub v).mboxConfig = s.mboxConfig := rfl
@[simp] theorem State.setSub_fwPending (s : State) (v : Word) : (s.setSub v).fwPending = s.fwPending := rfl
@[simp] theorem State.setSub_running (s : State) (v : Word) : (s.setSub v).running = s.running := rfl
@[simp] theorem State.setSub_recipe (s : State) (v : Word) : (s.setSub v).recipe = s.recipe := rfl
@[simp] theorem State.setSub_readData (s : State) (v : Word) : (s.setSub v).readData = s.readData := rfl
@[simp] theorem State.setSub_draws (s : State) (v : Word) : (s.setSub v).draws = s.draws := rfl
@[simp] theorem State.setSub_agenda (s : State) (v : Word) : (s.setSub v).agenda = s.agenda := rfl

@[simp] theorem State.setResp_cfg (s : State) (v : Word) : (s.setResp v).cfg = s.cfg := rfl
@[simp] theorem State.setResp_mem (s : State) (v : Word) : (s.setResp v).mem = s.mem := rfl
@[simp] theorem State.setResp_phase (s : State) (v : Word) : (s.setResp v).phase = s.phase := rfl
@[simp] theorem State.setResp_sub (s : State) (v : Word) : (s.setResp v).sub = s.sub := rfl
@[simp] theorem State.setResp_resp (s : State) (v : Word) : (s.setResp v).resp = v := rfl
@[simp] theorem State.setResp_result (s : State) (v : Word) : (s.setResp v).result = s.result := rfl
@[simp] theorem State.setResp_value64 (s : State) (v : Word) : (s.setResp v).value64 = s.value64 := rfl
@[simp] theorem State.setResp_polls (s : State) (v : Word) : (s.setResp v).polls = s.polls := rfl
@[simp] theorem State.setResp_locks (s : State) (v : Word) : (s.setResp v).locks = s.locks := rfl
@[simp] theorem State.setResp_unbroken (s : State) (v : Word) : (s.setResp v).unbroken = s.unbroken := rfl
@[simp] theorem State.setResp_ie (s : State) (v : Word) : (s.setResp v).ie = s.ie := rfl
@[simp] theorem State.setResp_baseValid (s : State) (v : Word) : (s.setResp v).baseValid = s.baseValid := rfl
@[simp] theorem State.setResp_startup (s : State) (v : Word) : (s.setResp v).startup = s.startup := rfl
@[simp] theorem State.setResp_outq (s : State) (v : Word) : (s.setResp v).outq = s.outq := rfl
@[simp] theorem State.setResp_inq (s : State) (v : Word) : (s.setResp v).inq = s.inq := rfl
@[simp] theorem State.setResp_mboxPeek (s : State) (v : Word) : (s.setResp v).mboxPeek = s.mboxPeek := rfl
@[simp] theorem State.setResp_mboxSender (s : State) (v : Word) : (s.setResp v).mboxSender = s.mboxSender := rfl
@[simp] theorem State.setResp_mboxConfig (s : State) (v : Word) : (s.setResp v).mboxConfig = s.mboxConfig := rfl
@[simp] theorem State.setResp_fwPending (s : State) (v : Word) : (s.setResp v).fwPending = s.fwPending := rfl
@[simp] theorem State.setResp_running (s : State) (v : Word) : (s.setResp v).running = s.running := rfl
@[simp] theorem State.setResp_recipe (s : State) (v : Word) : (s.setResp v).recipe = s.recipe := rfl
@[simp] theorem State.setResp_readData (s : State) (v : Word) : (s.setResp v).readData = s.readData := rfl
@[simp] theorem State.setResp_draws (s : State) (v : Word) : (s.setResp v).draws = s.draws := rfl
@[simp] theorem State.setResp_agenda (s : State) (v : Word) : (s.setResp v).agenda = s.agenda := rfl

@[simp] theorem State.setResult_cfg (s : State) (v : Result) : (s.setResult v).cfg = s.cfg := rfl
@[simp] theorem State.setResult_mem (s : State) (v : Result) : (s.setResult v).mem = s.mem := rfl
@[simp] theorem State.setResult_phase (s : State) (v : Result) : (s.setResult v).phase = s.phase := rfl
@[simp] theorem State.setResult_sub (s : State) (v : Result) : (s.setResult v).sub = s.sub := rfl
@[simp] theorem State.setResult_resp (s : State) (v : Result) : (s.setResult v).resp = s.resp := rfl
@[simp] theorem State.setResult_result (s : State) (v : Result) : (s.setResult v).result = v := rfl
@[simp] theorem State.setResult_value64 (s : State) (v : Result) : (s.setResult v).value64 = s.value64 := rfl
@[simp] theorem State.setResult_polls (s : State) (v : Result) : (s.setResult v).polls = s.polls := rfl
@[simp] theorem State.setResult_locks (s : State) (v : Result) : (s.setResult v).locks = s.locks := rfl
@[simp] theorem State.setResult_unbroken (s : State) (v : Result) : (s.setResult v).unbroken = s.unbroken := rfl
@[simp] theorem State.setResult_ie (s : State) (v : Result) : (s.setResult v).ie = s.ie := rfl
@[simp] theorem State.setResult_baseValid (s : State) (v : Result) : (s.setResult v).baseValid = s.baseValid := rfl
@[simp] theorem State.setResult_startup (s : State) (v : Result) : (s.setResult v).startup = s.startup := rfl
@[simp] theorem State.setResult_outq (s : State) (v : Result) : (s.setResult v).outq = s.outq := rfl
@[simp] theorem State.setResult_inq (s : State) (v : Result) : (s.setResult v).inq = s.inq := rfl
@[simp] theorem State.setResult_mboxPeek (s : State) (v : Result) : (s.setResult v).mboxPeek = s.mboxPeek := rfl
@[simp] theorem State.setResult_mboxSender (s : State) (v : Result) : (s.setResult v).mboxSender = s.mboxSender := rfl
@[simp] theorem State.setResult_mboxConfig (s : State) (v : Result) : (s.setResult v).mboxConfig = s.mboxConfig := rfl
@[simp] theorem State.setResult_fwPending (s : State) (v : Result) : (s.setResult v).fwPending = s.fwPending := rfl
@[simp] theorem State.setResult_running (s : State) (v : Result) : (s.setResult v).running = s.running := rfl
@[simp] theorem State.setResult_recipe (s : State) (v : Result) : (s.setResult v).recipe = s.recipe := rfl
@[simp] theorem State.setResult_readData (s : State) (v : Result) : (s.setResult v).readData = s.readData := rfl
@[simp] theorem State.setResult_draws (s : State) (v : Result) : (s.setResult v).draws = s.draws := rfl
@[simp] theorem State.setResult_agenda (s : State) (v : Result) : (s.setResult v).agenda = s.agenda := rfl

@[simp] theorem State.setValue64_cfg (s : State) (v : BitVec 64) : (s.setValue64 v).cfg = s.cfg := rfl
@[simp] theorem State.setValue64_mem (s : State) (v : BitVec 64) : (s.setValue64 v).mem = s.mem := rfl
@[simp] theorem State.setValue64_phase (s : State) (v : BitVec 64) : (s.setValue64 v).phase = s.phase := rfl
@[simp] theorem State.setValue64_sub (s : State) (v : BitVec 64) : (s.setValue64 v).sub = s.sub := rfl
@[simp] theorem State.setValue64_resp (s : State) (v : BitVec 64) : (s.setValue64 v).resp = s.resp := rfl
@[simp] theorem State.setValue64_result (s : State) (v : BitVec 64) : (s.setValue64 v).result = s.result := rfl
@[simp] theorem State.setValue64_value64 (s : State) (v : BitVec 64) : (s.setValue64 v).value64 = v := rfl
@[simp] theorem State.setValue64_polls (s : State) (v : BitVec 64) : (s.setValue64 v).polls = s.polls := rfl
@[simp] theorem State.setValue64_locks (s : State) (v : BitVec 64) : (s.setValue64 v).locks = s.locks := rfl
@[simp] theorem State.setValue64_unbroken (s : State) (v : BitVec 64) : (s.setValue64 v).unbroken = s.unbroken := rfl
@[simp] theorem State.setValue64_ie (s : State) (v : BitVec 64) : (s.setValue64 v).ie = s.ie := rfl
@[simp] theorem State.setValue64_baseValid (s : State) (v : BitVec 64) : (s.setValue64 v).baseValid = s.baseValid := rfl
@[simp] theorem State.setValue64_startup (s : State) (v : BitVec 64) : (s.setValue64 v).startup = s.startup := rfl
@[simp] theorem State.setValue64_outq (s : State) (v : BitVec 64) : (s.setValue64 v).outq = s.outq := rfl
@[simp] theorem State.setValue64_inq (s : State) (v : BitVec 64) : (s.setValue64 v).inq = s.inq := rfl
@[simp] theorem State.setValue64_mboxPeek (s : State) (v : BitVec 64) : (s.setValue64 v).mboxPeek = s.mboxPeek := rfl
@[simp] theorem State.setValue64_mboxSender (s : State) (v : BitVec 64) : (s.setValue64 v).mboxSender = s.mboxSender := rfl
@[simp] theorem State.setValue64_mboxConfig (s : State) (v : BitVec 64) : (s.setValue64 v).mboxConfig = s.mboxConfig := rfl
@[simp] theorem State.setValue64_fwPending (s : State) (v : BitVec 64) : (s.setValue64 v).fwPending = s.fwPending := rfl
@[simp] theorem State.setValue64_running (s : State) (v : BitVec 64) : (s.setValue64 v).running = s.running := rfl
@[simp] theorem State.setValue64_recipe (s : State) (v : BitVec 64) : (s.setValue64 v).recipe = s.recipe := rfl
@[simp] theorem State.setValue64_readData (s : State) (v : BitVec 64) : (s.setValue64 v).readData = s.readData := rfl
@[simp] theorem State.setValue64_draws (s : State) (v : BitVec 64) : (s.setValue64 v).draws = s.draws := rfl
@[simp] theorem State.setValue64_agenda (s : State) (v : BitVec 64) : (s.setValue64 v).agenda = s.agenda := rfl

@[simp] theorem State.setPolls_cfg (s : State) (v : Nat) : (s.setPolls v).cfg = s.cfg := rfl
@[simp] theorem State.setPolls_mem (s : State) (v : Nat) : (s.setPolls v).mem = s.mem := rfl
@[simp] theorem State.setPolls_phase (s : State) (v : Nat) : (s.setPolls v).phase = s.phase := rfl
@[simp] theorem State.setPolls_sub (s : State) (v : Nat) : (s.setPolls v).sub = s.sub := rfl
@[simp] theorem State.setPolls_resp (s : State) (v : Nat) : (s.setPolls v).resp = s.resp := rfl
@[simp] theorem State.setPolls_result (s : State) (v : Nat) : (s.setPolls v).result = s.result := rfl
@[simp] theorem State.setPolls_value64 (s : State) (v : Nat) : (s.setPolls v).value64 = s.value64 := rfl
@[simp] theorem State.setPolls_polls (s : State) (v : Nat) : (s.setPolls v).polls = v := rfl
@[simp] theorem State.setPolls_locks (s : State) (v : Nat) : (s.setPolls v).locks = s.locks := rfl
@[simp] theorem State.setPolls_unbroken (s : State) (v : Nat) : (s.setPolls v).unbroken = s.unbroken := rfl
@[simp] theorem State.setPolls_ie (s : State) (v : Nat) : (s.setPolls v).ie = s.ie := rfl
@[simp] theorem State.setPolls_baseValid (s : State) (v : Nat) : (s.setPolls v).baseValid = s.baseValid := rfl
@[simp] theorem State.setPolls_startup (s : State) (v : Nat) : (s.setPolls v).startup = s.startup := rfl
@[simp] theorem State.setPolls_outq (s : State) (v : Nat) : (s.setPolls v).outq = s.outq := rfl
@[simp] theorem State.setPolls_inq (s : State) (v : Nat) : (s.setPolls v).inq = s.inq := rfl
@[simp] theorem State.setPolls_mboxPeek (s : State) (v : Nat) : (s.setPolls v).mboxPeek = s.mboxPeek := rfl
@[simp] theorem State.setPolls_mboxSender (s : State) (v : Nat) : (s.setPolls v).mboxSender = s.mboxSender := rfl
@[simp] theorem State.setPolls_mboxConfig (s : State) (v : Nat) : (s.setPolls v).mboxConfig = s.mboxConfig := rfl
@[simp] theorem State.setPolls_fwPending (s : State) (v : Nat) : (s.setPolls v).fwPending = s.fwPending := rfl
@[simp] theorem State.setPolls_running (s : State) (v : Nat) : (s.setPolls v).running = s.running := rfl
@[simp] theorem State.setPolls_recipe (s : State) (v : Nat) : (s.setPolls v).recipe = s.recipe := rfl
@[simp] theorem State.setPolls_readData (s : State) (v : Nat) : (s.setPolls v).readData = s.readData := rfl
@[simp] theorem State.setPolls_draws (s : State) (v : Nat) : (s.setPolls v).draws = s.draws := rfl
@[simp] theorem State.setPolls_agenda (s : State) (v : Nat) : (s.setPolls v).agenda = s.agenda := rfl

@[simp] theorem State.setLocks_cfg (s : State) (v : List LockCell) : (s.setLocks v).cfg = s.cfg := rfl
@[simp] theorem State.setLocks_mem (s : State) (v : List LockCell) : (s.setLocks v).mem = s.mem := rfl
@[simp] theorem State.setLocks_phase (s : State) (v : List LockCell) : (s.setLocks v).phase = s.phase := rfl
@[simp] theorem State.setLocks_sub (s : State) (v : List LockCell) : (s.setLocks v).sub = s.sub := rfl
@[simp] theorem State.setLocks_resp (s : State) (v : List LockCell) : (s.setLocks v).resp = s.resp := rfl
@[simp] theorem State.setLocks_result (s : State) (v : List LockCell) : (s.setLocks v).result = s.result := rfl
@[simp] theorem State.setLocks_value64 (s : State) (v : List LockCell) : (s.setLocks v).value64 = s.value64 := rfl
@[simp] theorem State.setLocks_polls (s : State) (v : List LockCell) : (s.setLocks v).polls = s.polls := rfl
@[simp] theorem State.setLocks_locks (s : State) (v : List LockCell) : (s.setLocks v).locks = v := rfl
@[simp] theorem State.setLocks_unbroken (s : State) (v : List LockCell) : (s.setLocks v).unbroken = s.unbroken := rfl
@[simp] theorem State.setLocks_ie (s : State) (v : List LockCell) : (s.setLocks v).ie = s.ie := rfl
@[simp] theorem State.setLocks_baseValid (s : State) (v : List LockCell) : (s.setLocks v).baseValid = s.baseValid := rfl
@[simp] theorem State.setLocks_startup (s : State) (v : List LockCell) : (s.setLocks v).startup = s.startup := rfl
@[simp] theorem State.setLocks_outq (s : State) (v : List LockCell) : (s.setLocks v).outq = s.outq := rfl
@[simp] theorem State.setLocks_inq (s : State) (v : List LockCell) : (s.setLocks v).inq = s.inq := rfl
@[simp] theorem State.setLocks_mboxPeek (s : State) (v : List LockCell) : (s.setLocks v).mboxPeek = s.mboxPeek := rfl
@[simp] theorem State.setLocks_mboxSender (s : State) (v : List LockCell) : (s.setLocks v).mboxSender = s.mboxSender := rfl
@[simp] theorem State.setLocks_mboxConfig (s : State) (v : List LockCell) : (s.setLocks v).mboxConfig = s.mboxConfig := rfl
@[simp] theorem State.setLocks_fwPending (s : State) (v : List LockCell) : (s.setLocks v).fwPending = s.fwPending := rfl
@[simp] theorem State.setLocks_running (s : State) (v : List LockCell) : (s.setLocks v).running = s.running := rfl
@[simp] theorem State.setLocks_recipe (s : State) (v : List LockCell) : (s.setLocks v).recipe = s.recipe := rfl
@[simp] theorem State.setLocks_readData (s : State) (v : List LockCell) : (s.setLocks v).readData = s.readData := rfl
@[simp] theorem State.setLocks_draws (s : State) (v : List LockCell) : (s.setLocks v).draws = s.draws := rfl
@[simp] theorem State.setLocks_agenda (s : State) (v : List LockCell) : (s.setLocks v).agenda = s.agenda := rfl

@[simp] theorem State.setUnbroken_cfg (s : State) (v : Bool) : (s.setUnbroken v).cfg = s.cfg := rfl
@[simp] theorem State.setUnbroken_mem (s : State) (v : Bool) : (s.setUnbroken v).mem = s.mem := rfl
@[simp] theorem State.setUnbroken_phase (s : State) (v : Bool) : (s.setUnbroken v).phase = s.phase := rfl
@[simp] theorem State.setUnbroken_sub (s : State) (v : Bool) : (s.setUnbroken v).sub = s.sub := rfl
@[simp] theorem State.setUnbroken_resp (s : State) (v : Bool) : (s.setUnbroken v).resp = s.resp := rfl
@[simp] theorem State.setUnbroken_result (s : State) (v : Bool) : (s.setUnbroken v).result = s.result := rfl
@[simp] theorem State.setUnbroken_value64 (s : State) (v : Bool) : (s.setUnbroken v).value64 = s.value64 := rfl
@[simp] theorem State.setUnbroken_polls (s : State) (v : Bool) : (s.setUnbroken v).polls = s.polls := rfl
@[simp] theorem State.setUnbroken_locks (s : State) (v : Bool) : (s.setUnbroken v).locks = s.locks := rfl
@[simp] theorem State.setUnbroken_unbroken (s : State) (v : Bool) : (s.setUnbroken v).unbroken = v := rfl
@[simp] theorem State.setUnbroken_ie (s : State) (v : Bool) : (s.setUnbroken v).ie = s.ie := rfl
@[simp] theorem State.setUnbroken_baseValid (s : State) (v : Bool) : (s.setUnbroken v).baseValid = s.baseValid := rfl
@[simp] theorem State.setUnbroken_startup (s : State) (v : Bool) : (s.setUnbroken v).startup = s.startup := rfl
@[simp] theorem State.setUnbroken_outq (s : State) (v : Bool) : (s.setUnbroken v).outq = s.outq := rfl
@[simp] theorem State.setUnbroken_inq (s : State) (v : Bool) : (s.setUnbroken v).inq = s.inq := rfl
@[simp] theorem State.setUnbroken_mboxPeek (s : State) (v : Bool) : (s.setUnbroken v).mboxPeek = s.mboxPeek := rfl
@[simp] theorem State.setUnbroken_mboxSender (s : State) (v : Bool) : (s.setUnbroken v).mboxSender = s.mboxSender := rfl
@[simp] theorem State.setUnbroken_mboxConfig (s : State) (v : Bool) : (s.setUnbroken v).mboxConfig = s.mboxConfig := rfl
@[simp] theorem State.setUnbroken_fwPending (s : State) (v : Bool) : (s.setUnbroken v).fwPending = s.fwPending := rfl
@[simp] theorem State.setUnbroken_running (s : State) (v : Bool) : (s.setUnbroken v).running = s.running := rfl
@[simp] theorem State.setUnbroken_recipe (s : State) (v : Bool) : (s.setUnbroken v).recipe = s.recipe := rfl
@[simp] theorem State.setUnbroken_readData (s : State) (v : Bool) : (s.setUnbroken v).readData = s.readData := rfl
@[simp] theorem State.setUnbroken_draws (s : State) (v : Bool) : (s.setUnbroken v).draws = s.draws := rfl
@[simp] theorem State.setUnbroken_agenda (s : State) (v : Bool) : (s.setUnbroken v).agenda = s.agenda := rfl

@[simp] theorem State.setIe_cfg (s : State) (v : Bool) : (s.setIe v).cfg = s.cfg := rfl
@[simp] theorem State.setIe_mem (s : State) (v : Bool) : (s.setIe v).mem = s.mem := rfl
@[simp] theorem State.setIe_phase (s : State) (v : Bool) : (s.setIe v).phase = s.phase := rfl
@[simp] theorem State.setIe_sub (s : State) (v : Bool) : (s.setIe v).sub = s.sub := rfl
@[simp] theorem State.setIe_resp (s : State) (v : Bool) : (s.setIe v).resp = s.resp := rfl
@[simp] theorem State.setIe_result (s : State) (v : Bool) : (s.setIe v).result = s.result := rfl
@[simp] theorem State.setIe_value64 (s : State) (v : Bool) : (s.setIe v).value64 = s.value64 := rfl
@[simp] theorem State.setIe_polls (s : State) (v : Bool) : (s.setIe v).polls = s.polls := rfl
@[simp] theorem State.setIe_locks (s : State) (v : Bool) : (s.setIe v).locks = s.locks := rfl
@[simp] theorem State.setIe_unbroken (s : State) (v : Bool) : (s.setIe v).unbroken = s.unbroken := rfl
@[simp] theorem State.setIe_ie (s : State) (v : Bool) : (s.setIe v).ie = v := rfl
@[simp] theorem State.setIe_baseValid (s : State) (v : Bool) : (s.setIe v).baseValid = s.baseValid := rfl
@[simp] theorem State.setIe_startup (s : State) (v : Bool) : (s.setIe v).startup = s.startup := rfl
@[simp] theorem State.setIe_outq (s : State) (v : Bool) : (s.setIe v).outq = s.outq := rfl
@[simp] theorem State.setIe_inq (s : State) (v : Bool) : (s.setIe v).inq = s.inq := rfl
@[simp] theorem State.setIe_mboxPeek (s : State) (v : Bool) : (s.setIe v).mboxPeek = s.mboxPeek := rfl
@[simp] theorem State.setIe_mboxSender (s : State) (v : Bool) : (s.setIe v).mboxSender = s.mboxSender := rfl
@[simp] theorem State.setIe_mboxConfig (s : State) (v : Bool) : (s.setIe v).mboxConfig = s.mboxConfig := rfl
@[simp] theorem State.setIe_fwPending (s : State) (v : Bool) : (s.setIe v).fwPending = s.fwPending := rfl
@[simp] theorem State.setIe_running (s : State) (v : Bool) : (s.setIe v).running = s.running := rfl
@[simp] theorem State.setIe_recipe (s : State) (v : Bool) : (s.setIe v).recipe = s.recipe := rfl
@[simp] theorem State.setIe_readData (s : State) (v : Bool) : (s.setIe v).readData = s.readData := rfl
@[simp] theorem State.setIe_draws (s : State) (v : Bool) : (s.setIe v).draws = s.draws := rfl
@[simp] theorem State.setIe_agenda (s : State) (v : Bool) : (s.setIe v).agenda = s.agenda := rfl

@[simp] theorem State.setBaseValid_cfg (s : State) (v : Bool) : (s.setBaseValid v).cfg = s.cfg := rfl
@[simp] theorem State.setBaseValid_mem (s : State) (v : Bool) : (s.setBaseValid v).mem = s.mem := rfl
@[simp] theorem State.setBaseValid_phase (s : State) (v : Bool) : (s.setBaseValid v).phase = s.phase := rfl
@[simp] theorem State.setBaseValid_sub (s : State) (v : Bool) : (s.setBaseValid v).sub = s.sub := rfl
@[simp] theorem State.setBaseValid_resp (s : State) (v : Bool) : (s.setBaseValid v).resp = s.resp := rfl
@[simp] theorem State.setBaseValid_result (s : State) (v : Bool) : (s.setBaseValid v).result = s.result := rfl
@[simp] theorem State.setBaseValid_value64 (s : State) (v : Bool) : (s.setBaseValid v).value64 = s.value64 := rfl
@[simp] theorem State.setBaseValid_polls (s : State) (v : Bool) : (s.setBaseValid v).polls = s.polls := rfl
@[simp] theorem State.setBaseValid_locks (s : State) (v : Bool) : (s.setBaseValid v).locks = s.locks := rfl
@[simp] theorem State.setBaseValid_unbroken (s : State) (v : Bool) : (s.setBaseValid v).unbroken = s.unbroken := rfl
@[simp] theorem State.setBaseValid_ie (s : State) (v : Bool) : (s.setBaseValid v).ie = s.ie := rfl
@[simp] theorem State.setBaseValid_baseValid (s : State) (v : Bool) : (s.setBaseValid v).baseValid = v := rfl
@[simp] theorem State.setBaseValid_startup (s : State) (v : Bool) : (s.setBaseValid v).startup = s.startup := rfl
@[simp] theorem State.setBaseValid_outq (s : State) (v : Bool) : (s.setBaseValid v).outq = s.outq := rfl
@[simp] theorem State.setBaseValid_inq (s : State) (v : Bool) : (s.setBaseValid v).inq = s.inq := rfl
@[simp] theorem State.setBaseValid_mboxPeek (s : State) (v : Bool) : (s.setBaseValid v).mboxPeek = s.mboxPeek := rfl
@[simp] theorem State.setBaseValid_mboxSender (s : State) (v : Bool) : (s.setBaseValid v).mboxSender = s.mboxSender := rfl
@[simp] theorem State.setBaseValid_mboxConfig (s : State) (v : Bool) : (s.setBaseValid v).mboxConfig = s.mboxConfig := rfl
@[simp] theorem State.setBaseValid_fwPending (s : State) (v : Bool) : (s.setBaseValid v).fwPending = s.fwPending := rfl
@[simp] theorem State.setBaseValid_running (s : State) (v : Bool) : (s.setBaseValid v).running = s.running := rfl
@[simp] theorem State.setBaseValid_recipe (s : State) (v : Bool) : (s.setBaseValid v).recipe = s.recipe := rfl
@[simp] theorem State.setBaseValid_readData (s : State) (v : Bool) : (s.setBaseValid v).readData = s.readData := rfl
@[simp] theorem State.setBaseValid_draws (s : State) (v : Bool) : (s.setBaseValid v).draws = s.draws := rfl
@[simp] theorem State.setBaseValid_agenda (s : State) (v : Bool) : (s.setBaseValid v).agenda = s.agenda := rfl

@[simp] theorem State.setStartup_cfg (s : State) (v : Option Kind) : (s.setStartup v).cfg = s.cfg := rfl
@[simp] theorem State.setStartup_mem (s : State) (v : Option Kind) : (s.setStartup v).mem = s.mem := rfl
@[simp] theorem State.setStartup_phase (s : State) (v : Option Kind) : (s.setStartup v).phase = s.phase := rfl
@[simp] theorem State.setStartup_sub (s : State) (v : Option Kind) : (s.setStartup v).sub = s.sub := rfl
@[simp] theorem State.setStartup_resp (s : State) (v : Option Kind) : (s.setStartup v).resp = s.resp := rfl
@[simp] theorem State.setStartup_result (s : State) (v : Option Kind) : (s.setStartup v).result = s.result := rfl
@[simp] theorem State.setStartup_value64 (s : State) (v : Option Kind) : (s.setStartup v).value64 = s.value64 := rfl
@[simp] theorem State.setStartup_polls (s : State) (v : Option Kind) : (s.setStartup v).polls = s.polls := rfl
@[simp] theorem State.setStartup_locks (s : State) (v : Option Kind) : (s.setStartup v).locks = s.locks := rfl
@[simp] theorem State.setStartup_unbroken (s : State) (v : Option Kind) : (s.setStartup v).unbroken = s.unbroken := rfl
@[simp] theorem State.setStartup_ie (s : State) (v : Option Kind) : (s.setStartup v).ie = s.ie := rfl
@[simp] theorem State.setStartup_baseValid (s : State) (v : Option Kind) : (s.setStartup v).baseValid = s.baseValid := rfl
@[simp] theorem State.setStartup_startup (s : State) (v : Option Kind) : (s.setStartup v).startup = v := rfl
@[simp] theorem State.setStartup_outq (s : State) (v : Option Kind) : (s.setStartup v).outq = s.outq := rfl
@[simp] theorem State.setStartup_inq (s : State) (v : Option Kind) : (s.setStartup v).inq = s.inq := rfl
@[simp] theorem State.setStartup_mboxPeek (s : State) (v : Option Kind) : (s.setStartup v).mboxPeek = s.mboxPeek := rfl
@[simp] theorem State.setStartup_mboxSender (s : State) (v : Option Kind) : (s.setStartup v).mboxSender = s.mboxSender := rfl
@[simp] theorem State.setStartup_mboxConfig (s : State) (v : Option Kind) : (s.setStartup v).mboxConfig = s.mboxConfig := rfl
@[simp] theorem State.setStartup_fwPending (s : State) (v : Option Kind) : (s.setStartup v).fwPending = s.fwPending := rfl
@[simp] theorem State.setStartup_running (s : State) (v : Option Kind) : (s.setStartup v).running = s.running := rfl
@[simp] theorem State.setStartup_recipe (s : State) (v : Option Kind) : (s.setStartup v).recipe = s.recipe := rfl
@[simp] theorem State.setStartup_readData (s : State) (v : Option Kind) : (s.setStartup v).readData = s.readData := rfl
@[simp] theorem State.setStartup_draws (s : State) (v : Option Kind) : (s.setStartup v).draws = s.draws := rfl
@[simp] theorem State.setStartup_agenda (s : State) (v : Option Kind) : (s.setStartup v).agenda = s.agenda := rfl

@[simp] theorem State.setOutq_cfg (s : State) (v : List Word) : (s.setOutq v).cfg = s.cfg := rfl
@[simp] theorem State.setOutq_mem (s : State) (v : List Word) : (s.setOutq v).mem = s.mem := rfl
@[simp] theorem State.setOutq_phase (s : State) (v : List Word) : (s.setOutq v).phase = s.phase := rfl
@[simp] theorem State.setOutq_sub (s : State) (v : List Word) : (s.setOutq v).sub = s.sub := rfl
@[simp] theorem State.setOutq_resp (s : State) (v : List Word) : (s.setOutq v).resp = s.resp := rfl
@[simp] theorem State.setOutq_result (s : State) (v : List Word) : (s.setOutq v).result = s.result := rfl
@[simp] theorem State.setOutq_value64 (s : State) (v : List Word) : (s.setOutq v).value64 = s.value64 := rfl
@[simp] theorem State.setOutq_polls (s : State) (v : List Word) : (s.setOutq v).polls = s.polls := rfl
@[simp] theorem State.setOutq_locks (s : State) (v : List Word) : (s.setOutq v).locks = s.locks := rfl
@[simp] theorem State.setOutq_unbroken (s : State) (v : List Word) : (s.setOutq v).unbroken = s.unbroken := rfl
@[simp] theorem State.setOutq_ie (s : State) (v : List Word) : (s.setOutq v).ie = s.ie := rfl
@[simp] theorem State.setOutq_baseValid (s : State) (v : List Word) : (s.setOutq v).baseValid = s.baseValid := rfl
@[simp] theorem State.setOutq_startup (s : State) (v : List Word) : (s.setOutq v).startup = s.startup := rfl
@[simp] theorem State.setOutq_outq (s : State) (v : List Word) : (s.setOutq v).outq = v := rfl
@[simp] theorem State.setOutq_inq (s : State) (v : List Word) : (s.setOutq v).inq = s.inq := rfl
@[simp] theorem State.setOutq_mboxPeek (s : State) (v : List Word) : (s.setOutq v).mboxPeek = s.mboxPeek := rfl
@[simp] theorem State.setOutq_mboxSender (s : State) (v : List Word) : (s.setOutq v).mboxSender = s.mboxSender := rfl
@[simp] theorem State.setOutq_mboxConfig (s : State) (v : List Word) : (s.setOutq v).mboxConfig = s.mboxConfig := rfl
@[simp] theorem State.setOutq_fwPending (s : State) (v : List Word) : (s.setOutq v).fwPending = s.fwPending := rfl
@[simp] theorem State.setOutq_running (s : State) (v : List Word) : (s.setOutq v).running = s.running := rfl
@[simp] theorem State.setOutq_recipe (s : State) (v : List Word) : (s.setOutq v).recipe = s.recipe := rfl
@[simp] theorem State.setOutq_readData (s : State) (v : List Word) : (s.setOutq v).readData = s.readData := rfl
@[simp] theorem State.setOutq_draws (s : State) (v : List Word) : (s.setOutq v).draws = s.draws := rfl
@[simp] theorem State.setOutq_agenda (s : State) (v : List Word) : (s.setOutq v).agenda = s.agenda := rfl

@[simp] theorem State.setInq_cfg (s : State) (v : List Word) : (s.setInq v).cfg = s.cfg := rfl
@[simp] theorem State.setInq_mem (s : State) (v : List Word) : (s.setInq v).mem = s.mem := rfl
@[simp] theorem State.setInq_phase (s : State) (v : List Word) : (s.setInq v).phase = s.phase := rfl
@[simp] theorem State.setInq_sub (s : State) (v : List Word) : (s.setInq v).sub = s.sub := rfl
@[simp] theorem State.setInq_resp (s : State) (v : List Word) : (s.setInq v).resp = s.resp := rfl
@[simp] theorem State.setInq_result (s : State) (v : List Word) : (s.setInq v).result = s.result := rfl
@[simp] theorem State.setInq_value64 (s : State) (v : List Word) : (s.setInq v).value64 = s.value64 := rfl
@[simp] theorem State.setInq_polls (s : State) (v : List Word) : (s.setInq v).polls = s.polls := rfl
@[simp] theorem State.setInq_locks (s : State) (v : List Word) : (s.setInq v).locks = s.locks := rfl
@[simp] theorem State.setInq_unbroken (s : State) (v : List Word) : (s.setInq v).unbroken = s.unbroken := rfl
@[simp] theorem State.setInq_ie (s : State) (v : List Word) : (s.setInq v).ie = s.ie := rfl
@[simp] theorem State.setInq_baseValid (s : State) (v : List Word) : (s.setInq v).baseValid = s.baseValid := rfl
@[simp] theorem State.setInq_startup (s : State) (v : List Word) : (s.setInq v).startup = s.startup := rfl
@[simp] theorem State.setInq_outq (s : State) (v : List Word) : (s.setInq v).outq = s.outq := rfl
@[simp] theorem State.setInq_inq (s : State) (v : List Word) : (s.setInq v).inq = v := rfl
@[simp] theorem State.setInq_mboxPeek (s : State) (v : List Word) : (s.setInq v).mboxPeek = s.mboxPeek := rfl
@[simp] theorem State.setInq_mboxSender (s : State) (v : List Word) : (s.setInq v).mboxSender = s.mboxSender := rfl
@[simp] theorem State.setInq_mboxConfig (s : State) (v : List Word) : (s.setInq v).mboxConfig = s.mboxConfig := rfl
@[simp] theorem State.setInq_fwPending (s : State) (v : List Word) : (s.setInq v).fwPending = s.fwPending := rfl
@[simp] theorem State.setInq_running (s : State) (v : List Word) : (s.setInq v).running = s.running := rfl
@[simp] theorem State.setInq_recipe (s : State) (v : List Word) : (s.setInq v).recipe = s.recipe := rfl
@[simp] theorem State.setInq_readData (s : State) (v : List Word) : (s.setInq v).readData = s.readData := rfl
@[simp] theorem State.setInq_draws (s : State) (v : List Word) : (s.setInq v).draws = s.draws := rfl
@[simp] theorem State.setInq_agenda (s : State) (v : List Word) : (s.setInq v).agenda = s.agenda := rfl

@[simp] theorem State.setFwPending_cfg (s : State) (v : List Word) : (s.setFwPending v).cfg = s.cfg := rfl
@[simp] theorem State.setFwPending_mem (s : State) (v : List Word) : (s.setFwPending v).mem = s.mem := rfl
@[simp] theorem State.setFwPending_phase (s : State) (v : List Word) : (s.setFwPending v).phase = s.phase := rfl
@[simp] theorem State.setFwPending_sub (s : State) (v : List Word) : (s.setFwPending v).sub = s.sub := rfl
@[simp] theorem State.setFwPending_resp (s : State) (v : List Word) : (s.setFwPending v).resp = s.resp := rfl
@[simp] theorem State.setFwPending_result (s : State) (v : List Word) : (s.setFwPending v).result = s.result := rfl
@[simp] theorem State.setFwPending_value64 (s : State) (v : List Word) : (s.setFwPending v).value64 = s.value64 := rfl
@[simp] theorem State.setFwPending_polls (s : State) (v : List Word) : (s.setFwPending v).polls = s.polls := rfl
@[simp] theorem State.setFwPending_locks (s : State) (v : List Word) : (s.setFwPending v).locks = s.locks := rfl
@[simp] theorem State.setFwPending_unbroken (s : State) (v : List Word) : (s.setFwPending v).unbroken = s.unbroken := rfl
@[simp] theorem State.setFwPending_ie (s : State) (v : List Word) : (s.setFwPending v).ie = s.ie := rfl
@[simp] theorem State.setFwPending_baseValid (s : State) (v : List Word) : (s.setFwPending v).baseValid = s.baseValid := rfl
@[simp] theorem State.setFwPending_startup (s : State) (v : List Word) : (s.setFwPending v).startup = s.startup := rfl
@[simp] theorem State.setFwPending_outq (s : State) (v : List Word) : (s.setFwPending v).outq = s.outq := rfl
@[simp] theorem State.setFwPending_inq (s : State) (v : List Word) : (s.setFwPending v).inq = s.inq := rfl
@[simp] theorem State.setFwPending_mboxPeek (s : State) (v : List Word) : (s.setFwPending v).mboxPeek = s.mboxPeek := rfl
@[simp] theorem State.setFwPending_mboxSender (s : State) (v : List Word) : (s.setFwPending v).mboxSender = s.mboxSender := rfl
@[simp] theorem State.setFwPending_mboxConfig (s : State) (v : List Word) : (s.setFwPending v).mboxConfig = s.mboxConfig := rfl
@[simp] theorem State.setFwPending_fwPending (s : State) (v : List Word) : (s.setFwPending v).fwPending = v := rfl
@[simp] theorem State.setFwPending_running (s : State) (v : List Word) : (s.setFwPending v).running = s.running := rfl
@[simp] theorem State.setFwPending_recipe (s : State) (v : List Word) : (s.setFwPending v).recipe = s.recipe := rfl
@[simp] theorem State.setFwPending_readData (s : State) (v : List Word) : (s.setFwPending v).readData = s.readData := rfl
@[simp] theorem State.setFwPending_draws (s : State) (v : List Word) : (s.setFwPending v).draws = s.draws := rfl
@[simp] theorem State.setFwPending_agenda (s : State) (v : List Word) : (s.setFwPending v).agenda = s.agenda := rfl

@[simp] theorem State.setRunning_cfg (s : State) (v : Agent) : (s.setRunning v).cfg = s.cfg := rfl
@[simp] theorem State.setRunning_mem (s : State) (v : Agent) : (s.setRunning v).mem = s.mem := rfl
@[simp] theorem State.setRunning_phase (s : State) (v : Agent) : (s.setRunning v).phase = s.phase := rfl
@[simp] theorem State.setRunning_sub (s : State) (v : Agent) : (s.setRunning v).sub = s.sub := rfl
@[simp] theorem State.setRunning_resp (s : State) (v : Agent) : (s.setRunning v).resp = s.resp := rfl
@[simp] theorem State.setRunning_result (s : State) (v : Agent) : (s.setRunning v).result = s.result := rfl
@[simp] theorem State.setRunning_value64 (s : State) (v : Agent) : (s.setRunning v).value64 = s.value64 := rfl
@[simp] theorem State.setRunning_polls (s : State) (v : Agent) : (s.setRunning v).polls = s.polls := rfl
@[simp] theorem State.setRunning_locks (s : State) (v : Agent) : (s.setRunning v).locks = s.locks := rfl
@[simp] theorem State.setRunning_unbroken (s : State) (v : Agent) : (s.setRunning v).unbroken = s.unbroken := rfl
@[simp] theorem State.setRunning_ie (s : State) (v : Agent) : (s.setRunning v).ie = s.ie := rfl
@[simp] theorem State.setRunning_baseValid (s : State) (v : Agent) : (s.setRunning v).baseValid = s.baseValid := rfl
@[simp] theorem State.setRunning_startup (s : State) (v : Agent) : (s.setRunning v).startup = s.startup := rfl
@[simp] theorem State.setRunning_outq (s : State) (v : Agent) : (s.setRunning v).outq = s.outq := rfl
@[simp] theorem State.setRunning_inq (s : State) (v : Agent) : (s.setRunning v).inq = s.inq := rfl
@[simp] theorem State.setRunning_mboxPeek (s : State) (v : Agent) : (s.setRunning v).mboxPeek = s.mboxPeek := rfl
@[simp] theorem State.setRunning_mboxSender (s : State) (v : Agent) : (s.setRunning v).mboxSender = s.mboxSender := rfl
@[simp] theorem State.setRunning_mboxConfig (s : State) (v : Agent) : (s.setRunning v).mboxConfig = s.mboxConfig := rfl
@[simp] theorem State.setRunning_fwPending (s : State) (v : Agent) : (s.setRunning v).fwPending = s.fwPending := rfl
@[simp] theorem State.setRunning_running (s : State) (v : Agent) : (s.setRunning v).running = v := rfl
@[simp] theorem State.setRunning_recipe (s : State) (v : Agent) : (s.setRunning v).recipe = s.recipe := rfl
@[simp] theorem State.setRunning_readData (s : State) (v : Agent) : (s.setRunning v).readData = s.readData := rfl
@[simp] theorem State.setRunning_draws (s : State) (v : Agent) : (s.setRunning v).draws = s.draws := rfl
@[simp] theorem State.setRunning_agenda (s : State) (v : Agent) : (s.setRunning v).agenda = s.agenda := rfl

@[simp] theorem State.setRecipe_cfg (s : State) (v : Option RecipeRun) : (s.setRecipe v).cfg = s.cfg := rfl
@[simp] theorem State.setRecipe_mem (s : State) (v : Option RecipeRun) : (s.setRecipe v).mem = s.mem := rfl
@[simp] theorem State.setRecipe_phase (s : State) (v : Option RecipeRun) : (s.setRecipe v).phase = s.phase := rfl
@[simp] theorem State.setRecipe_sub (s : State) (v : Option RecipeRun) : (s.setRecipe v).sub = s.sub := rfl
@[simp] theorem State.setRecipe_resp (s : State) (v : Option RecipeRun) : (s.setRecipe v).resp = s.resp := rfl
@[simp] theorem State.setRecipe_result (s : State) (v : Option RecipeRun) : (s.setRecipe v).result = s.result := rfl
@[simp] theorem State.setRecipe_value64 (s : State) (v : Option RecipeRun) : (s.setRecipe v).value64 = s.value64 := rfl
@[simp] theorem State.setRecipe_polls (s : State) (v : Option RecipeRun) : (s.setRecipe v).polls = s.polls := rfl
@[simp] theorem State.setRecipe_locks (s : State) (v : Option RecipeRun) : (s.setRecipe v).locks = s.locks := rfl
@[simp] theorem State.setRecipe_unbroken (s : State) (v : Option RecipeRun) : (s.setRecipe v).unbroken = s.unbroken := rfl
@[simp] theorem State.setRecipe_ie (s : State) (v : Option RecipeRun) : (s.setRecipe v).ie = s.ie := rfl
@[simp] theorem State.setRecipe_baseValid (s : State) (v : Option RecipeRun) : (s.setRecipe v).baseValid = s.baseValid := rfl
@[simp] theorem State.setRecipe_startup (s : State) (v : Option RecipeRun) : (s.setRecipe v).startup = s.startup := rfl
@[simp] theorem State.setRecipe_outq (s : State) (v : Option RecipeRun) : (s.setRecipe v).outq = s.outq := rfl
@[simp] theorem State.setRecipe_inq (s : State) (v : Option RecipeRun) : (s.setRecipe v).inq = s.inq := rfl
@[simp] theorem State.setRecipe_mboxPeek (s : State) (v : Option RecipeRun) : (s.setRecipe v).mboxPeek = s.mboxPeek := rfl
@[simp] theorem State.setRecipe_mboxSender (s : State) (v : Option RecipeRun) : (s.setRecipe v).mboxSender = s.mboxSender := rfl
@[simp] theorem State.setRecipe_mboxConfig (s : State) (v : Option RecipeRun) : (s.setRecipe v).mboxConfig = s.mboxConfig := rfl
@[simp] theorem State.setRecipe_fwPending (s : State) (v : Option RecipeRun) : (s.setRecipe v).fwPending = s.fwPending := rfl
@[simp] theorem State.setRecipe_running (s : State) (v : Option RecipeRun) : (s.setRecipe v).running = s.running := rfl
@[simp] theorem State.setRecipe_recipe (s : State) (v : Option RecipeRun) : (s.setRecipe v).recipe = v := rfl
@[simp] theorem State.setRecipe_readData (s : State) (v : Option RecipeRun) : (s.setRecipe v).readData = s.readData := rfl
@[simp] theorem State.setRecipe_draws (s : State) (v : Option RecipeRun) : (s.setRecipe v).draws = s.draws := rfl
@[simp] theorem State.setRecipe_agenda (s : State) (v : Option RecipeRun) : (s.setRecipe v).agenda = s.agenda := rfl

@[simp] theorem State.setReadData_cfg (s : State) (v : Word) : (s.setReadData v).cfg = s.cfg := rfl
@[simp] theorem State.setReadData_mem (s : State) (v : Word) : (s.setReadData v).mem = s.mem := rfl
@[simp] theorem State.setReadData_phase (s : State) (v : Word) : (s.setReadData v).phase = s.phase := rfl
@[simp] theorem State.setReadData_sub (s : State) (v : Word) : (s.setReadData v).sub = s.sub := rfl
@[simp] theorem State.setReadData_resp (s : State) (v : Word) : (s.setReadData v).resp = s.resp := rfl
@[simp] theorem State.setReadData_result (s : State) (v : Word) : (s.setReadData v).result = s.result := rfl
@[simp] theorem State.setReadData_value64 (s : State) (v : Word) : (s.setReadData v).value64 = s.value64 := rfl
@[simp] theorem State.setReadData_polls (s : State) (v : Word) : (s.setReadData v).polls = s.polls := rfl
@[simp] theorem State.setReadData_locks (s : State) (v : Word) : (s.setReadData v).locks = s.locks := rfl
@[simp] theorem State.setReadData_unbroken (s : State) (v : Word) : (s.setReadData v).unbroken = s.unbroken := rfl
@[simp] theorem State.setReadData_ie (s : State) (v : Word) : (s.setReadData v).ie = s.ie := rfl
@[simp] theorem State.setReadData_baseValid (s : State) (v : Word) : (s.setReadData v).baseValid = s.baseValid := rfl
@[simp] theorem State.setReadData_startup (s : State) (v : Word) : (s.setReadData v).startup = s.startup := rfl
@[simp] theorem State.setReadData_outq (s : State) (v : Word) : (s.setReadData v).outq = s.outq := rfl
@[simp] theorem State.setReadData_inq (s : State) (v : Word) : (s.setReadData v).inq = s.inq := rfl
@[simp] theorem State.setReadData_mboxPeek (s : State) (v : Word) : (s.setReadData v).mboxPeek = s.mboxPeek := rfl
@[simp] theorem State.setReadData_mboxSender (s : State) (v : Word) : (s.setReadData v).mboxSender = s.mboxSender := rfl
@[simp] theorem State.setReadData_mboxConfig (s : State) (v : Word) : (s.setReadData v).mboxConfig = s.mboxConfig := rfl
@[simp] theorem State.setReadData_fwPending (s : State) (v : Word) : (s.setReadData v).fwPending = s.fwPending := rfl
@[simp] theorem State.setReadData_running (s : State) (v : Word) : (s.setReadData v).running = s.running := rfl
@[simp] theorem State.setReadData_recipe (s : State) (v : Word) : (s.setReadData v).recipe = s.recipe := rfl
@[simp] theorem State.setReadData_readData (s : State) (v : Word) : (s.setReadData v).readData = v := rfl
@[simp] theorem State.setReadData_draws (s : State) (v : Word) : (s.setReadData v).draws = s.draws := rfl
@[simp] theorem State.setReadData_agenda (s : State) (v : Word) : (s.setReadData v).agenda = s.agenda := rfl

@[simp] theorem State.setDraws_cfg (s : State) (v : Nat) : (s.setDraws v).cfg = s.cfg := rfl
@[simp] theorem State.setDraws_mem (s : State) (v : Nat) : (s.setDraws v).mem = s.mem := rfl
@[simp] theorem State.setDraws_phase (s : State) (v : Nat) : (s.setDraws v).phase = s.phase := rfl
@[simp] theorem State.setDraws_sub (s : State) (v : Nat) : (s.setDraws v).sub = s.sub := rfl
@[simp] theorem State.setDraws_resp (s : State) (v : Nat) : (s.setDraws v).resp = s.resp := rfl
@[simp] theorem State.setDraws_result (s : State) (v : Nat) : (s.setDraws v).result = s.result := rfl
@[simp] theorem State.setDraws_value64 (s : State) (v : Nat) : (s.setDraws v).value64 = s.value64 := rfl
@[simp] theorem State.setDraws_polls (s : State) (v : Nat) : (s.setDraws v).polls = s.polls := rfl
@[simp] theorem State.setDraws_locks (s : State) (v : Nat) : (s.setDraws v).locks = s.locks := rfl
@[simp] theorem State.setDraws_unbroken (s : State) (v : Nat) : (s.setDraws v).unbroken = s.unbroken := rfl
@[simp] theorem State.setDraws_ie (s : State) (v : Nat) : (s.setDraws v).ie = s.ie := rfl
@[simp] theorem State.setDraws_baseValid (s : State) (v : Nat) : (s.setDraws v).baseValid = s.baseValid := rfl
@[simp] theorem State.setDraws_startup (s : State) (v : Nat) : (s.setDraws v).startup = s.startup := rfl
@[simp] theorem State.setDraws_outq (s : State) (v : Nat) : (s.setDraws v).outq = s.outq := rfl
@[simp] theorem State.setDraws_inq (s : State) (v : Nat) : (s.setDraws v).inq = s.inq := rfl
@[simp] theorem State.setDraws_mboxPeek (s : State) (v : Nat) : (s.setDraws v).mboxPeek = s.mboxPeek := rfl
@[simp] theorem State.setDraws_mboxSender (s : State) (v : Nat) : (s.setDraws v).mboxSender = s.mboxSender := rfl
@[simp] theorem State.setDraws_mboxConfig (s : State) (v : Nat) : (s.setDraws v).mboxConfig = s.mboxConfig := rfl
@[simp] theorem State.setDraws_fwPending (s : State) (v : Nat) : (s.setDraws v).fwPending = s.fwPending := rfl
@[simp] theorem State.setDraws_running (s : State) (v : Nat) : (s.setDraws v).running = s.running := rfl
@[simp] theorem State.setDraws_recipe (s : State) (v : Nat) : (s.setDraws v).recipe = s.recipe := rfl
@[simp] theorem State.setDraws_readData (s : State) (v : Nat) : (s.setDraws v).readData = s.readData := rfl
@[simp] theorem State.setDraws_draws (s : State) (v : Nat) : (s.setDraws v).draws = v := rfl
@[simp] theorem State.setDraws_agenda (s : State) (v : Nat) : (s.setDraws v).agenda = s.agenda := rfl

@[simp] theorem State.setAgenda_cfg (s : State) (v : List Input) : (s.setAgenda v).cfg = s.cfg := rfl
@[simp] theorem State.setAgenda_mem (s : State) (v : List Input) : (s.setAgenda v).mem = s.mem := rfl
@[simp] theorem State.setAgenda_phase (s : State) (v : List Input) : (s.setAgenda v).phase = s.phase := rfl
@[simp] theorem State.setAgenda_sub (s : State) (v : List Input) : (s.setAgenda v).sub = s.sub := rfl
@[simp] theorem State.setAgenda_resp (s : State) (v : List Input) : (s.setAgenda v).resp = s.resp := rfl
@[simp] theorem State.setAgenda_result (s : State) (v : List Input) : (s.setAgenda v).result = s.result := rfl
@[simp] theorem State.setAgenda_value64 (s : State) (v : List Input) : (s.setAgenda v).value64 = s.value64 := rfl
@[simp] theorem State.setAgenda_polls (s : State) (v : List Input) : (s.setAgenda v).polls = s.polls := rfl
@[simp] theorem State.setAgenda_locks (s : State) (v : List Input) : (s.setAgenda v).locks = s.locks := rfl
@[simp] theorem State.setAgenda_unbroken (s : State) (v : List Input) : (s.setAgenda v).unbroken = s.unbroken := rfl
@[simp] theorem State.setAgenda_ie (s : State) (v : List Input) : (s.setAgenda v).ie = s.ie := rfl
@[simp] theorem State.setAgenda_baseValid (s : State) (v : List Input) : (s.setAgenda v).baseValid = s.baseValid := rfl
@[simp] theorem State.setAgenda_startup (s : State) (v : List Input) : (s.setAgenda v).startup = s.startup := rfl
@[simp] theorem State.setAgenda_outq (s : State) (v : List Input) : (s.setAgenda v).outq = s.outq := rfl
@[simp] theorem State.setAgenda_inq (s : State) (v : List Input) : (s.setAgenda v).inq = s.inq := rfl
@[simp] theorem State.setAgenda_mboxPeek (s : State) (v : List Input) : (s.setAgenda v).mboxPeek = s.mboxPeek := rfl
@[simp] theorem State.setAgenda_mboxSender (s : State) (v : List Input) : (s.setAgenda v).mboxSender = s.mboxSender := rfl
@[simp] theorem State.setAgenda_mboxConfig (s : State) (v : List Input) : (s.setAgenda v).mboxConfig = s.mboxConfig := rfl
@[simp] theorem State.setAgenda_fwPending (s : State) (v : List Input) : (s.setAgenda v).fwPending = s.fwPending := rfl
@[simp] theorem State.setAgenda_running (s : State) (v : List Input) : (s.setAgenda v).running = s.running := rfl
@[simp] theorem State.setAgenda_recipe (s : State) (v : List Input) : (s.setAgenda v).recipe = s.recipe := rfl
@[simp] theorem State.setAgenda_readData (s : State) (v : List Input) : (s.setAgenda v).readData = s.readData := rfl
@[simp] theorem State.setAgenda_draws (s : State) (v : List Input) : (s.setAgenda v).draws = s.draws := rfl
@[simp] theorem State.setAgenda_agenda (s : State) (v : List Input) : (s.setAgenda v).agenda = v := rfl

@[simp] theorem State.raise_cfg (s : State) (k : Kind) (i : Word) : (s.raise k i).cfg = s.cfg := rfl
@[simp] theorem State.raise_mem (s : State) (k : Kind) (i : Word) : (s.raise k i).mem = s.mem := rfl
@[simp] theorem State.raise_phase (s : State) (k : Kind) (i : Word) : (s.raise k i).phase = s.phase := rfl
@[simp] theorem State.raise_sub (s : State) (k : Kind) (i : Word) : (s.raise k i).sub = s.sub := rfl
@[simp] theorem State.raise_resp (s : State) (k : Kind) (i : Word) : (s.raise k i).resp = s.resp := rfl
@[simp] theorem State.raise_result (s : State) (k : Kind) (i : Word) : (s.raise k i).result = ⟨k, i⟩ := rfl
@[simp] theorem State.raise_value64 (s : State) (k : Kind) (i : Word) : (s.raise k i).value64 = s.value64 := rfl
@[simp] theorem State.raise_polls (s : State) (k : Kind) (i : Word) : (s.raise k i).polls = s.polls := rfl
@[simp] theorem State.raise_locks (s : State) (k : Kind) (i : Word) : (s.raise k i).locks = s.locks := rfl
@[simp] theorem State.raise_unbroken (s : State) (k : Kind) (i : Word) : (s.raise k i).unbroken = s.unbroken := rfl
@[simp] theorem State.raise_ie (s : State) (k : Kind) (i : Word) : (s.raise k i).ie = s.ie := rfl
@[simp] theorem State.raise_baseValid (s : State) (k : Kind) (i : Word) : (s.raise k i).baseValid = s.baseValid := rfl
@[simp] theorem State.raise_startup (s : State) (k : Kind) (i : Word) : (s.raise k i).startup = s.startup := rfl
@[simp] theorem State.raise_outq (s : State) (k : Kind) (i : Word) : (s.raise k i).outq = s.outq := rfl
@[simp] theorem State.raise_inq (s : State) (k : Kind) (i : Word) : (s.raise k i).inq = s.inq := rfl
@[simp] theorem State.raise_mboxPeek (s : State) (k : Kind) (i : Word) : (s.raise k i).mboxPeek = s.mboxPeek := rfl
@[simp] theorem State.raise_mboxSender (s : State) (k : Kind) (i : Word) : (s.raise k i).mboxSender = s.mboxSender := rfl
@[simp] theorem State.raise_mboxConfig (s : State) (k : Kind) (i : Word) : (s.raise k i).mboxConfig = s.mboxConfig := rfl
@[simp] theorem State.raise_fwPending (s : State) (k : Kind) (i : Word) : (s.raise k i).fwPending = s.fwPending := rfl
@[simp] theorem State.raise_running (s : State) (k : Kind) (i : Word) : (s.raise k i).running = s.running := rfl
@[simp] theorem State.raise_recipe (s : State) (k : Kind) (i : Word) : (s.raise k i).recipe = s.recipe := rfl
@[simp] theorem State.raise_readData (s : State) (k : Kind) (i : Word) : (s.raise k i).readData = s.readData := rfl
@[simp] theorem State.raise_draws (s : State) (k : Kind) (i : Word) : (s.raise k i).draws = s.draws := rfl
@[simp] theorem State.raise_agenda (s : State) (k : Kind) (i : Word) : (s.raise k i).agenda = s.agenda := rfl

@[simp] theorem State.ret_cfg (s : State) (v : Word) : (s.ret v).cfg = s.cfg := rfl
@[simp] theorem State.ret_mem (s : State) (v : Word) : (s.ret v).mem = s.mem := rfl
@[simp] theorem State.ret_phase (s : State) (v : Word) : (s.ret v).phase = s.phase := rfl
@[simp] theorem State.ret_sub (s : State) (v : Word) : (s.ret v).sub = s.sub := rfl
@[simp] theorem State.ret_resp (s : State) (v : Word) : (s.ret v).resp = s.resp := rfl
@[simp] theorem State.ret_result (s : State) (v : Word) : (s.ret v).result = ⟨.ok, v⟩ := rfl
@[simp] theorem State.ret_value64 (s : State) (v : Word) : (s.ret v).value64 = s.value64 := rfl
@[simp] theorem State.ret_polls (s : State) (v : Word) : (s.ret v).polls = s.polls := rfl
@[simp] theorem State.ret_locks (s : State) (v : Word) : (s.ret v).locks = s.locks := rfl
@[simp] theorem State.ret_unbroken (s : State) (v : Word) : (s.ret v).unbroken = s.unbroken := rfl
@[simp] theorem State.ret_ie (s : State) (v : Word) : (s.ret v).ie = s.ie := rfl
@[simp] theorem State.ret_baseValid (s : State) (v : Word) : (s.ret v).baseValid = s.baseValid := rfl
@[simp] theorem State.ret_startup (s : State) (v : Word) : (s.ret v).startup = s.startup := rfl
@[simp] theorem State.ret_outq (s : State) (v : Word) : (s.ret v).outq = s.outq := rfl
@[simp] theorem State.ret_inq (s : State) (v : Word) : (s.ret v).inq = s.inq := rfl
@[simp] theorem State.ret_mboxPeek (s : State) (v : Word) : (s.ret v).mboxPeek = s.mboxPeek := rfl
@[simp] theorem State.ret_mboxSender (s : State) (v : Word) : (s.ret v).mboxSender = s.mboxSender := rfl
@[simp] theorem State.ret_mboxConfig (s : State) (v : Word) : (s.ret v).mboxConfig = s.mboxConfig := rfl
@[simp] theorem State.ret_fwPending (s : State) (v : Word) : (s.ret v).fwPending = s.fwPending := rfl
@[simp] theorem State.ret_running (s : State) (v : Word) : (s.ret v).running = s.running := rfl
@[simp] theorem State.ret_recipe (s : State) (v : Word) : (s.ret v).recipe = s.recipe := rfl
@[simp] theorem State.ret_readData (s : State) (v : Word) : (s.ret v).readData = s.readData := rfl
@[simp] theorem State.ret_draws (s : State) (v : Word) : (s.ret v).draws = s.draws := rfl
@[simp] theorem State.ret_agenda (s : State) (v : Word) : (s.ret v).agenda = s.agenda := rfl

@[simp] theorem State.statusDrawn_cfg (s : State) : s.statusDrawn.cfg = s.cfg := rfl
@[simp] theorem State.statusDrawn_mem (s : State) : s.statusDrawn.mem = s.mem := rfl
@[simp] theorem State.statusDrawn_phase (s : State) : s.statusDrawn.phase = s.phase := rfl
@[simp] theorem State.statusDrawn_sub (s : State) : s.statusDrawn.sub = s.sub := rfl
@[simp] theorem State.statusDrawn_resp (s : State) : s.statusDrawn.resp = s.resp := rfl
@[simp] theorem State.statusDrawn_result (s : State) : s.statusDrawn.result = s.result := rfl
@[simp] theorem State.statusDrawn_value64 (s : State) : s.statusDrawn.value64 = s.value64 := rfl
@[simp] theorem State.statusDrawn_polls (s : State) : s.statusDrawn.polls = s.polls := rfl
@[simp] theorem State.statusDrawn_locks (s : State) : s.statusDrawn.locks = s.locks := rfl
@[simp] theorem State.statusDrawn_unbroken (s : State) : s.statusDrawn.unbroken = s.unbroken := rfl
@[simp] theorem State.statusDrawn_ie (s : State) : s.statusDrawn.ie = s.ie := rfl
@[simp] theorem State.statusDrawn_baseValid (s : State) : s.statusDrawn.baseValid = s.baseValid := rfl
@[simp] theorem State.statusDrawn_startup (s : State) : s.statusDrawn.startup = s.startup := rfl
@[simp] theorem State.statusDrawn_outq (s : State) : s.statusDrawn.outq = s.outq := rfl
@[simp] theorem State.statusDrawn_inq (s : State) : s.statusDrawn.inq = s.inq := rfl
@[simp] theorem State.statusDrawn_mboxPeek (s : State) : s.statusDrawn.mboxPeek = s.mboxPeek := rfl
@[simp] theorem State.statusDrawn_mboxSender (s : State) : s.statusDrawn.mboxSender = s.mboxSender := rfl
@[simp] theorem State.statusDrawn_mboxConfig (s : State) : s.statusDrawn.mboxConfig = s.mboxConfig := rfl
@[simp] theorem State.statusDrawn_fwPending (s : State) : s.statusDrawn.fwPending = s.fwPending := rfl
@[simp] theorem State.statusDrawn_running (s : State) : s.statusDrawn.running = s.running := rfl
@[simp] theorem State.statusDrawn_recipe (s : State) : s.statusDrawn.recipe = s.recipe := rfl
@[simp] theorem State.statusDrawn_readData (s : State) : s.statusDrawn.readData = s.readData := rfl
@[simp] theorem State.statusDrawn_draws (s : State) : s.statusDrawn.draws = s.draws + 1 := rfl
@[simp] theorem State.statusDrawn_agenda (s : State) : s.statusDrawn.agenda = s.agenda := rfl

@[simp] theorem State.writeBuf_cfg (s : State) (i : Nat) (ws : List Word) : (s.writeBuf i ws).cfg = s.cfg := rfl
@[simp] theorem State.writeBuf_mem (s : State) (i : Nat) (ws : List Word) : (s.writeBuf i ws).mem = s.mem.writeWords (s.wordAddr i) ws := rfl
@[simp] theorem State.writeBuf_phase (s : State) (i : Nat) (ws : List Word) : (s.writeBuf i ws).phase = s.phase := rfl
@[simp] theorem State.writeBuf_sub (s : State) (i : Nat) (ws : List Word) : (s.writeBuf i ws).sub = s.sub := rfl
@[simp] theorem State.writeBuf_resp (s : State) (i : Nat) (ws : List Word) : (s.writeBuf i ws).resp = s.resp := rfl
@[simp] theorem State.writeBuf_result (s : State) (i : Nat) (ws : List Word) : (s.writeBuf i ws).result = s.result := rfl
@[simp] theorem State.writeBuf_value64 (s : State) (i : Nat) (ws : List Word) : (s.writeBuf i ws).value64 = s.value64 := rfl
@[simp] theorem State.writeBuf_polls (s : State) (i : Nat) (ws : List Word) : (s.writeBuf i ws).polls = s.polls := rfl
@[simp] theorem State.writeBuf_locks (s : State) (i : Nat) (ws : List Word) : (s.writeBuf i ws).locks = s.locks := rfl
@[simp] theorem State.writeBuf_unbroken (s : State) (i : Nat) (ws : List Word) : (s.writeBuf i ws).unbroken = s.unbroken := rfl
@[simp] theorem State.writeBuf_ie (s : State) (i : Nat) (ws : List Word) : (s.writeBuf i ws).ie = s.ie := rfl
@[simp] theorem State.writeBuf_baseValid (s : State) (i : Nat) (ws : List Word) : (s.writeBuf i ws).baseValid = s.baseValid := rfl
@[simp] theorem State.writeBuf_startup (s : State) (i : Nat) (ws : List Word) : (s.writeBuf i ws).startup = s.startup := rfl
@[simp] theorem State.writeBuf_outq (s : State) (i : Nat) (ws : List Word) : (s.writeBuf i ws).outq = s.outq := rfl
@[simp] theorem State.writeBuf_inq (s : State) (i : Nat) (ws : List Word) : (s.writeBuf i ws).inq = s.inq := rfl
@[simp] theorem State.writeBuf_mboxPeek (s : State) (i : Nat) (ws : List Word) : (s.writeBuf i ws).mboxPeek = s.mboxPeek := rfl
@[simp] theorem State.writeBuf_mboxSender (s : State) (i : Nat) (ws : List Word) : (s.writeBuf i ws).mboxSender = s.mboxSender := rfl
@[simp] theorem State.writeBuf_mboxConfig (s : State) (i : Nat) (ws : List Word) : (s.writeBuf i ws).mboxConfig = s.mboxConfig := rfl
@[simp] theorem State.writeBuf_fwPending (s : State) (i : Nat) (ws : List Word) : (s.writeBuf i ws).fwPending = s.fwPending := rfl
@[simp] theorem State.writeBuf_running (s : State) (i : Nat) (ws : List Word) : (s.writeBuf i ws).running = s.running := rfl
@[simp] theorem State.writeBuf_recipe (s : State) (i : Nat) (ws : List Word) : (s.writeBuf i ws).recipe = s.recipe := rfl
@[simp] theorem State.writeBuf_readData (s : State) (i : Nat) (ws : List Word) : (s.writeBuf i ws).readData = s.readData := rfl
@[simp] theorem State.writeBuf_draws (s : State) (i : Nat) (ws : List Word) : (s.writeBuf i ws).draws = s.draws := rfl
@[simp] theorem State.writeBuf_agenda (s : State) (i : Nat) (ws : List Word) : (s.writeBuf i ws).agenda = s.agenda := rfl

end Sys2Proof.Machine
end

