-- ==== Sys2Proof/Laws/Memory.lean ====
section
/-! SUPPORT. Memory: read after write, bytes elsewhere, the canonical form, and the buffer words built from bytes. -/

namespace Sys2Proof.Machine

/-! ### Bytes -/

theorem Memory.readByte_writeByte_same (m : Memory) (a : Nat) (b : Byte) : (m.writeByte a b).readByte a = some b := by
  induction m with
  | nil => simp [Memory.writeByte, Memory.readByte]
  | cons c m ih =>
    unfold Memory.writeByte
    split
    · simp [Memory.readByte]
    · split
      · simp [Memory.readByte]
      · rename_i h1 h2
        have h3 : c.1 ≠ a := fun h => h2 h.symm
        simp [Memory.readByte, h3, ih]

theorem Memory.readByte_writeByte_other (m : Memory) {a x : Nat} (b : Byte) (h : x ≠ a) :
    (m.writeByte a b).readByte x = m.readByte x := by
  induction m with
  | nil => simp [Memory.writeByte, Memory.readByte, h.symm]
  | cons c m ih =>
    unfold Memory.writeByte
    split
    · simp [Memory.readByte, h.symm]
    · split
      · rename_i h2; subst h2; simp [Memory.readByte, h.symm]
      · simp [Memory.readByte, ih]

/-- The canonical form as Mathlib's Pairwise. -/
theorem Memory.wf_iff_pairwise (m : Memory) : m.wf = true ↔ m.Pairwise (fun c d => c.1 < d.1) := by
  induction m with
  | nil => simp [Memory.wf]
  | cons c m ih =>
    cases m with
    | nil => simp [Memory.wf]
    | cons d m =>
      simp only [Memory.wf, Bool.and_eq_true, decide_eq_true_eq, ih, List.pairwise_cons]
      constructor
      · rintro ⟨hcd, hd, hm⟩
        refine ⟨?_, hd, hm⟩
        intro x hx
        rcases List.mem_cons.1 hx with rfl | hx
        · exact hcd
        · exact Nat.lt_trans hcd (hd x hx)
      · rintro ⟨hc, hd, hm⟩
        exact ⟨hc d (by simp), hd, hm⟩

theorem Memory.mem_writeByte {m : Memory} {a : Nat} {b : Byte} {x : Host.Cell} (h : x ∈ m.writeByte a b) :
    x = (a, b) ∨ x ∈ m := by
  induction m with
  | nil => simpa [Memory.writeByte] using h
  | cons c m ih =>
    unfold Memory.writeByte at h
    split at h
    · simpa using h
    · split at h
      · rcases List.mem_cons.1 h with h | h
        · exact .inl h
        · exact .inr (List.mem_cons_of_mem _ h)
      · rcases List.mem_cons.1 h with h | h
        · exact .inr (by simp [h])
        · rcases ih h with h | h
          · exact .inl h
          · exact .inr (List.mem_cons_of_mem _ h)

theorem Memory.writeByte_wf {m : Memory} (a : Nat) (b : Byte) (h : m.wf = true) : (m.writeByte a b).wf = true := by
  rw [Memory.wf_iff_pairwise] at h ⊢
  induction m with
  | nil => simp [Memory.writeByte]
  | cons c m ih =>
    rw [List.pairwise_cons] at h
    unfold Memory.writeByte
    split
    · rename_i hac
      refine List.pairwise_cons.2 ⟨fun x hx => ?_, List.pairwise_cons.2 h⟩
      rcases List.mem_cons.1 hx with rfl | hx
      · exact hac
      · exact Nat.lt_trans hac (h.1 x hx)
    · split
      · rename_i hac
        exact List.pairwise_cons.2 ⟨fun x hx => by simpa [hac] using h.1 x hx, h.2⟩
      · rename_i h1 h2
        refine List.pairwise_cons.2 ⟨fun x hx => ?_, ih h.2⟩
        rcases Memory.mem_writeByte hx with rfl | hx
        · simp only; omega
        · exact h.1 x hx

/-! ### Words -/

theorem Memory.readByte_writeWord_other (m : Memory) {a x : Nat} (v : Word) (h : x < a ∨ a + 4 ≤ x) :
    (m.writeWord a v).readByte x = m.readByte x := by
  unfold Memory.writeWord
  rw [Memory.readByte_writeByte_other _ _ (by omega), Memory.readByte_writeByte_other _ _ (by omega),
    Memory.readByte_writeByte_other _ _ (by omega), Memory.readByte_writeByte_other _ _ (by omega)]

theorem wordOf_byteOf (v : Word) : wordOf (byteOf v 0) (byteOf v 1) (byteOf v 2) (byteOf v 3) = v := by
  unfold wordOf byteOf
  apply BitVec.eq_of_getLsbD_eq
  intro i hi
  simp only [BitVec.getLsbD_append, BitVec.getLsbD_extractLsb']
  by_cases h0 : i < 8
  · have h1 : i < 16 := by omega
    have h2 : i < 24 := by omega
    simp [h0, h1, h2]
  · by_cases h1 : i < 16
    · have h2 : i - 8 < 8 := by omega
      have h3 : 8 + (i - 8) = i := by omega
      have h4 : i < 24 := by omega
      simp [h0, h1, h2, h3, h4]
    · by_cases h2 : i < 24
      · have h3 : ¬ i - 8 < 8 := by omega
        have h4 : i - 16 < 8 := by omega
        have h5 : 16 + (i - 16) = i := by omega
        simp [h1, h2, h4, h5]
      · have h3 : ¬ i - 8 < 8 := by omega
        have h4 : i - 24 < 8 := by omega
        have h5 : 24 + (i - 24) = i := by omega
        simp [h2, h4, h5]

theorem Memory.readByte_writeWord_same (m : Memory) (a : Nat) (v : Word) {k : Nat} (hk : k < 4) :
    (m.writeWord a v).readByte (a + k) = some (byteOf v k) := by
  unfold Memory.writeWord
  interval_cases k
  · rw [Memory.readByte_writeByte_other _ _ (by omega), Memory.readByte_writeByte_other _ _ (by omega),
      Memory.readByte_writeByte_other _ _ (by omega), Nat.add_zero, Memory.readByte_writeByte_same]
  · rw [Memory.readByte_writeByte_other _ _ (by omega), Memory.readByte_writeByte_other _ _ (by omega),
      Memory.readByte_writeByte_same]
  · rw [Memory.readByte_writeByte_other _ _ (by omega), Memory.readByte_writeByte_same]
  · rw [Memory.readByte_writeByte_same]

theorem Memory.readWord_writeWord_same (m : Memory) (a : Nat) (v : Word) : (m.writeWord a v).readWord a = some v := by
  have h0 := Memory.readByte_writeWord_same m a v (k := 0) (by omega)
  have h1 := Memory.readByte_writeWord_same m a v (k := 1) (by omega)
  have h2 := Memory.readByte_writeWord_same m a v (k := 2) (by omega)
  have h3 := Memory.readByte_writeWord_same m a v (k := 3) (by omega)
  rw [Nat.add_zero] at h0
  simp only [Memory.readWord, h0, h1, h2, h3, wordOf_byteOf]

/-- A word read depends on its four bytes only. -/
theorem Memory.readWord_congr {m n : Memory} {a : Nat} (h : ∀ k < 4, n.readByte (a + k) = m.readByte (a + k)) :
    n.readWord a = m.readWord a := by
  have h0 := h 0 (by omega)
  rw [Nat.add_zero] at h0
  simp only [Memory.readWord, h0, h 1 (by omega), h 2 (by omega), h 3 (by omega)]

theorem Memory.readWord_writeWord_other (m : Memory) {a x : Nat} (v : Word) (h : x + 4 ≤ a ∨ a + 4 ≤ x) :
    (m.writeWord a v).readWord x = m.readWord x :=
  Memory.readWord_congr fun k hk => Memory.readByte_writeWord_other m v (by omega)

theorem Memory.writeWord_wf {m : Memory} (a : Nat) (v : Word) (h : m.wf = true) : (m.writeWord a v).wf = true :=
  Memory.writeByte_wf _ _ (Memory.writeByte_wf _ _ (Memory.writeByte_wf _ _ (Memory.writeByte_wf _ _ h)))

/-! ### Runs of words -/

theorem Memory.readByte_writeWords_other (m : Memory) (a : Nat) (ws : List Word) {x : Nat}
    (h : x < a ∨ a + 4 * ws.length ≤ x) : (m.writeWords a ws).readByte x = m.readByte x := by
  induction ws generalizing m a with
  | nil => rfl
  | cons w ws ih =>
    simp only [List.length_cons] at h
    rw [Memory.writeWords, ih _ _ (by omega), Memory.readByte_writeWord_other _ _ (by omega)]

theorem Memory.readWord_writeWords_other (m : Memory) (a : Nat) (ws : List Word) {x : Nat}
    (h : x + 4 ≤ a ∨ a + 4 * ws.length ≤ x) : (m.writeWords a ws).readWord x = m.readWord x :=
  Memory.readWord_congr fun k hk => Memory.readByte_writeWords_other m a ws (by omega)

theorem Memory.readWord_writeWords_at (m : Memory) (a : Nat) (ws : List Word) {j : Nat} (h : j < ws.length) :
    (m.writeWords a ws).readWord (a + 4 * j) = some ws[j] := by
  induction ws generalizing m a j with
  | nil => simp at h
  | cons w ws ih =>
    rw [Memory.writeWords]
    cases j with
    | zero =>
      rw [Memory.readWord_writeWords_other _ _ _ (by omega), Nat.mul_zero, Nat.add_zero,
        Memory.readWord_writeWord_same]
      rfl
    | succ j =>
      have e : a + 4 * (j + 1) = a + 4 + 4 * j := by omega
      simp only [List.length_cons] at h
      rw [e, ih _ _ (by omega)]
      rfl

theorem Memory.writeWords_wf {m : Memory} (a : Nat) (ws : List Word) (h : m.wf = true) :
    (m.writeWords a ws).wf = true := by
  induction ws generalizing m a with
  | nil => exact h
  | cons w ws ih => exact ih _ (Memory.writeWord_wf _ _ h)

/-! ### The memory a list of words makes -/

theorem Memory.le_of_mem_image {a : Nat} {ws : List Word} {c : Host.Cell} (h : c ∈ Memory.image a ws) : a ≤ c.1 := by
  induction ws generalizing a with
  | nil => cases h
  | cons w ws ih =>
    simp only [Memory.image, List.mem_cons] at h
    rcases h with rfl | rfl | rfl | rfl | h
    · exact Nat.le_refl _
    · exact Nat.le_add_right _ _
    · exact Nat.le_add_right _ _
    · exact Nat.le_add_right _ _
    · exact Nat.le_trans (Nat.le_add_right _ _) (ih h)

theorem Memory.image_wf (a : Nat) (ws : List Word) : (Memory.image a ws).wf = true := by
  rw [Memory.wf_iff_pairwise]
  induction ws generalizing a with
  | nil => exact .nil
  | cons w ws ih =>
    have hlast : ∀ c ∈ Memory.image (a + 4) ws, a + 3 < c.1 := fun c hc => Memory.le_of_mem_image hc
    simp only [Memory.image, List.pairwise_cons, List.mem_cons, forall_eq_or_imp]
    refine ⟨⟨by omega, by omega, by omega, fun c hc => ?_⟩, ⟨by omega, by omega, fun c hc => ?_⟩,
      ⟨by omega, fun c hc => ?_⟩, hlast, ih _⟩ <;>
    · have := hlast c hc
      omega

theorem Memory.readByte_image (a : Nat) {ws : List Word} {j k : Nat} (hj : j < ws.length) (hk : k < 4) :
    (Memory.image a ws).readByte (a + 4 * j + k) = some (byteOf ws[j] k) := by
  induction ws generalizing a j with
  | nil => simp at hj
  | cons w ws ih =>
    cases j with
    | zero => interval_cases k <;> simp [Memory.image, Memory.readByte]
    | succ j =>
      have e : a + 4 * (j + 1) + k = a + 4 + 4 * j + k := by omega
      simp only [Memory.image, Memory.readByte]
      rw [if_neg (by omega), if_neg (by omega), if_neg (by omega), if_neg (by omega), e]
      exact ih _ (by simpa using hj)

/-- The words of the list stand in it one after another. -/
theorem Memory.readWord_image (a : Nat) {ws : List Word} {j : Nat} (hj : j < ws.length) :
    (Memory.image a ws).readWord (a + 4 * j) = some ws[j] := by
  have h0 := Memory.readByte_image a hj (k := 0) (by omega)
  rw [Nat.add_zero] at h0
  simp only [Memory.readWord, h0, Memory.readByte_image a hj (k := 1) (by omega),
    Memory.readByte_image a hj (k := 2) (by omega), Memory.readByte_image a hj (k := 3) (by omega), wordOf_byteOf]

/-! ### The buffer -/

/-- After reset BUF[i] is the i-th word of the draw (10_state R42). -/
theorem State.buf_resetWith (c : Params) (d : ResetDraw) {i : Nat} (h : i < Config.bufWords) :
    (State.resetWith c d).buf i = some d.buf[i] := by
  rw [State.buf, State.wordAddr, State.resetWith, Memory.readWord_image _ (by simpa using h), Vector.getElem_toList]

/-- A buffer word depends on memory and the configuration only. -/
theorem State.buf_congr {s t : State} (hm : t.mem = s.mem) (hc : t.cfg = s.cfg) (i : Nat) : t.buf i = s.buf i := by
  simp only [State.buf, State.wordAddr, hm, hc]

theorem State.wordAddr_eq (s : State) (i : Nat) : s.wordAddr i = s.cfg.bufAddr.toNat + 4 * i := rfl

/-- BUF[i] <- ws leaves every other buffer word alone. -/
theorem State.buf_writeBuf_other (s : State) {i j : Nat} (ws : List Word) (h : j < i ∨ i + ws.length ≤ j) :
    (s.writeBuf i ws).buf j = s.buf j := by
  unfold State.buf
  rw [State.writeBuf_mem]
  exact Memory.readWord_writeWords_other _ _ _ (by simp only [State.wordAddr_eq, State.writeBuf_cfg]; omega)

/-- BUF[i] <- ws puts the words of ws at i, i + 1, … -/
theorem State.buf_writeBuf_at (s : State) (i : Nat) (ws : List Word) {j : Nat} (h : j < ws.length) :
    (s.writeBuf i ws).buf (i + j) = some ws[j] := by
  unfold State.buf
  have e : (s.writeBuf i ws).wordAddr (i + j) = s.wordAddr i + 4 * j := by
    simp only [State.wordAddr_eq, State.writeBuf_cfg]; omega
  rw [State.writeBuf_mem, e, Memory.readWord_writeWords_at _ _ _ h]

/-- Words written inside the buffer leave every byte outside them alone. -/
theorem State.readByte_writeBuf_other (s : State) (i : Nat) (ws : List Word) {a : Nat}
    (h : a < s.wordAddr i ∨ s.wordAddr (i + ws.length) ≤ a) : (s.writeBuf i ws).mem.readByte a = s.mem.readByte a := by
  rw [State.writeBuf_mem]
  exact Memory.readByte_writeWords_other _ _ _ (by simp only [State.wordAddr_eq] at h ⊢; omega)

end Sys2Proof.Machine
end

