-- ==== Sys2Proof/Laws/Ops.lean ====
section
/-! SUPPORT. One lemma for each shared operation that says everything it can do when it answers a next state, and one that
says what it is under its condition. -/

namespace Sys2Proof.Machine

/-! ### Sequencing and admission -/

theorem next_eq_next {s t : State} : (Host.Outcome.next s : Out) = .next t ↔ t = s :=
  ⟨fun h => (Host.Outcome.next.inj h).symm, fun h => h ▸ rfl⟩

theorem refused_ne_next {r : Refusal} {t : State} : (Host.Outcome.refused r : Out) ≠ .next t := nofun

theorem andThen_next {o : Out} {k : State → Out} {t : State} :
    andThen o k = .next t ↔ ∃ u, o = .next u ∧ k u = .next t := by
  cases o <;> simp [andThen]

theorem withWord_next {s t : State} {i : Nat} {k : Word → Out} :
    withWord s i k = .next t ↔ ∃ v, s.buf i = some v ∧ k v = .next t := by
  cases h : s.buf i <;> simp [withWord, h]

theorem withWord_eq {s : State} {i : Nat} {v : Word} (h : s.buf i = some v) (k : Word → Out) :
    withWord s i k = k v := by
  simp [withWord, h]

theorem hostTurn_next {s t : State} {k : Out} : hostTurn s k = .next t ↔ s.busy = false ∧ k = .next t := by
  cases h : s.busy <;> simp [hostTurn, h]

theorem hostTurn_idle {s : State} (h : s.busy = false) (k : Out) : hostTurn s k = k := by simp [hostTurn, h]

theorem hostTurn_busy {s : State} (h : s.busy = true) (k : Out) : hostTurn s k = .refused .hostWaits := by
  simp [hostTurn, h]

theorem admit_next {s t : State} {ps : List Phase} {k : Out} :
    admitted ps s k = .next t ↔ s.holdsGuard 0 = true ∧ s.phase ∈ ps ∧ k = .next t := by
  by_cases hg : s.holdsGuard 0 = true <;> by_cases hp : s.phase ∈ ps <;> simp [admitted, hg, hp]

theorem admit_ok {s : State} {ps : List Phase} (hg : s.holdsGuard 0 = true) (hp : s.phase ∈ ps) (k : Out) :
    admitted ps s k = k := by
  simp [admitted, hg, hp]

theorem State.holdsGuard_iff {s : State} {k : Nat} :
    s.holdsGuard k = true ↔ ∃ l, s.locks[k]? = some l ∧ l.live = true ∧ l.holder = s.running := by
  cases h : s.locks[k]? <;> simp [State.holdsGuard, h]

theorem State.holdsRequest_iff {s : State} : s.holdsRequest = true ↔ s.holdsGuard 0 = true ∧ s.unbroken = true := by
  simp [State.holdsRequest]

theorem admitInRequest_next {s t : State} {ps : List Phase} {k : Out} :
    admittedInRequest ps s k = .next t ↔ s.holdsRequest = true ∧ s.phase ∈ ps ∧ k = .next t := by
  rw [admittedInRequest, admit_next, State.holdsRequest_iff]
  cases s.unbroken <;> simp

theorem admitInRequest_ok {s : State} {ps : List Phase} (h : s.holdsRequest = true) (hp : s.phase ∈ ps) (k : Out) :
    admittedInRequest ps s k = k := by
  obtain ⟨hg, hu⟩ := State.holdsRequest_iff.mp h
  rw [admittedInRequest, admit_ok hg hp, hu, if_pos rfl]

/-- Where the guard was released since NEW_BUFFER, no command of the request is executed. -/
theorem admitInRequest_broken {s : State} {ps : List Phase} (hg : s.holdsGuard 0 = true) (hu : s.unbroken = false)
    (hp : s.phase ∈ ps) (k : Out) : admittedInRequest ps s k = .refused .requestBroken := by
  rw [admittedInRequest, admit_ok hg hp, hu, if_neg Bool.false_ne_true]

/-- Who holds a guard depends on the locks and on the running code path only. -/
theorem State.holdsGuard_congr {s t : State} (hl : t.locks = s.locks) (hr : t.running = s.running) (k : Nat) :
    t.holdsGuard k = s.holdsGuard k := by
  simp only [State.holdsGuard, hl, hr]

theorem State.holdsRequest_congr {s t : State} (hl : t.locks = s.locks) (hr : t.running = s.running)
    (hu : t.unbroken = s.unbroken) : t.holdsRequest = s.holdsRequest := by
  simp only [State.holdsRequest, State.holdsGuard_congr hl hr, hu]

/-- Whether the engine is running a command depends on PHASE and the recipe only. -/
theorem State.busy_congr {s t : State} (hp : t.phase = s.phase) (hr : t.recipe = s.recipe) : t.busy = s.busy := by
  simp only [State.busy, hp, hr]

theorem State.busy_eq_false {s : State} (h : s.busy = false) : s.phase.inCall = false ∧ s.recipe = none := by
  simpa [State.busy] using h

theorem throughRa_next {s t : State} {k : Out} : throughRa s k = .next t ↔ s.baseValid = true ∧ k = .next t := by
  cases h : s.baseValid <;> simp [throughRa, h]

theorem throughRa_ok {s : State} (h : s.baseValid = true) (k : Out) : throughRa s k = k := by simp [throughRa, h]

theorem inStep_next {p : Phase} {s t : State} {k : Out} : inStep p s k = .next t ↔ s.phase = p ∧ k = .next t := by
  by_cases h : s.phase = p <;> simp [inStep, h]

theorem inStep_ok {p : Phase} {s : State} (h : s.phase = p) (k : Out) : inStep p s k = k := by simp [inStep, h]

/-- Everything a step taken for its result can do: what the step does, where it ends a command with that result. -/
theorem endingWith_next {k : Kind} {info : Word} {o : Out} {t : State} :
    endingWith k info o = .next t ↔ o = .next t ∧ t.phase.inCall = false ∧ t.result = ⟨k, info⟩ := by
  cases o with
  | next u =>
    rw [endingWith, next_eq_next]
    split
    · next h => exact ⟨fun e => by cases e; exact ⟨rfl, h⟩, fun ⟨e, _⟩ => e ▸ rfl⟩
    · next h => exact ⟨fun e => absurd e refused_ne_next, fun ⟨e, h'⟩ => absurd (e ▸ h') h⟩
  | fault f => simp [endingWith]
  | refused r => simp [endingWith]

/-- The word findWord answers is in the range and holds the word asked for. -/
theorem State.findWord_eq_some {s : State} {w : Word} {i n j : Nat} (h : s.findWord w i n = some j) :
    (i ≤ j ∧ j < i + n) ∧ s.buf j = some w := by
  unfold State.findWord at h
  exact ⟨List.mem_range'_1.mp (List.mem_of_find?_eq_some h), by simpa using List.find?_some h⟩

/-- It finds one where there is one. -/
theorem State.findWord_isSome {s : State} {w : Word} {i n j : Nat} (h : i ≤ j ∧ j < i + n) (hw : s.buf j = some w) :
    ∃ m, s.findWord w i n = some m := by
  exact Option.isSome_iff_exists.mp (List.find?_isSome.mpr ⟨j, List.mem_range'_1.mpr h, decide_eq_true hw⟩)

/-! ### The queues -/

theorem takeInbound_next {s t : State} {k : Word → State → Out} :
    takeInbound s k = .next t ↔ ∃ w q, s.inq = w :: q ∧ k w (s.setInq q) = .next t := by
  cases h : s.inq <;> simp [takeInbound, h]

theorem takeInbound_eq {s : State} {w : Word} {q : List Word} (h : s.inq = w :: q) (k : Word → State → Out) :
    takeInbound s k = k w (s.setInq q) := by
  simp [takeInbound, h]

theorem outqFull_iff (s : State) : s.outqFull = true ↔ s.outq.length = s.cfg.fifoDepth := by simp [State.outqFull]

theorem inqEmpty_iff (s : State) : s.inqEmpty = true ↔ s.inq = [] := by simp [State.inqEmpty]

theorem appendOutbound_next {v : Word} {s t : State} :
    appendOutbound v s = .next t ↔ s.outq.length ≠ s.cfg.fifoDepth ∧ t = s.setOutq (s.outq ++ [v]) := by
  by_cases h : s.outq.length = s.cfg.fifoDepth <;> simp [appendOutbound, State.outqFull, h, eq_comm]

/-! ### FW_PENDING -/

theorem insertWord_perm (w : Word) (l : List Word) : (insertWord w l).Perm (w :: l) := by
  induction l with
  | nil => exact .refl _
  | cons v vs ih =>
    rw [insertWord]
    split
    · exact .refl _
    · exact (List.Perm.cons v ih).trans (List.Perm.swap w v vs)

theorem removeWord_perm {w : Word} {l : List Word} (h : w ∈ l) : l.Perm (w :: removeWord w l) := by
  induction l with
  | nil => simp at h
  | cons v vs ih =>
    rw [removeWord]
    split
    · next e => rw [e]
    · next e =>
      have hw : w ∈ vs := (List.mem_cons.mp h).resolve_left (fun e' => e e'.symm)
      exact (List.Perm.cons v (ih hw)).trans (List.Perm.swap w v _)

theorem insertWord_sorted (w : Word) {l : List Word} (h : l.Pairwise fun a b => a.toNat ≤ b.toNat) :
    (insertWord w l).Pairwise fun a b => a.toNat ≤ b.toNat := by
  induction l with
  | nil => simp [insertWord]
  | cons v vs ih =>
    rw [insertWord]
    obtain ⟨h1, h2⟩ := List.pairwise_cons.mp h
    split
    · next hv =>
      refine List.pairwise_cons.mpr ⟨fun x hx => ?_, h⟩
      rcases List.mem_cons.mp hx with rfl | hx
      · exact hv
      · exact le_trans hv (h1 x hx)
    · next hv =>
      refine List.pairwise_cons.mpr ⟨fun x hx => ?_, ih h2⟩
      rcases List.mem_cons.mp ((insertWord_perm w vs).mem_iff.mp hx) with rfl | hx
      · omega
      · exact h1 x hx

theorem removeWord_sublist (w : Word) (l : List Word) : (removeWord w l).Sublist l := by
  induction l with
  | nil => exact .slnil
  | cons v vs ih =>
    rw [removeWord]
    split
    · exact List.sublist_cons_self v vs
    · exact ih.cons_cons v

/-! ### The poll bound -/

theorem pollFailed_left {s : State} (h : ∀ n, s.cfg.pollLimit = some n → s.polls + 1 < n) (p : Phase) :
    pollFailed p s =
      (s.setPolls (if s.cfg.pollLimit = none then s.polls else s.polls + 1)).setPhase p := by
  cases hn : s.cfg.pollLimit with
  | none => simp [pollFailed, hn, State.setPolls, State.setPhase]
  | some n => simp [pollFailed, hn, Nat.not_le.mpr (h n hn)]

theorem pollFailed_spent {s : State} {n : Nat} (hn : s.cfg.pollLimit = some n) (h : n ≤ s.polls + 1) (p : Phase) :
    pollFailed p s =
      ((s.setPolls (s.polls + 1)).setPhase .doneErr).raise .timeout
        (if s.phase = .corrPoll ∨ s.phase = .corrRead then 1#32 else 0#32) := by
  simp [pollFailed, hn, h]

/-- Everything a failed poll can do: go on uncounted, go on counted below the limit, or end CALL. -/
theorem pollFailed_cases (p : Phase) (s : State) :
    (s.cfg.pollLimit = none ∧ pollFailed p s = s.setPhase p) ∨
    (∃ n, s.cfg.pollLimit = some n ∧ s.polls + 1 < n ∧ pollFailed p s = (s.setPolls (s.polls + 1)).setPhase p) ∨
    (∃ n info, s.cfg.pollLimit = some n ∧ n ≤ s.polls + 1 ∧
      pollFailed p s = ((s.setPolls (s.polls + 1)).setPhase .doneErr).raise .timeout info) := by
  cases hn : s.cfg.pollLimit with
  | none => exact .inl ⟨rfl, by simp [pollFailed, hn]⟩
  | some n =>
    by_cases h : n ≤ s.polls + 1
    · exact .inr (.inr ⟨n, _, rfl, h, pollFailed_spent hn h p⟩)
    · exact .inr (.inl ⟨n, rfl, by omega, by simp [pollFailed, hn, h]⟩)

/-! ### The match test -/

theorem responseMatches_iff (r sub : Word) : responseMatches r sub = true ↔ r = sub := by
  constructor
  · intro h
    obtain ⟨hc, hp⟩ : wordChannel r = wordChannel sub ∧ wordPointer r = wordPointer sub := by
      simpa [responseMatches] using h
    apply BitVec.eq_of_getLsbD_eq
    intro i hi
    by_cases h4 : i < 4
    · have := congrArg (fun v => v.getLsbD i) hc
      simpa [wordChannel, BitVec.getLsbD_extractLsb', h4] using this
    · have := congrArg (fun v => v.getLsbD (i - 4)) hp
      have e : 4 + (i - 4) = i := by omega
      have hlt : i - 4 < 28 := by omega
      simpa [wordPointer, BitVec.getLsbD_extractLsb', hlt, e] using this
  · rintro rfl
    simp [responseMatches]

theorem responseMatches_false {r sub : Word} (h : r ≠ sub) : responseMatches r sub = false := by
  cases e : responseMatches r sub with
  | false => rfl
  | true => exact absurd ((responseMatches_iff r sub).mp e) h

end Sys2Proof.Machine
end

