-- ==== Sys2Proof/Laws/Commands.lean ====
section
/-! SUPPORT. One lemma for each command without its admission: the words it leaves in the buffer, and everything it can do
when it answers a next state. -/

namespace Sys2Proof.Machine

/-! ### NEW_BUFFER -/

/-- Two writes of words at the start of the buffer, then PHASE, the cover and RESULT: the other fields stay. -/
theorem writeBuf_writeBuf_eq (s : State) (i j : Nat) (ws vs : List Word) (p : Phase) (b : Bool) (w : Word) :
    ((((s.writeBuf i ws).writeBuf j vs).setPhase p).setUnbroken b).ret w =
      { s with
        mem := (((((s.writeBuf i ws).writeBuf j vs).setPhase p).setUnbroken b).ret w).mem
        phase := p
        unbroken := b
        result := ⟨.ok, w⟩ } := rfl

theorem newBuffer_buf (s : State) (i : Nat) :
    (newBuffer s).buf i =
      ((s.writeBuf 0 (List.replicate Config.bufWords 0#32)).writeBuf 0 [BitVec.ofNat 32 Config.headerBytes]).buf i := by
  rw [newBuffer]
  exact State.buf_congr (by rw [State.ret_mem, State.setUnbroken_mem, State.setPhase_mem])
    (by rw [State.ret_cfg, State.setUnbroken_cfg, State.setPhase_cfg]) i

theorem newBuffer_buf_zero (s : State) : (newBuffer s).buf 0 = some 8#32 := by
  rw [newBuffer_buf]
  exact State.buf_writeBuf_at (s.writeBuf 0 (List.replicate Config.bufWords 0#32)) 0
    [BitVec.ofNat 32 Config.headerBytes] (j := 0) (by simp)

theorem newBuffer_buf_rest (s : State) {i : Nat} (h1 : 1 ≤ i) (h2 : i < Config.bufWords) :
    (newBuffer s).buf i = some 0#32 := by
  rw [newBuffer_buf, State.buf_writeBuf_other _ _ (.inr (by simpa using h1))]
  have h := State.buf_writeBuf_at s 0 (List.replicate Config.bufWords 0#32) (j := i) (by simpa using h2)
  rwa [Nat.zero_add, List.getElem_replicate] at h

theorem newBuffer_isSome (s : State) {i : Nat} (h : i < Config.bufWords) : ((newBuffer s).buf i).isSome = true := by
  rcases Nat.eq_zero_or_pos i with rfl | hi
  · rw [newBuffer_buf_zero]; rfl
  · rw [newBuffer_buf_rest s hi h]; rfl

theorem newBuffer_readByte_other (s : State) {a : Nat} (h : a < s.wordAddr 0 ∨ s.wordAddr Config.bufWords ≤ a) :
    (newBuffer s).mem.readByte a = s.mem.readByte a := by
  simp only [State.wordAddr_eq, Config.bufWords] at h
  rw [newBuffer, State.ret_mem, State.setUnbroken_mem, State.setPhase_mem, State.readByte_writeBuf_other, State.readByte_writeBuf_other]
  · simp only [State.wordAddr_eq, List.length_replicate, Config.bufWords]; omega
  · simp only [State.wordAddr_eq, State.writeBuf_cfg, List.length_singleton]; omega

theorem newBuffer_mem_wf {s : State} (h : s.mem.wf = true) : (newBuffer s).mem.wf = true := by
  rw [newBuffer, State.ret_mem, State.setUnbroken_mem, State.setPhase_mem, State.writeBuf_mem, State.writeBuf_mem]
  exact Memory.writeWords_wf _ _ (Memory.writeWords_wf _ _ h)

/-- NEW_BUFFER writes memory, PHASE and RESULT, and begins the cover of the request. -/
theorem newBuffer_eq (s : State) :
    newBuffer s = { s with mem := (newBuffer s).mem, phase := .build, unbroken := true, result := ⟨.ok, 0#32⟩ } := by
  rw [newBuffer]
  exact writeBuf_writeBuf_eq s _ _ _ _ _ _ _

@[simp] theorem newBuffer_cfg (s : State) : (newBuffer s).cfg = s.cfg := by rw [newBuffer_eq]
@[simp] theorem newBuffer_sub (s : State) : (newBuffer s).sub = s.sub := by rw [newBuffer_eq]
@[simp] theorem newBuffer_resp (s : State) : (newBuffer s).resp = s.resp := by rw [newBuffer_eq]
@[simp] theorem newBuffer_value64 (s : State) : (newBuffer s).value64 = s.value64 := by rw [newBuffer_eq]
@[simp] theorem newBuffer_polls (s : State) : (newBuffer s).polls = s.polls := by rw [newBuffer_eq]
@[simp] theorem newBuffer_locks (s : State) : (newBuffer s).locks = s.locks := by rw [newBuffer_eq]
@[simp] theorem newBuffer_ie (s : State) : (newBuffer s).ie = s.ie := by rw [newBuffer_eq]
@[simp] theorem newBuffer_baseValid (s : State) : (newBuffer s).baseValid = s.baseValid := by rw [newBuffer_eq]
@[simp] theorem newBuffer_startup (s : State) : (newBuffer s).startup = s.startup := by rw [newBuffer_eq]
@[simp] theorem newBuffer_outq (s : State) : (newBuffer s).outq = s.outq := by rw [newBuffer_eq]
@[simp] theorem newBuffer_inq (s : State) : (newBuffer s).inq = s.inq := by rw [newBuffer_eq]
@[simp] theorem newBuffer_mboxPeek (s : State) : (newBuffer s).mboxPeek = s.mboxPeek := by rw [newBuffer_eq]
@[simp] theorem newBuffer_mboxSender (s : State) : (newBuffer s).mboxSender = s.mboxSender := by rw [newBuffer_eq]
@[simp] theorem newBuffer_mboxConfig (s : State) : (newBuffer s).mboxConfig = s.mboxConfig := by rw [newBuffer_eq]
@[simp] theorem newBuffer_fwPending (s : State) : (newBuffer s).fwPending = s.fwPending := by rw [newBuffer_eq]
@[simp] theorem newBuffer_running (s : State) : (newBuffer s).running = s.running := by rw [newBuffer_eq]
@[simp] theorem newBuffer_recipe (s : State) : (newBuffer s).recipe = s.recipe := by rw [newBuffer_eq]
@[simp] theorem newBuffer_readData (s : State) : (newBuffer s).readData = s.readData := by rw [newBuffer_eq]
@[simp] theorem newBuffer_draws (s : State) : (newBuffer s).draws = s.draws := by rw [newBuffer_eq]
@[simp] theorem newBuffer_agenda (s : State) : (newBuffer s).agenda = s.agenda := by rw [newBuffer_eq]
@[simp] theorem newBuffer_phase (s : State) : (newBuffer s).phase = .build := by rw [newBuffer_eq]
@[simp] theorem newBuffer_unbroken (s : State) : (newBuffer s).unbroken = true := by rw [newBuffer_eq]
@[simp] theorem newBuffer_result (s : State) : (newBuffer s).result = ⟨.ok, 0#32⟩ := by rw [newBuffer_eq]

@[simp] theorem newBuffer_holdsGuard (s : State) (k : Nat) : (newBuffer s).holdsGuard k = s.holdsGuard k :=
  State.holdsGuard_congr (newBuffer_locks s) (newBuffer_running s) k

/-- After NEW_BUFFER the guard its issuer holds covers the request. -/
@[simp] theorem newBuffer_holdsRequest (s : State) : (newBuffer s).holdsRequest = s.holdsGuard 0 := by
  simp [State.holdsRequest]

theorem cmdNewBuffer_next {s t : State} :
    cmdNewBuffer s = .next t ↔ s.holdsGuard 0 = true ∧ s.phase ∈ newBufferPhases ∧ t = newBuffer s := by
  rw [cmdNewBuffer, admit_next, next_eq_next]

/-! ### FindEnd and WRITE_TAG -/

/-- What the walk finds is a zero word inside the buffer, not before the place it starts from. -/
theorem walkTags_found {s : State} {fuel p q : Nat} (h : walkTags s fuel p = .found q) :
    p ≤ q ∧ q < Config.bufWords ∧ s.buf q = some 0#32 := by
  induction fuel generalizing p with
  | zero => simp [walkTags] at h
  | succ fuel ih =>
    rw [walkTags] at h
    split at h
    · simp at h
    · split at h
      · simp at h
      · next id hid =>
        have hlt : ¬ Config.bufWords ≤ p := by assumption
        split at h
        · next e =>
          rw [ScanEnd.found.injEq] at h
          subst h e
          exact ⟨Nat.le_refl _, Nat.not_le.mp hlt, hid⟩
        · split at h
          · simp at h
          · split at h
            · simp at h
            · obtain ⟨h1, h2⟩ := ih h
              exact ⟨by unfold tagLength at h1; omega, h2⟩

/-- What the scan finds is a zero word inside the buffer, not before the place it starts from. -/
theorem scanWords_found {s : State} {fuel p q : Nat} (h : scanWords s fuel p = .found q) :
    p ≤ q ∧ q < Config.bufWords ∧ s.buf q = some 0#32 := by
  induction fuel generalizing p with
  | zero => simp [scanWords] at h
  | succ fuel ih =>
    rw [scanWords] at h
    split at h
    · simp at h
    · split at h
      · simp at h
      · next w hw =>
        have hlt : ¬ Config.bufWords ≤ p := by assumption
        split at h
        · next e =>
          rw [ScanEnd.found.injEq] at h
          subst h e
          exact ⟨Nat.le_refl _, Nat.not_le.mp hlt, hw⟩
        · obtain ⟨h1, h2⟩ := ih h
          exact ⟨by omega, h2⟩

theorem findEnd_found {s : State} {p : Nat} (h : findEnd s = .found p) :
    2 ≤ p ∧ p < Config.bufWords ∧ s.buf p = some 0#32 := by
  unfold findEnd at h
  split at h
  · exact walkTags_found h
  · exact scanWords_found h

/-- FindEnd answers on a buffer all of whose words hold a value. -/
theorem findEnd_ne_unwritten {s : State} (h : ∀ i < Config.bufWords, (s.buf i).isSome = true) :
    findEnd s ≠ .unwritten := by
  have walk : ∀ fuel p, walkTags s fuel p ≠ .unwritten := by
    intro fuel
    induction fuel with
    | zero => simp [walkTags]
    | succ fuel ih =>
      intro p
      rw [walkTags]
      split
      · simp
      · next hp =>
        obtain ⟨id, hid⟩ := Option.isSome_iff_exists.mp (h p (Nat.not_le.mp hp))
        rw [hid]
        simp only
        split
        · simp
        · split
          · simp
          · next hp1 =>
            obtain ⟨size, hs⟩ := Option.isSome_iff_exists.mp (h (p + 1) (Nat.not_le.mp hp1))
            rw [hs]
            exact ih _
  have scan : ∀ fuel p, scanWords s fuel p ≠ .unwritten := by
    intro fuel
    induction fuel with
    | zero => simp [scanWords]
    | succ fuel ih =>
      intro p
      rw [scanWords]
      split
      · simp
      · next hp =>
        obtain ⟨w, hw⟩ := Option.isSome_iff_exists.mp (h p (Nat.not_le.mp hp))
        rw [hw]
        simp only
        split
        · simp
        · exact ih _
  unfold findEnd
  split
  · exact walk _ _
  · exact scan _ _

theorem copyTag_mem (s : State) (p : Nat) (ws : List Word) (size : Word) :
    (copyTag s p ws size).mem = ((s.writeBuf p ws).writeBuf 0 [size + BitVec.ofNat 32 (4 * ws.length)]).mem := rfl

theorem copyTag_mem_wf {s : State} (p : Nat) (ws : List Word) (size : Word) (h : s.mem.wf = true) :
    (copyTag s p ws size).mem.wf = true := by
  rw [copyTag_mem, State.writeBuf_mem, State.writeBuf_mem]
  exact Memory.writeWords_wf _ _ (Memory.writeWords_wf _ _ h)

/-- WRITE_TAG writes memory and RESULT only, with RESULT = (Ok, p). -/
theorem copyTag_eq (s : State) (p : Nat) (ws : List Word) (size : Word) :
    copyTag s p ws size =
      { s with mem := (copyTag s p ws size).mem, result := ⟨.ok, BitVec.ofNat 32 p⟩ } := rfl

theorem copyTag_buf_zero (s : State) (p : Nat) (ws : List Word) (size : Word) :
    (copyTag s p ws size).buf 0 = some (size + BitVec.ofNat 32 (4 * ws.length)) :=
  State.buf_writeBuf_at (s.writeBuf p ws) 0 [size + BitVec.ofNat 32 (4 * ws.length)] (j := 0) (by simp)

theorem copyTag_buf_list (s : State) {p : Nat} (hp : 1 ≤ p) (ws : List Word) (size : Word) {j : Nat}
    (h : j < ws.length) : (copyTag s p ws size).buf (p + j) = some ws[j] := by
  show ((s.writeBuf p ws).writeBuf 0 [size + BitVec.ofNat 32 (4 * ws.length)]).buf (p + j) = _
  rw [State.buf_writeBuf_other _ _ (.inr (by simp; omega))]
  exact State.buf_writeBuf_at s p ws h

theorem copyTag_buf_other (s : State) {p i : Nat} (ws : List Word) (size : Word) (h0 : i ≠ 0)
    (h : i < p ∨ p + ws.length ≤ i) : (copyTag s p ws size).buf i = s.buf i := by
  show ((s.writeBuf p ws).writeBuf 0 [size + BitVec.ofNat 32 (4 * ws.length)]).buf i = _
  rw [State.buf_writeBuf_other _ _ (.inr (by simp; omega)), State.buf_writeBuf_other _ _ h]

theorem copyTag_readByte_other (s : State) (p : Nat) (ws : List Word) (size : Word) {a : Nat}
    (h0 : a < s.wordAddr 0 ∨ s.wordAddr 1 ≤ a) (h : a < s.wordAddr p ∨ s.wordAddr (p + ws.length) ≤ a) :
    (copyTag s p ws size).mem.readByte a = s.mem.readByte a := by
  rw [copyTag_mem, State.readByte_writeBuf_other (s.writeBuf p ws) 0 _ (by simpa [State.wordAddr_eq] using h0),
    State.readByte_writeBuf_other s p ws h]

/-- Everything WRITE_TAG can do: raise BufferFull, or copy the list to the index FindEnd answered. -/
theorem writeTag_next {ws : List Word} {s t : State} (h : writeTag ws s = .next t) :
    (∃ info, t = s.raise .bufferFull info) ∨
    (∃ p size, findEnd s = .found p ∧ p + ws.length + s.cfg.termReserve.val ≤ Config.bufWords ∧
      s.buf 0 = some size ∧ t = copyTag s p ws size) := by
  unfold writeTag at h
  split at h
  · simp at h
  · exact .inl ⟨_, (Host.Outcome.next.inj h).symm⟩
  · next p hp =>
    split at h
    · exact .inl ⟨_, (Host.Outcome.next.inj h).symm⟩
    · next hfit =>
      obtain ⟨size, hs, ht⟩ := withWord_next.mp h
      exact .inr ⟨p, size, hp, by simpa [tagTooLong] using hfit, hs, (Host.Outcome.next.inj ht).symm⟩

theorem writeTag_fits {ws : List Word} {s : State} {p : Nat} {size : Word} (hp : findEnd s = .found p)
    (hfit : p + ws.length + s.cfg.termReserve.val ≤ Config.bufWords) (h0 : s.buf 0 = some size) :
    writeTag ws s = .next (copyTag s p ws size) := by
  simp [writeTag, hp, tagTooLong, Nat.not_lt.mpr hfit, withWord_eq h0]

theorem writeTag_full {ws : List Word} {s : State} {p : Nat} (hp : findEnd s = .found p)
    (hfit : Config.bufWords < p + ws.length + s.cfg.termReserve.val) :
    writeTag ws s = .next (s.raise .bufferFull (BitVec.ofNat 32 p)) := by
  simp [writeTag, hp, tagTooLong, hfit]

theorem cmdWriteTag_next {ws : List Word} {s t : State} :
    cmdWriteTag ws s = .next t ↔ s.holdsRequest = true ∧ s.phase = .build ∧ writeTag ws s = .next t := by
  simp [cmdWriteTag, admitInRequest_next]

/-! ### CALL and its phase-steps -/

theorem cmdCall_next {s t : State} :
    cmdCall s = .next t ↔ s.holdsRequest = true ∧ s.phase = .build ∧ t = acceptCall s := by
  simp only [cmdCall, admitInRequest_next, next_eq_next, List.mem_singleton]

theorem submitPollStep_next {s t : State} :
    submitPollStep s = .next t ↔ s.phase = .submitPoll ∧ s.baseValid = true ∧
      t = if s.outq.length = s.cfg.fifoDepth then pollFailed .submitPoll s.statusDrawn
        else s.statusDrawn.setPhase .submitWrite := by
  simp only [submitPollStep, inStep_next, throughRa_next, next_eq_next, State.status, State.outqFull, decide_eq_true_eq]

theorem submitWriteStep_next {s t : State} :
    submitWriteStep s = .next t ↔ s.phase = .submitWrite ∧ s.baseValid = true ∧ s.outq.length ≠ s.cfg.fifoDepth ∧
      t = ((((s.setSub (submissionWord s.cfg.bufAddr)).setOutq (s.outq ++ [submissionWord s.cfg.bufAddr])).setPolls
        0).setPhase .corrPoll) := by
  simp only [submitWriteStep, inStep_next, throughRa_next, andThen_next, appendOutbound_next, State.setSub_outq,
    State.setSub_cfg, next_eq_next]
  constructor
  · rintro ⟨h1, h2, u, ⟨h3, rfl⟩, rfl⟩
    exact ⟨h1, h2, h3, rfl⟩
  · rintro ⟨h1, h2, h3, rfl⟩
    exact ⟨h1, h2, _, ⟨h3, rfl⟩, rfl⟩

theorem corrPollStep_next {s t : State} :
    corrPollStep s = .next t ↔ s.phase = .corrPoll ∧ s.baseValid = true ∧
      t = if s.inq = [] then pollFailed .corrPoll s.statusDrawn else s.statusDrawn.setPhase .corrRead := by
  simp only [corrPollStep, inStep_next, throughRa_next, next_eq_next, State.status, State.inqEmpty, decide_eq_true_eq,
    List.length_eq_zero_iff]

/-- Everything CORR_READ can do: classify the matching word, or drop any other. -/
theorem corrReadStep_next {s t : State} :
    corrReadStep s = .next t ↔ s.phase = .corrRead ∧ s.baseValid = true ∧ ∃ w q, s.inq = w :: q ∧
      ((w = s.sub ∧ classify ((s.setInq q).setResp w) = .next t) ∨
        (w ≠ s.sub ∧ t = pollFailed .corrPoll ((s.setInq q).setResp w))) := by
  simp only [corrReadStep, inStep_next, throughRa_next, takeInbound_next]
  refine and_congr_right fun _ => and_congr_right fun _ => exists_congr fun w => exists_congr fun q =>
    and_congr_right fun _ => ?_
  by_cases e : w = s.sub
  · simp [e, (responseMatches_iff s.sub s.sub).mpr rfl]
  · simp only [e, responseMatches_false e, next_eq_next, Bool.false_eq_true, if_false, false_and, false_or, ne_eq,
      not_false_eq_true, true_and]

/-- Everything the steps that can end CALL can do: what the phase-step of PHASE does. -/
theorem callStep_next {s t : State} (h : callStep s = .next t) :
    submitPollStep s = .next t ∨ corrPollStep s = .next t ∨ corrReadStep s = .next t := by
  unfold callStep at h
  split at h
  · exact .inl h
  · exact .inr (.inl h)
  · exact .inr (.inr h)
  all_goals exact absurd h refused_ne_next

/-- Everything classify can do: one of four ends, by BUF[1]. -/
theorem classify_next {s t : State} :
    classify s = .next t ↔ ∃ c, s.buf 1 = some c ∧
      t = (s.setPhase (if c = Config.codeResponse then .doneOk else .doneErr)).setResult
        ⟨if c = Config.codeResponse then .ok
          else if c = Config.codeResponseError then .firmwareRejected
          else if c = Config.codeRequest then .noResponse
          else .unknownResponseStatus, c⟩ := by
  unfold classify
  rw [withWord_next]
  refine exists_congr fun c => and_congr_right fun _ => ?_
  split_ifs <;> rw [next_eq_next] <;> rfl

/-! ### TAG_CHECK, READ_WORD, DISCARD -/

theorem tagVerdict_next {n : Nat} {s t : State} :
    tagVerdict n s = .next t ↔ (2 ≤ n ∧ n ≤ 33) ∧ ∃ c, s.buf (n + 2) = some c ∧
      t = s.setResult ⟨if c.getLsbD 31 then .ok else .tagNotAnswered, c⟩ := by
  by_cases h : 2 ≤ n ∧ n ≤ 33
  · simp only [tagVerdict, h, and_self, if_true, withWord_next, true_and]
    refine exists_congr fun c => and_congr_right fun _ => ?_
    cases hc : c.getLsbD 31 <;>
      simp only [responseBit, hc, if_true, Bool.false_eq_true, if_false, next_eq_next, State.ret, State.raise]
  · simp [tagVerdict, h]

theorem cmdTagCheck_next {n : Nat} {s t : State} :
    cmdTagCheck n s = .next t ↔ s.holdsRequest = true ∧ s.phase ∈ [Phase.doneOk, .doneErr] ∧ tagVerdict n s = .next t :=
  admitInRequest_next

theorem readBufferWord_next {n : Nat} {s t : State} :
    readBufferWord n s = .next t ↔ n < Config.bufWords ∧ ∃ w, s.buf n = some w ∧ t = s.setResult ⟨.ok, w⟩ := by
  by_cases h : n < Config.bufWords
  · simp only [readBufferWord, h, if_true, withWord_next, true_and]
    exact exists_congr fun c => and_congr_right fun _ => by rw [next_eq_next, State.ret]
  · simp [readBufferWord, h]

theorem cmdReadWord_next {n : Nat} {s t : State} :
    cmdReadWord n s = .next t ↔
      s.holdsRequest = true ∧ s.phase ∈ [Phase.build, .doneOk, .doneErr] ∧ readBufferWord n s = .next t :=
  admitInRequest_next

theorem cmdDiscard_next {s t : State} :
    cmdDiscard s = .next t ↔ s.holdsRequest = true ∧ s.phase ∈ [Phase.build, .doneOk, .doneErr] ∧
      t = (s.setPhase .none).setResult ⟨.ok, 0#32⟩ := by
  rw [cmdDiscard, admitInRequest_next, next_eq_next, State.ret]

/-! ### TRY_ACQUIRE and RELEASE -/

/-- Everything an attempt on a lock can do when it completes: take an unlocked flag, or report contention. -/
theorem tryAcquire_next {k : Nat} {s t : State} :
    tryAcquire k s = .next t ↔ ∃ l, s.locks[k]? = some l ∧
      ((l.flag = .unlocked ∧ t = acquire k s) ∨
        (l.flag = .locked ∧ t = s.raise .lockContention (BitVec.ofNat 32 k))) := by
  unfold tryAcquire
  cases hl : s.locks[k]? with
  | none => simp
  | some l => cases hf : l.flag <;> simp [hf, next_eq_next, -Host.Outcome.next.injEq]

theorem execTryAcquire_next {k : BitVec 8} {s t : State} :
    execTryAcquire k s = .next t ↔ s.busy = false ∧ tryAcquire k.toNat s = .next t := hostTurn_next

theorem execRelease_next {k : BitVec 8} {s t : State} :
    execRelease k s = .next t ↔ s.busy = false ∧ ∃ l, s.locks[k.toNat]? = some l ∧ l.live = true ∧
      l.holder = s.running ∧ t = giveBack k.toNat l s := by
  simp only [execRelease, hostTurn_next]
  refine and_congr_right fun _ => ?_
  cases hl : s.locks[k.toNat]? with
  | none => simp
  | some l =>
    by_cases h1 : l.live = true <;> by_cases h2 : l.holder = s.running <;>
      simp [State.holdsGuard, hl, h1, h2, next_eq_next, -Host.Outcome.next.injEq]

/-! ### The recipes -/

/-- Everything issuing a recipe can do: NEW_BUFFER, and the recipe stands at its second command. -/
theorem startRecipe_next {k : RecipeKind} {s t : State} :
    startRecipe k s = .next t ↔ s.holdsGuard 0 = true ∧ s.phase ∈ newBufferPhases ∧
      t = (newBuffer s).setRecipe (some ⟨k, .writeTag, 0#32, 0#32⟩) := by
  simp only [startRecipe, andThen_next, cmdNewBuffer_next, next_eq_next]
  constructor
  · rintro ⟨u, ⟨h1, h2, rfl⟩, rfl⟩
    exact ⟨h1, h2, rfl⟩
  · rintro ⟨h1, h2, rfl⟩
    exact ⟨_, ⟨h1, h2, rfl⟩, rfl⟩

theorem abandonRecipe_next {r : Result} {s t : State} :
    abandonRecipe r s = .next t ↔ s.holdsRequest = true ∧ s.phase ∈ [Phase.build, .doneOk, .doneErr] ∧
      t = ((s.setPhase .none).setRecipe none).setResult r := by
  simp only [abandonRecipe, andThen_next, cmdDiscard_next, next_eq_next]
  constructor
  · rintro ⟨u, ⟨h1, h2, rfl⟩, rfl⟩
    exact ⟨h1, h2, rfl⟩
  · rintro ⟨h1, h2, rfl⟩
    exact ⟨_, ⟨h1, h2, rfl⟩, rfl⟩

end Sys2Proof.Machine
end

