-- ==== Sys2Proof/Laws/Encoding.lean ====
section
/-! SUPPORT. The fields of the encoder's words, as the decoder reads them. -/

namespace Sys2Proof

@[simp] theorem cwOp_cwMake (arg : BitVec 8) (ch op : BitVec 4) : cwOp (cwMake arg ch op) = op := by
  apply BitVec.eq_of_getLsbD_eq
  intro k hk
  rw [cwOp, BitVec.getLsbD_extractLsb', cwMake, BitVec.getLsbD_append, BitVec.getLsbD_append, BitVec.getLsbD_append]
  simp [hk, show k < 16 by omega, show k < 8 by omega]

@[simp] theorem cwCh_cwMake (arg : BitVec 8) (ch op : BitVec 4) : cwCh (cwMake arg ch op) = ch := by
  apply BitVec.eq_of_getLsbD_eq
  intro k hk
  rw [cwCh, BitVec.getLsbD_extractLsb', cwMake, BitVec.getLsbD_append, BitVec.getLsbD_append, BitVec.getLsbD_append]
  simp [hk, show 4 + k < 16 by omega, show 4 + k < 8 by omega]

@[simp] theorem cwArg_cwMake (arg : BitVec 8) (ch op : BitVec 4) : cwArg (cwMake arg ch op) = arg := by
  apply BitVec.eq_of_getLsbD_eq
  intro k hk
  rw [cwArg, BitVec.getLsbD_extractLsb', cwMake, BitVec.getLsbD_append, BitVec.getLsbD_append]
  simp [hk, show 8 + k < 16 by omega]

@[simp] theorem cwReserved_cwMake (arg : BitVec 8) (ch op : BitVec 4) : cwReserved (cwMake arg ch op) = 0#16 := by
  apply BitVec.eq_of_getLsbD_eq
  intro k hk
  rw [cwReserved, BitVec.getLsbD_extractLsb', cwMake, BitVec.getLsbD_append]
  simp

/-- A command word whose reserved bits are zero is made of its other fields. -/
theorem cwMake_fields {cw : Word} (h : cwReserved cw = 0#16) : cwMake (cwArg cw) (cwCh cw) (cwOp cw) = cw := by
  apply BitVec.eq_of_getLsbD_eq
  intro k hk
  rw [cwMake, BitVec.getLsbD_append, BitVec.getLsbD_append, BitVec.getLsbD_append]
  by_cases h1 : k < 16
  · by_cases h2 : k < 8
    · by_cases h3 : k < 4
      · simp [h1, h2, h3, cwOp]
      · simp [h1, h2, h3, cwCh, show k - 4 < 4 by omega, show 4 + (k - 4) = k by omega]
    · simp [h1, h2, cwArg, show k - 8 < 8 by omega, show 8 + (k - 8) = k by omega]
  · have := congrArg (fun v => v.getLsbD (k - 16)) h
    simp only [cwReserved, BitVec.getLsbD_extractLsb', show k - 16 < 16 by omega, show 16 + (k - 16) = k by omega,
      decide_true, Bool.true_and] at this
    simp [h1, this]

@[simp] theorem selWrites_selMake (b : Bool) (off : BitVec 8) : selWrites (selMake b off) = b := by
  rw [selWrites, selMake, BitVec.getLsbD_append, BitVec.getLsbD_append]
  simp

@[simp] theorem selOffset_selMake (b : Bool) (off : BitVec 8) : selOffset (selMake b off) = off := by
  apply BitVec.eq_of_getLsbD_eq
  intro k hk
  rw [selOffset, BitVec.getLsbD_extractLsb', selMake, BitVec.getLsbD_append, BitVec.getLsbD_append]
  simp [hk, show k < 9 by omega]

theorem selMake_lt (b : Bool) (off : BitVec 8) : (selMake b off).toNat < 0x200 := by
  rw [selMake]
  have h := off.isLt
  have h1 : (BitVec.ofBool b ++ off).toNat < 2 ^ (1 + 8) := (BitVec.ofBool b ++ off).isLt
  simp only [BitVec.toNat_append, BitVec.toNat_zero, Nat.zero_shiftLeft, Nat.zero_or] at *
  omega

theorem decode_command (ws : List Word) : decode .command ws = decodeCommand ws := rfl

theorem decode_other {p : Port} (h : p ≠ .command) (ws : List Word) :
    decode p ws = (decodeOne p ws).map fun i => (i, []) := if_neg h

theorem decodeWords_eq {n : Nat} {ws : List Word} (h : ws.length = n) (k : List Word → Except Reject Instr) :
    decodeWords n ws k = k ws := by
  simp [decodeWords, h]

/-- A selector below 512 and the words its direction asks for decode to the row of its offset. -/
theorem decodeAccess_eq {sel : Word} {vs : List Word} {acc : Access} (h : sel.toNat < 0x200)
    (hv : decodeValue (selWrites sel) vs = .ok acc) :
    decodeAccess (sel :: vs) = .ok (accessRow (selOffset sel) acc) := by
  unfold decodeAccess
  simp only [Nat.not_le.mpr h, if_false, hv]
  rfl

/-- An access decodes to the row of its offset. -/
theorem decodeAccess_encodeAccess (off : BitVec 8) (acc : Access) :
    decodeAccess (encodeAccess off acc) = .ok (accessRow off acc) := by
  cases acc with
  | read => rw [encodeAccess, decodeAccess_eq (selMake_lt _ _) (by rw [selWrites_selMake]; rfl), selOffset_selMake]
  | write v => rw [encodeAccess, decodeAccess_eq (selMake_lt _ _) (by rw [selWrites_selMake]; rfl), selOffset_selMake]

end Sys2Proof
end

