-- ==== Sys2Proof/Laws/Exec.lean ====
section
/-! SUPPORT. Everything an instruction can do when it answers a next state, said once for all of them, and the same for the
steps around them. -/

namespace Sys2Proof.Machine

/-- What a completed instruction has done to the state, by kind of effect. -/
inductive Effect (s : State) : Instr → State → Prop where
  | newBuffer (idle : s.busy = false) (guard : s.holdsGuard 0 = true) (phase : s.phase ∈ newBufferPhases) :
      Effect s .newBuffer (Machine.newBuffer s)
  | recipe {i : Instr} (k : RecipeKind) (hi : i = .getFirmwareRevision ∨ i = .getBoardSerial) (idle : s.busy = false)
      (guard : s.holdsGuard 0 = true) (phase : s.phase ∈ newBufferPhases) :
      Effect s i ((Machine.newBuffer s).setRecipe (some ⟨k, .writeTag, 0#32, 0#32⟩))
  | writeTag {i : Instr} {t : State} (ws : List Word) (hi : i = .writeTag ws ∨ encodePort i = .tagId)
      (idle : s.busy = false) (guard : s.holdsRequest = true) (phase : s.phase = .build)
      (run : Machine.writeTag ws s = .next t) : Effect s i t
  | call (idle : s.busy = false) (guard : s.holdsRequest = true) (phase : s.phase = .build) :
      Effect s .call (acceptCall s)
  /-- RESULT only, between commands -/
  | result {i : Instr} (r : Result) (idle : s.busy = false) : Effect s i (s.setResult r)
  | discard (idle : s.busy = false) (guard : s.holdsRequest = true) (phase : s.phase ∈ [Phase.build, .doneOk, .doneErr]) :
      Effect s .discard ((s.setPhase .none).setResult ⟨.ok, 0#32⟩)
  | acquire (k : BitVec 8) (l : LockCell) (idle : s.busy = false) (cell : s.locks[k.toNat]? = some l)
      (free : l.flag = .unlocked) : Effect s (.tryAcquire k) (Machine.acquire k.toNat s)
  | release (k : BitVec 8) (l : LockCell) (idle : s.busy = false) (cell : s.locks[k.toNat]? = some l)
      (live : l.live = true) (mine : l.holder = s.running) : Effect s (.release k) (giveBack k.toNat l s)
  | submitPoll {i : Instr} {t : State} (hi : encodePort i ∈ [Port.submitPoll, .status, .result])
      (run : submitPollStep s = .next t) : Effect s i t
  | submitWrite {i : Instr} {t : State} (hi : encodePort i ∈ [Port.submitWrite, .submission])
      (run : submitWriteStep s = .next t) : Effect s i t
  | corrPoll {i : Instr} {t : State} (hi : encodePort i ∈ [Port.corrPoll, .status, .result])
      (run : corrPollStep s = .next t) : Effect s i t
  | corrRead {i : Instr} {t : State} (hi : encodePort i ∈ [Port.corrRead, .bufferCode, .channel, .result])
      (run : corrReadStep s = .next t) : Effect s i t
  /-- the CPU-model detection has failed -/
  | startupFails {i : Instr} (k : Kind)
      (hi : ∃ w, (i = .kindUnsupportedBoard w ∧ k = .unsupportedBoard) ∨
        (i = .kindUnsupportedCpuModel w ∧ k = .unsupportedCpuModel)) (unresolved : s.baseValid = false)
      (first : s.startup = none) : Effect s i (s.setStartup (some k))
  /-- a register read through an address: one word taken from INQ -/
  | raReadWord (a w : Word) (q : List Word) (idle : s.busy = false) (head : s.inq = w :: q) :
      Effect s (.raRead a) ((s.setInq q).setResult ⟨.ok, w⟩)
  /-- a status read through an address -/
  | raReadStatus (a : Word) (idle : s.busy = false) :
      Effect s (.raRead a) (s.statusDrawn.setResult ⟨.ok, s.status.word⟩)
  | raWrite (a v : Word) (idle : s.busy = false) (room : s.outq.length ≠ s.cfg.fifoDepth) :
      Effect s (.raWrite a v) (s.setOutq (s.outq ++ [v]))
  | readWord (w : Word) (q : List Word) (head : s.inq = w :: q) :
      Effect s .rdMboxRw ((s.setInq q).setReadData w)
  | readStatus : Effect s .rdMboxStatus (s.statusDrawn.setReadData s.status.word)
  | writeReg (v : Word) (room : s.outq.length ≠ s.cfg.fifoDepth) :
      Effect s (.wrMboxWrite v) (s.setOutq (s.outq ++ [v]))
  | fwPop (w : Word) (q : List Word) (head : s.outq = w :: q) :
      Effect s .fwPop ((s.setOutq q).setFwPending (insertWord w s.fwPending))
  | fwProcess (w : Word) (f : List Word) (pending : w ∈ s.fwPending) (mine : designatesBuffer s.cfg w = true)
      (len : f.length = Config.bufWords) : Effect s (.fwProcess w f) (s.writeBuf 0 f)
  | fwPush (w : Word) (pending : w ∈ s.fwPending) (room : s.inq.length < s.cfg.fifoDepth) :
      Effect s (.fwPush w) ((s.setFwPending (removeWord w s.fwPending)).setInq (s.inq ++ [w]))
  | foreignPush (x : Word) (room : s.inq.length < s.cfg.fifoDepth) (foreign : x ≠ submissionWord s.cfg.bufAddr) :
      Effect s (.foreignPush x) (s.setInq (s.inq ++ [x]))

/-! ### The shared shapes of the wire-format rows -/

theorem tagIdStep_effect {i : Instr} {id : Word} {rest : List Word} {s t : State} (hi : encodePort i = .tagId)
    (h : tagIdStep id rest s = .next t) : Effect s i t := by
  obtain ⟨hb, h⟩ := hostTurn_next.mp h
  obtain ⟨hg, hp, h⟩ := cmdWriteTag_next.mp h
  exact .writeTag _ (.inr hi) hb hg hp h

theorem detection_next {s t : State} {k : Out} :
    detection s k = .next t ↔ s.baseValid = false ∧ s.startup = none ∧ k = .next t := by
  unfold detection
  cases s.baseValid <;> cases s.startup <;> simp

theorem detectionFails_effect {i : Instr} {k : Kind} {s t : State}
    (hi : ∃ w, (i = .kindUnsupportedBoard w ∧ k = .unsupportedBoard) ∨
      (i = .kindUnsupportedCpuModel w ∧ k = .unsupportedCpuModel)) (h : detectionFails k s = .next t) : Effect s i t := by
  obtain ⟨hb, hs, h⟩ := detection_next.mp h
  rw [next_eq_next.mp h]
  exact .startupFails k hi hb hs

/-- An end of CALL, as a result-kind row. -/
theorem callEnds_effect {i : Instr} {k : Kind} {info : Word} {s t : State} (hi : encodePort i = .result)
    (h : endingWith k info (callStep s) = .next t) : Effect s i t := by
  rcases callStep_next (endingWith_next.mp h).1 with h | h | h
  · exact .submitPoll (by simp [hi]) h
  · exact .corrPoll (by simp [hi]) h
  · exact .corrRead (by simp [hi]) h

theorem codeStep_effect {i : Instr} {c : Word} {s t : State}
    (hi : encodePort i ∈ [Port.corrRead, .bufferCode, .channel, .result]) (h : codeStep c s = .next t) :
    Effect s i t := by
  obtain ⟨-, h⟩ := inStep_next.mp h
  obtain ⟨-, h⟩ := throughRa_next.mp h
  obtain ⟨w, q, -, h⟩ := takeInbound_next.mp h
  split at h
  · exact .corrRead hi h
  · exact absurd h refused_ne_next

theorem channelStep_effect {i : Instr} {ch : BitVec 4} {s t : State}
    (hi : encodePort i ∈ [Port.corrRead, .bufferCode, .channel, .result]) (h : channelStep ch s = .next t) :
    Effect s i t := by
  obtain ⟨-, h⟩ := inStep_next.mp h
  obtain ⟨-, h⟩ := throughRa_next.mp h
  obtain ⟨w, q, -, h⟩ := takeInbound_next.mp h
  split at h
  · exact .corrRead hi h
  · exact absurd h refused_ne_next

theorem cmdTagCheck_effect {i : Instr} {n : Nat} {s t : State} (hb : s.busy = false) (h : cmdTagCheck n s = .next t) :
    Effect s i t := by
  obtain ⟨-, -, h⟩ := cmdTagCheck_next.mp h
  obtain ⟨-, c, -, rfl⟩ := tagVerdict_next.mp h
  exact .result _ hb

theorem cmdReadWord_effect {i : Instr} {n : Nat} {s t : State} (hb : s.busy = false) (h : cmdReadWord n s = .next t) :
    Effect s i t := by
  obtain ⟨-, -, h⟩ := cmdReadWord_next.mp h
  obtain ⟨-, w, -, rfl⟩ := readBufferWord_next.mp h
  exact .result _ hb

theorem recipe_effect {i : Instr} {k : RecipeKind} {s t : State} (hi : i = .getFirmwareRevision ∨ i = .getBoardSerial)
    (h : hostTurn s (startRecipe k s) = .next t) : Effect s i t := by
  obtain ⟨hb, h⟩ := hostTurn_next.mp h
  obtain ⟨hg, hp, rfl⟩ := startRecipe_next.mp h
  exact .recipe k hi hb hg hp

theorem returnAddress_effect {i : Instr} {a : Nat} {s t : State}
    (h : hostTurn s (throughRa s (returnAddress a s)) = .next t) : Effect s i t := by
  obtain ⟨hb, h⟩ := hostTurn_next.mp h
  obtain ⟨-, h⟩ := throughRa_next.mp h
  unfold returnAddress at h
  split at h
  · exact absurd h refused_ne_next
  · rw [next_eq_next.mp h]
    exact .result _ hb

theorem raRead_effect {a : Word} {s t : State} (h : execRaRead a s = .next t) : Effect s (.raRead a) t := by
  obtain ⟨hb, h⟩ := hostTurn_next.mp h
  obtain ⟨-, h⟩ := throughRa_next.mp h
  split at h
  · exact absurd h refused_ne_next
  · split at h
    · obtain ⟨w, q, hq, h⟩ := takeInbound_next.mp h
      rw [next_eq_next.mp h]
      exact .raReadWord a w q hb hq
    · split at h
      · rw [next_eq_next.mp h]
        exact .raReadStatus a hb
      · exact absurd h refused_ne_next

theorem raWrite_effect {a v : Word} {s t : State} (h : execRaWrite a v s = .next t) : Effect s (.raWrite a v) t := by
  obtain ⟨hb, h⟩ := hostTurn_next.mp h
  obtain ⟨-, h⟩ := throughRa_next.mp h
  split at h
  · exact absurd h refused_ne_next
  · split at h
    · obtain ⟨hr, rfl⟩ := appendOutbound_next.mp h
      exact .raWrite a v hb hr
    · exact absurd h refused_ne_next

/-! ### Every instruction -/

theorem exec_next {i : Instr} {s t : State} (h : exec i s = .next t) : Effect s i t := by
  cases i
  case newBuffer =>
    obtain ⟨hb, h⟩ := hostTurn_next.mp h
    obtain ⟨hg, hp, rfl⟩ := cmdNewBuffer_next.mp h
    exact .newBuffer hb hg hp
  case writeTag ws =>
    obtain ⟨hb, h⟩ := hostTurn_next.mp h
    obtain ⟨hg, hp, h⟩ := cmdWriteTag_next.mp h
    exact .writeTag ws (.inl rfl) hb hg hp h
  case call =>
    obtain ⟨hb, h⟩ := hostTurn_next.mp h
    obtain ⟨hg, hp, rfl⟩ := cmdCall_next.mp h
    exact .call hb hg hp
  case tagCheck => exact cmdTagCheck_effect (hostTurn_next.mp h).1 (hostTurn_next.mp h).2
  case tagResponseBit => exact cmdTagCheck_effect (hostTurn_next.mp h).1 (hostTurn_next.mp h).2
  case readWord => exact cmdReadWord_effect (hostTurn_next.mp h).1 (hostTurn_next.mp h).2
  case discard =>
    obtain ⟨hb, h⟩ := hostTurn_next.mp h
    obtain ⟨hg, hp, rfl⟩ := cmdDiscard_next.mp h
    exact .discard hb hg hp
  case tryAcquire k =>
    obtain ⟨hb, h⟩ := execTryAcquire_next.mp h
    obtain ⟨l, hl, ⟨hf, rfl⟩ | ⟨-, rfl⟩⟩ := tryAcquire_next.mp h
    · exact .acquire k l hb hl hf
    · exact .result _ hb
  case release k =>
    obtain ⟨hb, l, hl, hv, hh, rfl⟩ := execRelease_next.mp h
    exact .release k l hb hl hv hh
  case getFirmwareRevision => exact recipe_effect (.inl rfl) h
  case getBoardSerial => exact recipe_effect (.inr rfl) h
  case stepSubmitPoll => exact .submitPoll (by decide) h
  case stepSubmitWrite => exact .submitWrite (by decide) h
  case stepCorrPoll => exact .corrPoll (by decide) h
  case stepCorrRead => exact .corrRead (by decide) h
  case raNew => exact returnAddress_effect h
  case raOffset => exact returnAddress_effect h
  case raRead => exact raRead_effect h
  case raWrite => exact raWrite_effect h
  case rdMboxRw =>
    obtain ⟨-, h⟩ := throughRa_next.mp h
    obtain ⟨w, q, hq, h⟩ := takeInbound_next.mp h
    rw [next_eq_next.mp h]
    exact .readWord w q hq
  case rdMboxStatus =>
    obtain ⟨-, h⟩ := throughRa_next.mp h
    rw [next_eq_next.mp h]
    exact .readStatus
  case wrMboxWrite v =>
    obtain ⟨-, h⟩ := throughRa_next.mp h
    obtain ⟨hr, rfl⟩ := appendOutbound_next.mp h
    exact .writeReg v hr
  case fwPop =>
    replace h : execFwPop s = .next t := h
    unfold execFwPop at h
    split at h
    · exact absurd h refused_ne_next
    · next w q hq =>
      rw [next_eq_next.mp h]
      exact .fwPop w q hq
  case fwProcess w f =>
    replace h : execFwProcess w f s = .next t := h
    unfold execFwProcess at h
    split at h
    · next hc =>
      rw [next_eq_next.mp h]
      exact .fwProcess w f hc.1 hc.2.1 hc.2.2
    · exact absurd h refused_ne_next
  case fwPush w =>
    replace h : execFwPush w s = .next t := h
    unfold execFwPush at h
    split at h
    · next hc =>
      rw [next_eq_next.mp h]
      exact .fwPush w hc.1 hc.2
    · exact absurd h refused_ne_next
  case foreignPush x =>
    replace h : execForeignPush x s = .next t := h
    unfold execForeignPush at h
    split at h
    · next hc =>
      rw [next_eq_next.mp h]
      exact .foreignPush x hc.1 hc.2
    · exact absurd h refused_ne_next
  case codeUnknown =>
    replace h : execCodeUnknown _ s = .next t := h
    unfold execCodeUnknown at h
    split at h
    · exact absurd h refused_ne_next
    · exact codeStep_effect (by simp [encodePort]) h
  case statusFull =>
    obtain ⟨-, h⟩ := inStep_next.mp h
    obtain ⟨-, h⟩ := throughRa_next.mp h
    split at h
    · exact .submitPoll (by decide) h
    · exact absurd h refused_ne_next
  case statusEmpty =>
    obtain ⟨-, h⟩ := inStep_next.mp h
    obtain ⟨-, h⟩ := throughRa_next.mp h
    split at h
    · exact .corrPoll (by decide) h
    · exact absurd h refused_ne_next
  case submissionWordCh8 p =>
    obtain ⟨-, h⟩ := inStep_next.mp h
    obtain ⟨-, h⟩ := throughRa_next.mp h
    split at h
    · exact .submitWrite (by simp [encodePort]) h
    · exact absurd h refused_ne_next
  case channelReserved ch =>
    replace h : execChannelReserved ch s = .next t := h
    unfold execChannelReserved at h
    split at h
    · exact absurd h refused_ne_next
    · exact channelStep_effect (by simp [encodePort]) h
  case kindOk info =>
    replace h : execKindOk info s = .next t := h
    unfold execKindOk at h
    split at h
    · exact callEnds_effect rfl h
    · obtain ⟨hb, h⟩ := hostTurn_next.mp h
      split at h
      · exact cmdReadWord_effect hb (endingWith_next.mp h).1
      · exact absurd h refused_ne_next
  case kindLockContention info =>
    obtain ⟨hb, h⟩ := hostTurn_next.mp h
    split at h
    · exact absurd h refused_ne_next
    · obtain ⟨h, -, hr⟩ := endingWith_next.mp h
      obtain ⟨l, -, ⟨-, rfl⟩ | ⟨-, rfl⟩⟩ := tryAcquire_next.mp h
      · cases hr
      · exact .result _ hb
  case kindBufferFull info =>
    obtain ⟨hb, h⟩ := hostTurn_next.mp h
    obtain ⟨h, -, hr⟩ := endingWith_next.mp h
    obtain ⟨-, -, h⟩ := cmdWriteTag_next.mp h
    rcases writeTag_next h with ⟨i, rfl⟩ | ⟨p, size, -, -, -, rfl⟩
    · exact .result _ hb
    · cases hr
  case kindTagNotAnswered info =>
    obtain ⟨hb, h⟩ := hostTurn_next.mp h
    split at h
    · exact cmdTagCheck_effect hb (endingWith_next.mp h).1
    · exact absurd h refused_ne_next
  case kindTimeout info =>
    replace h : execKindTimeout info s = .next t := h
    unfold execKindTimeout at h
    split at h
    · exact absurd h refused_ne_next
    · exact callEnds_effect rfl h
  case kindUnsupportedBoard => exact detectionFails_effect ⟨_, .inl ⟨rfl, rfl⟩⟩ h
  case kindUnsupportedCpuModel => exact detectionFails_effect ⟨_, .inr ⟨rfl, rfl⟩⟩ h
  all_goals first
    | exact absurd h refused_ne_next
    | exact tagIdStep_effect rfl h
    | exact callEnds_effect rfl h
    | exact channelStep_effect (by decide) h
    | exact codeStep_effect (by decide) h

end Sys2Proof.Machine
end

