-- ==== Sys2Proof/Laws/PerInstr.lean ====
section
/-! SUPPORT. Statements for every instruction, one lemma per constructor: the decoder reads back a well-formed instruction
from its words on its port, and nothing is left over. -/

namespace Sys2Proof

/-- A command word with zero reserved bits whose OP is none of the special ones decodes through decodeFixed. -/
theorem decodeCommand_fixed {cw : Word} {rest : List Word} {i : Instr}
    (h : cwOp cw ∈ [1#4, 3#4, 4#4, 5#4, 6#4, 8#4, 9#4, 10#4, 11#4]) (hr : cwReserved cw = 0#16)
    (hi : decodeFixed cw = .ok i) : decodeCommand (cw :: rest) = .ok (i, rest) := by
  have key : cwOp cw ≠ 0#4 ∧ cwOp cw ≠ 7#4 ∧ ¬ 12#4 ≤ cwOp cw ∧ cwOp cw ≠ 2#4 := by
    revert h
    generalize cwOp cw = o
    revert o
    decide
  obtain ⟨h1, h2, h3, h4⟩ := key
  unfold decodeCommand
  simp only [if_neg h1, if_neg h2, if_neg h3, hr, ne_eq, not_true_eq_false, if_false, if_neg h4, hi]
  rfl

/-- The round trip of a command, from what decodeCommand answers. -/
theorem decode_of_command {i : Instr} {ws : List Word} (hp : encodePort i = .command) (hw : encodeWords i = ws)
    (h : decodeCommand ws = .ok (i, [])) : decode (encodePort i) (encodeWords i) = .ok (i, []) := by
  rw [hp, hw, decode_command, h]

/-- The round trip of any other instruction, from what decodeOne answers. -/
theorem decode_of_one {i : Instr} {p : Port} {ws : List Word} (hp : encodePort i = p) (hne : p ≠ .command)
    (hw : encodeWords i = ws) (h : decodeOne p ws = .ok i) :
    decode (encodePort i) (encodeWords i) = .ok (i, []) := by
  rw [hp, hw, decode_other hne, h]
  rfl

/-- The round trip of an access, from the row of its offset. -/
theorem decode_of_access {i : Instr} {off : BitVec 8} {acc : Access} (hp : encodePort i = .regAccess)
    (hw : encodeWords i = encodeAccess off acc) (h : accessRow off acc = i) :
    decode (encodePort i) (encodeWords i) = .ok (i, []) :=
  decode_of_one hp (by decide) hw ((decodeAccess_encodeAccess off acc).trans (congrArg _ h))

/-- The round trip of a tag word list, from the row of its first word. -/
theorem decode_of_tag {i : Instr} {id : Word} {rest : List Word} (hp : encodePort i = .tagId)
    (hw : encodeWords i = id :: rest) (hl : rest.length ≤ 254) (h : tagRow id rest = some i) :
    decode (encodePort i) (encodeWords i) = .ok (i, []) :=
  decode_of_one hp (by decide) hw (by simp only [decodeOne, if_neg (Nat.not_lt.mpr hl), h])

end Sys2Proof

namespace Sys2Proof.Laws.RoundTrip

/-- The round trip of one instruction. -/
def Statement (i : Instr) : Prop := i.wf = true → decode (encodePort i) (encodeWords i) = .ok (i, [])

theorem newBuffer : Statement (.newBuffer) := fun _ =>
  decode_of_command rfl rfl (decodeCommand_fixed (by simp) (by simp) (by simp [decodeFixed, decodePlain]))

theorem writeTag (ws : List Word) : Statement (.writeTag ws) := by
  intro h
  have hl : (BitVec.ofNat 8 ws.length).toNat = ws.length := by
    simp only [Instr.wf, decide_eq_true_eq] at h
    rw [BitVec.toNat_ofNat]
    exact Nat.mod_eq_of_lt (by omega)
  refine decode_of_command (ws := cwMake (BitVec.ofNat 8 ws.length) 0#4 2#4 :: ws) rfl rfl ?_
  unfold decodeCommand
  simp [hl]

theorem call : Statement (.call) := fun _ =>
  decode_of_command rfl rfl (decodeCommand_fixed (by simp) (by simp) (by simp [decodeFixed, decodePlain]))

theorem tagCheck (t : BitVec 8) : Statement (.tagCheck t) := fun _ =>
  decode_of_command rfl rfl (decodeCommand_fixed (by simp) (by simp) (by simp [decodeFixed, decodeArg]))

theorem readWord (i : BitVec 8) : Statement (.readWord i) := fun _ =>
  decode_of_command rfl rfl (decodeCommand_fixed (by simp) (by simp) (by simp [decodeFixed, decodeArg]))

theorem discard : Statement (.discard) := fun _ =>
  decode_of_command rfl rfl (decodeCommand_fixed (by simp) (by simp) (by simp [decodeFixed, decodePlain]))

theorem tryAcquire (k : BitVec 8) : Statement (.tryAcquire k) := fun _ =>
  decode_of_command rfl rfl (decodeCommand_fixed (by simp) (by simp) (by simp [decodeFixed, decodeArg]))

theorem release (k : BitVec 8) : Statement (.release k) := fun _ =>
  decode_of_command rfl rfl (decodeCommand_fixed (by simp) (by simp) (by simp [decodeFixed, decodeArg]))

theorem getFirmwareRevision : Statement (.getFirmwareRevision) := fun _ =>
  decode_of_command rfl rfl (decodeCommand_fixed (by simp) (by simp) (by simp [decodeFixed, decodePlain]))

theorem getBoardSerial : Statement (.getBoardSerial) := fun _ =>
  decode_of_command rfl rfl (decodeCommand_fixed (by simp) (by simp) (by simp [decodeFixed, decodePlain]))

theorem reservedOp0 (cw : Word) : Statement (.reservedOp0 cw) := by
  intro h
  have e : cwOp cw = 0#4 := by
    apply BitVec.eq_of_toNat_eq
    simp only [Instr.wf, decide_eq_true_eq] at h
    simp [cwOp]
    omega
  refine decode_of_command (ws := [cw]) rfl rfl ?_
  simp [decodeCommand, e]

theorem reservedOp7 (cw : Word) : Statement (.reservedOp7 cw) := by
  intro h
  have e : cwOp cw = 7#4 := by
    apply BitVec.eq_of_toNat_eq
    simp only [Instr.wf, decide_eq_true_eq] at h
    simp [cwOp]
    omega
  refine decode_of_command (ws := [cw]) rfl rfl ?_
  simp [decodeCommand, e]

theorem reservedOpCToF (cw : Word) : Statement (.reservedOpCToF cw) := by
  intro h
  have e : 12#4 ≤ cwOp cw := by
    simp only [Instr.wf, decide_eq_true_eq] at h
    rw [BitVec.le_def]
    simp [cwOp]
    omega
  have h0 : cwOp cw ≠ 0#4 ∧ cwOp cw ≠ 7#4 := by
    revert e
    generalize cwOp cw = o
    revert o
    decide
  refine decode_of_command (ws := [cw]) rfl rfl ?_
  simp only [decodeCommand, if_neg h0.1, if_neg h0.2, if_pos e]

theorem stepSubmitPoll : Statement (.stepSubmitPoll) := fun _ => rfl

theorem stepSubmitWrite : Statement (.stepSubmitWrite) := fun _ => rfl

theorem stepCorrPoll : Statement (.stepCorrPoll) := fun _ => rfl

theorem stepCorrRead : Statement (.stepCorrRead) := fun _ => rfl

theorem raNew (off : Word) : Statement (.raNew off) := fun _ => rfl

theorem raOffset (a : Word) (n : Word) : Statement (.raOffset a n) := fun _ => rfl

theorem raRead (a : Word) : Statement (.raRead a) := fun _ => rfl

theorem raWrite (a : Word) (v : Word) : Statement (.raWrite a v) := fun _ => rfl

theorem rdMboxRw : Statement (.rdMboxRw) := fun _ => decode_of_access (off := 0x00#8) (acc := .read) rfl rfl rfl

theorem wrMboxRw (v : Word) : Statement (.wrMboxRw v) :=
  fun _ => decode_of_access (off := 0x00#8) (acc := (.write v)) rfl rfl rfl

theorem rdwrMboxPeek (acc : Access) : Statement (.rdwrMboxPeek acc) :=
  fun _ => decode_of_access rfl rfl (by cases acc <;> rfl)

theorem rdwrMboxSender (acc : Access) : Statement (.rdwrMboxSender acc) :=
  fun _ => decode_of_access rfl rfl (by cases acc <;> rfl)

theorem rdMboxStatus : Statement (.rdMboxStatus) :=
  fun _ => decode_of_access (off := 0x18#8) (acc := .read) rfl rfl rfl

theorem wrMboxStatus (v : Word) : Statement (.wrMboxStatus v) :=
  fun _ => decode_of_access (off := 0x18#8) (acc := (.write v)) rfl rfl rfl

theorem rdwrMboxConfig (acc : Access) : Statement (.rdwrMboxConfig acc) :=
  fun _ => decode_of_access rfl rfl (by cases acc <;> rfl)

theorem wrMboxWrite (v : Word) : Statement (.wrMboxWrite v) :=
  fun _ => decode_of_access (off := 0x20#8) (acc := (.write v)) rfl rfl rfl

theorem rdMboxWrite : Statement (.rdMboxWrite) := fun _ => decode_of_access (off := 0x20#8) (acc := .read) rfl rfl rfl

theorem regOtherOffset (off : BitVec 8) (acc : Access) : Statement (.regOtherOffset off acc) := by
  intro h
  simp only [Instr.wf, decide_eq_true_eq] at h
  obtain ⟨h1, h2, h3, h4, h5, h6⟩ := h
  refine decode_of_access rfl rfl ?_
  cases acc <;> simp [accessRow, h1, h2, h3, h4, h5, h6]

theorem fwPop : Statement (.fwPop) := fun _ => rfl

theorem fwProcess (w : Word) (f : List Word) : Statement (.fwProcess w f) := by
  intro h
  simp only [Instr.wf, decide_eq_true_eq] at h
  refine decode_of_one (p := .fwProcess) (ws := w :: f) rfl (by decide) rfl ?_
  rw [decodeOne, decodeWords_eq (by rw [List.length_cons, h])]
  rfl

theorem fwPush (w : Word) : Statement (.fwPush w) := fun _ => rfl

theorem foreignPush (x : Word) : Statement (.foreignPush x) := fun _ => rfl

theorem codeRequest : Statement (.codeRequest) := fun _ => rfl

theorem codeResponse : Statement (.codeResponse) := fun _ => rfl

theorem codeResponseError : Statement (.codeResponseError) := fun _ => rfl

theorem codeUnknown (c : Word) : Statement (.codeUnknown c) := by
  intro h
  simp only [Instr.wf, decide_eq_true_eq] at h
  obtain ⟨h1, h2, h3⟩ := h
  refine decode_of_one (p := .bufferCode) (ws := [c]) rfl (by decide) rfl ?_
  rw [decodeOne, decodeWords_eq (by rfl)]
  simp only [wordAt, List.getD_cons_zero, codeRow, if_neg h1, if_neg h2, if_neg h3]

theorem tagResponseBit (t : BitVec 8) : Statement (.tagResponseBit t) := by
  intro _
  have ht : ¬ 256 ≤ (t.setWidth 32).toNat := by
    rw [BitVec.toNat_setWidth]
    have := t.isLt
    omega
  have e : (t.setWidth 32).setWidth 8 = t := by
    apply BitVec.eq_of_toNat_eq
    simp
  refine decode_of_one (p := .tagCode) (ws := [0x80000000#32, t.setWidth 32]) rfl (by decide) rfl ?_
  rw [decodeOne, decodeWords_eq (by rfl)]
  simp only [wordAt, List.getD_cons_zero, List.getD_cons_succ, ht, if_false, e]
  rfl

theorem terminator (rest : List Word) : Statement (.terminator rest) :=
  fun h => decode_of_tag rfl rfl (by simpa [Instr.wf] using h) rfl

theorem submissionWordCh8 (ptr : BitVec 28) : Statement (.submissionWordCh8 ptr) := by
  intro _
  have h1 : (ptr ++ Config.propertyChannel : Word).extractLsb' 0 4 = Config.propertyChannel := by
    apply BitVec.eq_of_getLsbD_eq
    intro k hk
    rw [BitVec.getLsbD_extractLsb', BitVec.getLsbD_append]
    simp [hk]
  have h2 : (ptr ++ Config.propertyChannel : Word).extractLsb' 4 28 = ptr := by
    apply BitVec.eq_of_getLsbD_eq
    intro k hk
    rw [BitVec.getLsbD_extractLsb', BitVec.getLsbD_append]
    simp [hk]
  refine decode_of_one (p := .submission) (ws := [(ptr ++ Config.propertyChannel : Word)]) rfl (by decide) rfl ?_
  rw [decodeOne, decodeWords_eq (by rfl)]
  simp only [wordAt, List.getD_cons_zero, h1, h2, ne_eq, not_true_eq_false, if_false]

theorem statusFull : Statement (.statusFull) := fun _ => rfl

theorem statusEmpty : Statement (.statusEmpty) := fun _ => rfl

theorem channel0 : Statement (.channel0) := fun _ => rfl

theorem channel1 : Statement (.channel1) := fun _ => rfl

theorem channel2 : Statement (.channel2) := fun _ => rfl

theorem channel3 : Statement (.channel3) := fun _ => rfl

theorem channel4 : Statement (.channel4) := fun _ => rfl

theorem channel5 : Statement (.channel5) := fun _ => rfl

theorem channel6 : Statement (.channel6) := fun _ => rfl

theorem channel7 : Statement (.channel7) := fun _ => rfl

theorem channel8 : Statement (.channel8) := fun _ => rfl

theorem channelReserved (ch : BitVec 4) : Statement (.channelReserved ch) := by
  intro h
  revert h
  revert ch
  decide

theorem tag1 (rest : List Word) : Statement (.tag1 rest) :=
  fun h => decode_of_tag rfl rfl (by simpa [Instr.wf] using h) rfl

theorem tag10001 (rest : List Word) : Statement (.tag10001 rest) :=
  fun h => decode_of_tag rfl rfl (by simpa [Instr.wf] using h) rfl

theorem tag10004 (rest : List Word) : Statement (.tag10004 rest) :=
  fun h => decode_of_tag rfl rfl (by simpa [Instr.wf] using h) rfl

theorem tag10005 (rest : List Word) : Statement (.tag10005 rest) :=
  fun h => decode_of_tag rfl rfl (by simpa [Instr.wf] using h) rfl

theorem tag30002 (rest : List Word) : Statement (.tag30002 rest) :=
  fun h => decode_of_tag rfl rfl (by simpa [Instr.wf] using h) rfl

theorem tag38002 (rest : List Word) : Statement (.tag38002 rest) :=
  fun h => decode_of_tag rfl rfl (by simpa [Instr.wf] using h) rfl

theorem tag40001 (rest : List Word) : Statement (.tag40001 rest) :=
  fun h => decode_of_tag rfl rfl (by simpa [Instr.wf] using h) rfl

theorem tag40003 (rest : List Word) : Statement (.tag40003 rest) :=
  fun h => decode_of_tag rfl rfl (by simpa [Instr.wf] using h) rfl

theorem tag40004 (rest : List Word) : Statement (.tag40004 rest) :=
  fun h => decode_of_tag rfl rfl (by simpa [Instr.wf] using h) rfl

theorem tag44003 (rest : List Word) : Statement (.tag44003 rest) :=
  fun h => decode_of_tag rfl rfl (by simpa [Instr.wf] using h) rfl

theorem tag44004 (rest : List Word) : Statement (.tag44004 rest) :=
  fun h => decode_of_tag rfl rfl (by simpa [Instr.wf] using h) rfl

theorem tag48003 (rest : List Word) : Statement (.tag48003 rest) :=
  fun h => decode_of_tag rfl rfl (by simpa [Instr.wf] using h) rfl

theorem tag48004 (rest : List Word) : Statement (.tag48004 rest) :=
  fun h => decode_of_tag rfl rfl (by simpa [Instr.wf] using h) rfl

theorem tag40005 (rest : List Word) : Statement (.tag40005 rest) :=
  fun h => decode_of_tag rfl rfl (by simpa [Instr.wf] using h) rfl

theorem tag48005 (rest : List Word) : Statement (.tag48005 rest) :=
  fun h => decode_of_tag rfl rfl (by simpa [Instr.wf] using h) rfl

theorem tag40006 (rest : List Word) : Statement (.tag40006 rest) :=
  fun h => decode_of_tag rfl rfl (by simpa [Instr.wf] using h) rfl

theorem tag48006 (rest : List Word) : Statement (.tag48006 rest) :=
  fun h => decode_of_tag rfl rfl (by simpa [Instr.wf] using h) rfl

theorem kindOk (info : Word) : Statement (.kindOk info) := fun _ => rfl

theorem kindLockContention (info : Word) : Statement (.kindLockContention info) := fun _ => rfl

theorem kindBufferFull (info : Word) : Statement (.kindBufferFull info) := fun _ => rfl

theorem kindFirmwareRejected (info : Word) : Statement (.kindFirmwareRejected info) := fun _ => rfl

theorem kindUnknownResponseStatus (info : Word) : Statement (.kindUnknownResponseStatus info) := fun _ => rfl

theorem kindNoResponse (info : Word) : Statement (.kindNoResponse info) := fun _ => rfl

theorem kindTagNotAnswered (info : Word) : Statement (.kindTagNotAnswered info) := fun _ => rfl

theorem kindTimeout (info : Word) : Statement (.kindTimeout info) := fun _ => rfl

theorem kindUnsupportedBoard (info : Word) : Statement (.kindUnsupportedBoard info) := fun _ => rfl

theorem kindUnsupportedCpuModel (info : Word) : Statement (.kindUnsupportedCpuModel info) := fun _ => rfl

theorem kindReserved (code : BitVec 4) (info : Word) : Statement (.kindReserved code info) := by
  intro h
  have key : ∀ c : BitVec 4, 10 ≤ c.toNat → ¬ 16 ≤ (c.setWidth 32).toNat ∧ (c.setWidth 32).setWidth 4 = c ∧
      kindRow c info = .kindReserved c info := by
    intro c hc
    have hlt := c.isLt
    refine ⟨by rw [BitVec.toNat_setWidth]; omega, by apply BitVec.eq_of_toNat_eq; simp, ?_⟩
    have ne : ∀ n : BitVec 4, n.toNat < 10 → c ≠ n := by
      rintro n hn rfl
      omega
    simp only [kindRow, if_neg (ne 0#4 (by decide)), if_neg (ne 1#4 (by decide)), if_neg (ne 2#4 (by decide)),
      if_neg (ne 3#4 (by decide)), if_neg (ne 4#4 (by decide)), if_neg (ne 5#4 (by decide)),
      if_neg (ne 6#4 (by decide)), if_neg (ne 7#4 (by decide)), if_neg (ne 8#4 (by decide)),
      if_neg (ne 9#4 (by decide))]
  obtain ⟨h1, h2, h3⟩ := key code (by simpa [Instr.wf] using h)
  refine decode_of_one (p := .result) (ws := [code.setWidth 32, info]) rfl (by decide) rfl ?_
  rw [decodeOne, decodeWords_eq (by rfl)]
  simp only [wordAt, List.getD_cons_zero, List.getD_cons_succ, h1, if_false, h2, h3]

end Sys2Proof.Laws.RoundTrip
end

