-- ==== Sys2Proof/Laws/Step.lean ====
section
/-! SUPPORT. Everything a step of the machine can do when it answers a next state, and the parts of the invariant that only
depend on some of the fields. -/

namespace Sys2Proof.Machine

/-- Everything the engine's own step can do: an instruction that is a phase-step, a command of a recipe, or nothing. -/
theorem engineStep_next {s t : State} (h : engineStep s = .next t) :
    (∃ i, i ∈ [Instr.stepSubmitPoll, .stepSubmitWrite, .stepCorrPoll, .stepCorrRead] ∧ exec i s = .next t) ∨
    (∃ r, s.phase.inCall = false ∧ s.recipe = some r ∧ recipeStep r s = .next t) ∨
    (s.busy = false ∧ t = s) := by
  cases hp : s.phase <;> simp only [engineStep, hp] at h
  case submitPoll | submitWrite | corrPoll | corrRead => exact .inl ⟨_, by simp, h⟩
  all_goals
    split at h
    · next r hr => exact .inr (.inl ⟨r, rfl, hr, h⟩)
    · next hr => exact .inr (.inr ⟨by simp [State.busy, hp, hr, Phase.inCall], next_eq_next.mp h⟩)

theorem engineStep_recipe {s : State} {r : RecipeRun} (hp : s.phase.inCall = false) (hr : s.recipe = some r) :
    engineStep s = recipeStep r s := by
  unfold engineStep
  split <;> simp_all [Phase.inCall]

theorem engineStep_idle {s : State} (h : s.busy = false) : engineStep s = .next s := by
  obtain ⟨hp, hr⟩ : s.phase.inCall = false ∧ s.recipe.isSome = false := by
    simpa [State.busy, Bool.or_eq_false_iff] using h
  unfold engineStep
  split <;> simp_all [Phase.inCall]

/-- Everything a step can do: what the engine's step does, or one input on the state it has been taken from. -/
theorem step_next {s t : State} (h : step s = .next t) :
    s.cfg.Valid ∧ (engineStep s = .next t ∨
      ∃ x rest, s.agenda = x :: rest ∧ (inputWaits x = true → s.busy = false) ∧
        perform x (s.setAgenda rest) = .next t) := by
  unfold step guardedMove at h
  split at h
  · next hv =>
    refine ⟨hv, ?_⟩
    unfold move at h
    split at h
    · exact .inl h
    · next x rest hx =>
      split at h
      · exact .inl h
      · next hw =>
        refine .inr ⟨x, rest, hx, fun hi => ?_, h⟩
        cases hb : s.busy with
        | false => rfl
        | true => exact absurd ⟨hi, hb⟩ hw
  · exact absurd h refused_ne_next

theorem orElse_next {o k : Out} {t : State} (h : orElse o k = .next t) : o = .next t ∨ k = .next t := by
  cases o with
  | next u => exact .inl h
  | fault f => cases h
  | refused r => exact .inr h

/-- Everything a move that nothing fixes can do: one instruction of these ports, or the ENGINE's step. -/
theorem moveOrEngine_next {ps : List Port} {m : Option Instr} {s t : State} (h : moveOrEngine ps m s = .next t) :
    (∃ i, encodePort i ∈ ps ∧ exec i s = .next t) ∨ engineStep s = .next t := by
  unfold moveOrEngine at h
  split at h
  · next i =>
    split at h
    · next hp => exact (orElse_next h).imp_left fun h => ⟨i, hp, h⟩
    · exact .inr h
  · exact .inr h

/-- Everything an input can do, on a state that differs in the agenda and the count of draws at most. -/
theorem perform_next {x : Input} {s t : State} (h : perform x s = .next t) :
    ∃ a n u, u = (s.setAgenda a).setDraws n ∧ ((∃ i, exec i u = .next t) ∨ engineStep u = .next t ∨
      resolveBase u = .next t ∨ irqEnter u = .next t ∨ irqExit u = .next t ∨ ∃ b, hostSetIe b u = .next t) := by
  induction x generalizing s with
  | words p ws =>
    simp only [perform] at h
    split at h
    · exact absurd h refused_ne_next
    · next i left _ =>
      unfold afterFetch at h
      split at h
      · exact ⟨s.agenda, s.draws, s, rfl, .inl ⟨i, h⟩⟩
      · exact ⟨.words p left :: s.agenda, s.draws, _, rfl, .inl ⟨i, h⟩⟩
  | engine => exact ⟨s.agenda, s.draws, s, rfl, .inr (.inl h)⟩
  | resolveBase => exact ⟨s.agenda, s.draws, s, rfl, .inr (.inr (.inl h))⟩
  | irqEnter => exact ⟨s.agenda, s.draws, s, rfl, .inr (.inr (.inr (.inl h)))⟩
  | irqExit => exact ⟨s.agenda, s.draws, s, rfl, .inr (.inr (.inr (.inr (.inl h))))⟩
  | setIe b => exact ⟨s.agenda, s.draws, s, rfl, .inr (.inr (.inr (.inr (.inr ⟨b, h⟩))))⟩
  | drawn ps =>
    rcases moveOrEngine_next h with ⟨i, -, h⟩ | h
    · exact ⟨s.agenda, s.draws + 1, _, rfl, .inl ⟨i, h⟩⟩
    · exact ⟨s.agenda, s.draws + 1, _, rfl, .inr (.inl h)⟩
  | again i ih =>
    obtain ⟨a, n, u, rfl, h⟩ := ih h
    exact ⟨a, n, _, rfl, h⟩

theorem step_eq_move {s : State} (h : s.cfg.Valid) : step s = move s := if_pos h

theorem step_engine {s : State} (h : s.cfg.Valid) (ha : s.agenda = []) : step s = engineStep s := by
  rw [step_eq_move h, move, ha]

theorem step_input {s : State} (h : s.cfg.Valid) {x : Input} {rest : List Input} (ha : s.agenda = x :: rest)
    (hw : inputWaits x = true → s.busy = false) : step s = perform x (s.setAgenda rest) := by
  rw [step_eq_move h, move, ha]
  refine if_neg fun ⟨h1, h2⟩ => ?_
  rw [hw h1] at h2
  exact Bool.noConfusion h2

theorem step_waits {s : State} (h : s.cfg.Valid) {x : Input} {rest : List Input} (ha : s.agenda = x :: rest)
    (hw : inputWaits x = true) (hb : s.busy = true) : step s = engineStep s := by
  rw [step_eq_move h, move, ha]
  exact if_pos ⟨hw, hb⟩

theorem resolveBase_next {s t : State} :
    resolveBase s = .next t ↔ s.baseValid = false ∧ s.startup = none ∧ t = s.setBaseValid true := by
  rw [resolveBase, detection_next, next_eq_next]

theorem irqEnter_next {s t : State} :
    irqEnter s = .next t ↔ s.busy = false ∧ (s.running = .host ∧ s.ie = true ∧ s.anyGuardLive = false) ∧
      t = (s.setRunning .irq).setIe false := by
  rw [irqEnter, hostTurn_next]
  by_cases h : s.running = .host ∧ s.ie = true ∧ s.anyGuardLive = false
  · simp only [h, and_self, if_true, next_eq_next, true_and]
  · rw [if_neg h]
    exact ⟨fun ⟨_, e⟩ => absurd e refused_ne_next, fun ⟨_, h1, _⟩ => absurd h1 h⟩

theorem irqExit_next {s t : State} :
    irqExit s = .next t ↔ s.busy = false ∧ s.running = .irq ∧ t = (s.setRunning .host).setIe true := by
  rw [irqExit, hostTurn_next]
  by_cases h : s.running = .irq
  · simp only [h, if_true, next_eq_next, true_and]
  · rw [if_neg h]
    exact ⟨fun ⟨_, e⟩ => absurd e refused_ne_next, fun ⟨_, h1, _⟩ => absurd h1 h⟩

theorem hostSetIe_next {b : Bool} {s t : State} :
    hostSetIe b s = .next t ↔
      s.busy = false ∧ s.running = .host ∧ (b = false ∨ s.anyGuardLive = false) ∧ t = s.setIe b := by
  rw [hostSetIe, hostTurn_next]
  by_cases h : s.running = .host ∧ (b = false ∨ s.anyGuardLive = false)
  · rw [if_pos h, next_eq_next]
    exact and_congr_right fun _ => ⟨fun e => ⟨h.1, h.2, e⟩, fun e => e.2.2⟩
  · rw [if_neg h]
    exact ⟨fun ⟨_, e⟩ => absurd e refused_ne_next, fun ⟨_, h1, h2, _⟩ => absurd ⟨h1, h2⟩ h⟩

end Sys2Proof.Machine
end

