-- ==== Sys2Proof/Tests/Slice0.lean ====
section
/-! SUPPORT. Checks of the model: ill-formed terms, words written out from the spec's tables, single steps with the results
95_test_vectors gives, and for every obligation a state and operands that meet its hypotheses. -/

namespace Sys2Proof.Tests

open Sys2Proof.Machine

set_option Elab.async false

/-! ### States -/

/-- S0 of 95_test_vectors: reset with BASE_VALID = 1 and IE = 1. -/
def quiet : State :=
  { State.resetWith Params.reference { ResetDraw.zero with ie := true } with baseValid := true }

/-- S0 after TRY_ACQUIRE 0 (vector K1). -/
def held : State :=
  { quiet with
    locks := [⟨.locked, true, true, .host⟩, ⟨.unlocked, false, false, .host⟩, ⟨.unlocked, false, false, .host⟩]
    ie := false }

/-- A request in progress: lock 0 held since NEW_BUFFER, these words at the front of the buffer and zeros after them. -/
def withBuffer (p : Phase) (ws : List Word) : State :=
  { held with mem := Memory.image 0x12340 (ws ++ List.replicate (36 - ws.length) 0#32), phase := p, unbroken := true }

/-- A fresh buffer (vector B1). -/
def fresh : State := withBuffer .build [8#32]

/-- The state inside CALL at a phase-step, SUB latched, a message of one tag in the buffer. -/
def calling (p : Phase) (code : Word) : State :=
  { withBuffer p [28#32, code, 1#32, 4#32] with sub := 0x00012348#32 }

/-- After an answered CALL: BUF[4], BUF[5] and BUF[6] are the tag's code and value words. -/
def answered (c low high : Word) : State :=
  { withBuffer .doneOk [32#32, 0x80000000#32, 0x10004#32, 8#32, c, low, high] with sub := 0x00012348#32 }

/-- The same state with POLL_LIMIT = n. -/
def bounded (n : Nat) (s : State) : State := { s with cfg := { s.cfg with pollLimit := some n } }

/-- A full OUTQ (FIFO_DEPTH = 8). -/
def fullQ : List Word := List.replicate 8 0x55#32

/-- The outcome is a next state with this property. -/
def ends (o : Out) (p : State → Bool) : Bool :=
  match o with
  | .next t => p t
  | .fault _ => false
  | .refused _ => false

theorem next_of_ends {o : Out} {p : State → Bool} (h : ends o p = true) : ∃ t, o = .next t ∧ p t = true := by
  cases o with
  | next t => exact ⟨t, rfl, h⟩
  | fault f => cases h
  | refused r => cases h

/-- The outcome is this fault. -/
def faults (o : Out) (f : Fault) : Bool :=
  match o with
  | .next _ => false
  | .fault g => g = f
  | .refused _ => false

/-- The outcome is this refusal. -/
def refuses (o : Out) (r : Refusal) : Bool :=
  match o with
  | .next _ => false
  | .fault _ => false
  | .refused q => q = r

/-- The port's words decode to this instruction, with these words left. -/
def reads (p : Port) (ws : List Word) (r : Instr × List Word) : Bool :=
  match decode p ws with
  | .ok q => q = r
  | .error _ => false

/-- The port's words are rejected for this reason. -/
def rejects (p : Port) (ws : List Word) (why : Reject) : Bool :=
  match decode p ws with
  | .ok _ => false
  | .error q => q = why

/-! ### Well-formedness: an ill-formed term for each check, and a well-formed one at its bound -/

theorem test_wf_operand_words :
    Instr.wf (.writeTag (List.replicate 256 0#32)) = false ∧ Instr.wf (.writeTag (List.replicate 255 0#32)) = true := by
  decide +kernel

theorem test_wf_tag_words :
    (∀ row ∈ tagIdRows, Instr.wf (row.2 (List.replicate 255 0#32)) = false) ∧
    (∀ row ∈ tagIdRows, Instr.wf (row.2 (List.replicate 254 0#32)) = true) := by decide +kernel

theorem test_wf_reserved_ops :
    Instr.wf (.reservedOp0 0x1#32) = false ∧ Instr.wf (.reservedOp7 0x8#32) = false ∧
    Instr.wf (.reservedOpCToF 0xb#32) = false ∧ Instr.wf (.reservedOp0 0xFFFFFFF0#32) = true ∧
    Instr.wf (.reservedOp7 0x7#32) = true ∧ Instr.wf (.reservedOpCToF 0xc#32) = true := by decide +kernel

theorem test_wf_other_offset :
    (∀ off ∈ [0x00#8, 0x10#8, 0x14#8, 0x18#8, 0x1c#8, 0x20#8], Instr.wf (.regOtherOffset off .read) = false) ∧
    Instr.wf (.regOtherOffset 0x04#8 .read) = true := by decide +kernel

theorem test_wf_firmware_words :
    Instr.wf (.fwProcess 0#32 (List.replicate 35 0#32)) = false ∧
    Instr.wf (.fwProcess 0#32 (List.replicate 36 0#32)) = true := by decide +kernel

theorem test_wf_codes :
    Instr.wf (.codeUnknown 0#32) = false ∧ Instr.wf (.codeUnknown 0x80000000#32) = false ∧
    Instr.wf (.codeUnknown 0x80000001#32) = false ∧ Instr.wf (.codeUnknown 0x80000002#32) = true ∧
    Instr.wf (.channelReserved 8#4) = false ∧ Instr.wf (.channelReserved 9#4) = true ∧
    Instr.wf (.kindReserved 9#4 0#32) = false ∧ Instr.wf (.kindReserved 10#4 0#32) = true := by decide +kernel

/-! ### Decoding: words written out from 30_encoding R105 to R121, 60_exceptions R261 and 95_test_vectors 2.1 -/

theorem test_decode_commands :
    reads .command [0x00000001#32] (.newBuffer, []) &&
    reads .command [0x00000502#32, 0x1#32, 0x4#32, 0x0#32, 0x0#32, 0x0#32]
      (.writeTag [0x1#32, 0x4#32, 0x0#32, 0x0#32, 0x0#32], []) &&
    reads .command [0x00000002#32] (.writeTag [], []) &&
    reads .command [0x00000083#32] (.call, []) &&
    reads .command [0x00000204#32] (.tagCheck 2#8, []) &&
    reads .command [0x00002104#32] (.tagCheck 33#8, []) &&
    reads .command [0x00002305#32] (.readWord 35#8, []) &&
    reads .command [0x00000006#32] (.discard, []) &&
    reads .command [0x00000208#32] (.tryAcquire 2#8, []) &&
    reads .command [0x00000009#32] (.release 0#8, []) &&
    reads .command [0x0000000A#32] (.getFirmwareRevision, []) &&
    reads .command [0x0000000B#32] (.getBoardSerial, []) := by decide +kernel

theorem test_decode_reserved_commands :
    reads .command [0x00000000#32] (.reservedOp0 0x00000000#32, []) &&
    reads .command [0x00000007#32] (.reservedOp7 0x00000007#32, []) &&
    reads .command [0x0000000C#32] (.reservedOpCToF 0x0000000C#32, []) &&
    reads .command [0x0000000F#32] (.reservedOpCToF 0x0000000F#32, []) &&
    rejects .command [0x00000003#32] .channelField &&
    rejects .command [0x00010001#32] .reservedBits &&
    rejects .command [0x00000101#32] .argumentField &&
    rejects .command [0x00000214#32] .channelField &&
    rejects .command [0x00000202#32, 0x1#32] .missingWords := by decide +kernel

theorem test_decode_register_accesses :
    reads .regAccess [0x000#32] (.rdMboxRw, []) &&
    reads .regAccess [0x100#32, 0x5#32] (.wrMboxRw 0x5#32, []) &&
    reads .regAccess [0x010#32] (.rdwrMboxPeek .read, []) &&
    reads .regAccess [0x110#32, 0x5#32] (.rdwrMboxPeek (.write 0x5#32), []) &&
    reads .regAccess [0x014#32] (.rdwrMboxSender .read, []) &&
    reads .regAccess [0x018#32] (.rdMboxStatus, []) &&
    reads .regAccess [0x118#32, 0x5#32] (.wrMboxStatus 0x5#32, []) &&
    reads .regAccess [0x01c#32] (.rdwrMboxConfig .read, []) &&
    reads .regAccess [0x120#32, 0x00012348#32] (.wrMboxWrite 0x00012348#32, []) &&
    reads .regAccess [0x020#32] (.rdMboxWrite, []) &&
    reads .regAccess [0x004#32] (.regOtherOffset 0x04#8 .read, []) &&
    reads .regAccess [0x1fc#32, 0x5#32] (.regOtherOffset 0xfc#8 (.write 0x5#32), []) &&
    rejects .regAccess [0x200#32] .selector := by decide +kernel

theorem test_decode_steps :
    reads .submitPoll [] (.stepSubmitPoll, []) && reads .submitWrite [] (.stepSubmitWrite, []) &&
    reads .corrPoll [] (.stepCorrPoll, []) && reads .corrRead [] (.stepCorrRead, []) &&
    reads .raNew [0xb880#32] (.raNew 0xb880#32, []) &&
    reads .raOffset [0x3F00B880#32, 0x18#32] (.raOffset 0x3F00B880#32 0x18#32, []) &&
    reads .raRead [0x3F00B898#32] (.raRead 0x3F00B898#32, []) &&
    reads .raWrite [0x3F00B8A0#32, 0x5#32] (.raWrite 0x3F00B8A0#32 0x5#32, []) &&
    reads .fwPop [] (.fwPop, []) &&
    reads .fwProcess (0x00012348#32 :: List.replicate 36 0x7#32)
      (.fwProcess 0x00012348#32 (List.replicate 36 0x7#32), []) &&
    reads .fwPush [0x00012348#32] (.fwPush 0x00012348#32, []) &&
    reads .foreignPush [0x00012341#32] (.foreignPush 0x00012341#32, []) &&
    rejects .fwPush [] .missingWords && rejects .fwPop [0#32] .trailingWords := by decide +kernel

theorem test_decode_buffer_words :
    reads .bufferCode [0x00000000#32] (.codeRequest, []) &&
    reads .bufferCode [0x80000000#32] (.codeResponse, []) &&
    reads .bufferCode [0x80000001#32] (.codeResponseError, []) &&
    reads .bufferCode [0x80000004#32] (.codeUnknown 0x80000004#32, []) &&
    reads .tagCode [0x80000004#32, 2#32] (.tagResponseBit 2#8, []) &&
    rejects .tagCode [0x7FFFFFFF#32, 2#32] .clearBit &&
    reads .submission [0x00012348#32] (.submissionWordCh8 0x0001234#28, []) &&
    rejects .submission [0x0001234C#32] .channelField &&
    reads .status [0xC0000000#32] (.statusFull, []) &&
    reads .status [0x40000000#32] (.statusEmpty, []) &&
    rejects .status [0x3FFFFFFF#32] .clearBit := by decide +kernel

theorem test_decode_channels :
    reads .channel [0#32] (.channel0, []) && reads .channel [1#32] (.channel1, []) &&
    reads .channel [2#32] (.channel2, []) && reads .channel [3#32] (.channel3, []) &&
    reads .channel [4#32] (.channel4, []) && reads .channel [5#32] (.channel5, []) &&
    reads .channel [6#32] (.channel6, []) && reads .channel [7#32] (.channel7, []) &&
    reads .channel [8#32] (.channel8, []) && reads .channel [9#32] (.channelReserved 9#4, []) &&
    reads .channel [15#32] (.channelReserved 15#4, []) &&
    rejects .channel [16#32] .fieldWidth := by decide +kernel

theorem test_decode_tag_identifiers :
    reads .tagId [0x00000000#32, 9#32] (.terminator [9#32], []) &&
    reads .tagId [0x00000001#32, 9#32] (.tag1 [9#32], []) &&
    reads .tagId [0x00010001#32] (.tag10001 [], []) &&
    reads .tagId [0x00010004#32] (.tag10004 [], []) &&
    reads .tagId [0x00010005#32] (.tag10005 [], []) &&
    reads .tagId [0x00030002#32] (.tag30002 [], []) &&
    reads .tagId [0x00038002#32] (.tag38002 [], []) &&
    reads .tagId [0x00040001#32] (.tag40001 [], []) &&
    reads .tagId [0x00040003#32] (.tag40003 [], []) &&
    reads .tagId [0x00040004#32] (.tag40004 [], []) &&
    reads .tagId [0x00044003#32] (.tag44003 [], []) &&
    reads .tagId [0x00044004#32] (.tag44004 [], []) &&
    reads .tagId [0x00048003#32] (.tag48003 [], []) &&
    reads .tagId [0x00048004#32] (.tag48004 [], []) &&
    reads .tagId [0x00040005#32] (.tag40005 [], []) &&
    reads .tagId [0x00048005#32] (.tag48005 [], []) &&
    reads .tagId [0x00040006#32] (.tag40006 [], []) &&
    reads .tagId [0x00048006#32] (.tag48006 [], []) &&
    rejects .tagId [0x000000AA#32] .tagIdentifier := by decide +kernel

theorem test_decode_kinds :
    reads .result [0#32, 9#32] (.kindOk 9#32, []) &&
    reads .result [1#32, 9#32] (.kindLockContention 9#32, []) &&
    reads .result [2#32, 9#32] (.kindBufferFull 9#32, []) &&
    reads .result [3#32, 9#32] (.kindFirmwareRejected 9#32, []) &&
    reads .result [4#32, 9#32] (.kindUnknownResponseStatus 9#32, []) &&
    reads .result [5#32, 9#32] (.kindNoResponse 9#32, []) &&
    reads .result [6#32, 9#32] (.kindTagNotAnswered 9#32, []) &&
    reads .result [7#32, 9#32] (.kindTimeout 9#32, []) &&
    reads .result [8#32, 9#32] (.kindUnsupportedBoard 9#32, []) &&
    reads .result [9#32, 9#32] (.kindUnsupportedCpuModel 9#32, []) &&
    reads .result [10#32, 9#32] (.kindReserved 10#4 9#32, []) &&
    rejects .result [16#32, 9#32] .fieldWidth := by decide +kernel

/-- Table words, numbered as opcode_table.json numbers them; n operand words of zeros after WRITE_TAG. -/
theorem test_decode_table_words :
    decodeTableWord 32 0x00000001 == some .newBuffer && decodeTableWord 32 0x00000083 == some .call &&
    decodeTableWord 32 0x00000202 == some (.writeTag [0#32, 0#32]) &&
    decodeTableWord 16 0x018 == some .rdMboxStatus && decodeTableWord 16 0x120 == some (.wrMboxWrite 0#32) &&
    decodeTableWord 32 0x80000001 == some .codeResponseError && decodeTableWord 32 0x40000000 == some .statusEmpty &&
    decodeTableWord 32 0x00010004 == some (.tag10004 []) && decodeTableWord 8 0x8 == some .channel8 &&
    decodeTableWord 8 0x9 == some (.kindUnsupportedCpuModel 0#32) &&
    decodeTableWord 32 0x00000003 == none := by decide +kernel

/-- The command word's fields against the encoder. -/
theorem test_encode_commands :
    encode .call = (.command, [0x00000083#32]) ∧ encode (.tagCheck 33#8) = (.command, [0x00002104#32]) ∧
    encode (.writeTag [7#32]) = (.command, [0x00000102#32, 7#32]) ∧
    encode (.wrMboxWrite 5#32) = (.regAccess, [0x120#32, 5#32]) ∧
    encode (.submissionWordCh8 0x0001234#28) = (.submission, [0x00012348#32]) := by decide +kernel

/-! ### Operand forms (vectors W1 to W3, ceil4, V1 to V3, M1 to M6) -/

theorem test_ceil4 :
    [0, 1, 3, 4, 5, 8, 9, 0x54, 0xFFFFFFFC, 0xFFFFFFFD, 0xFFFFFFFF].map ceil4
      = [0, 1, 1, 1, 2, 2, 3, 21, 0x3FFFFFFF, 0x40000000, 0x40000000] := by decide +kernel

theorem test_submission_word :
    submissionWord 0x00012340#32 = 0x00012348#32 ∧ submissionWord 0#32 = 0x00000008#32 ∧
    submissionWord 0xFFFFFF70#32 = 0xFFFFFF78#32 := by decide +kernel

theorem test_match :
    [0x00012348#32, 0x00012341#32, 0x00012358#32, 0x00000000#32, 0x80012348#32, 0x00012340#32].map
        (fun r => responseMatches r 0x00012348#32)
      = [true, false, false, false, false, false] := by decide +kernel

theorem test_serial :
    serial64 0x01234567#32 0x89ABCDEF#32 = 0x0123456789ABCDEF#64 ∧
    serial64 0#32 0xFFFFFFFF#32 = 0x00000000FFFFFFFF#64 ∧
    serial64 0x80000000#32 0#32 = 0x8000000000000000#64 := by decide +kernel

/-! ### Building (vectors B1 to B15) -/

theorem test_newBuffer_b1 : ends (exec .newBuffer held) fun t => t = fresh := by decide +kernel

theorem test_newBuffer_b15 :
    ends (exec .newBuffer (withBuffer .build [52#32, 0#32, 1#32, 4#32, 0#32, 0#32, 0x10004#32, 8#32])) fun t =>
      t = fresh := by decide +kernel

theorem test_writeTag_b2 :
    ends (exec (.writeTag [1#32, 4#32, 0#32, 0#32, 0#32]) fresh) fun t =>
      t = { withBuffer .build [28#32, 0#32, 1#32, 4#32] with result := ⟨.ok, 2#32⟩ } := by decide +kernel

theorem test_tag10004_b3 :
    ends (exec (.tag10004 [8#32, 0#32, 0#32, 0#32, 0#32]) (withBuffer .build [28#32, 0#32, 1#32, 4#32]))
      fun t => t.result = ⟨.ok, 6#32⟩ && t.buf 0 = some 52#32 && t.buf 6 = some 0x10004#32 && findEnd t = .found 11 := by
  decide +kernel

theorem test_scan_b4 :
    ends (exec (.writeTag [0x10004#32, 8#32, 0#32, 0#32, 0#32, 0#32])
        { withBuffer .build [28#32, 0#32, 1#32, 4#32] with
          cfg := { Params.reference with scanMode := .wordScan } })
      fun t => t.result = ⟨.ok, 4#32⟩ && t.buf 0 = some 52#32 && t.buf 4 = some 0x10004#32 && t.buf 5 = some 8#32 := by
  decide +kernel

theorem test_terminator_b13 :
    ends (exec (.terminator [0#32, 0#32]) fresh) fun t =>
      t.result = ⟨.ok, 2#32⟩ && t.buf 0 = some 20#32 && findEnd t = .found 2 := by decide +kernel

theorem test_tag1_b10 :
    ends (exec (.tag1 [0xFFFFFFFF#32, 0#32]) fresh) fun t =>
      t.result = ⟨.ok, 2#32⟩ && t.buf 0 = some 20#32 && findEnd t = .noTerminator := by decide +kernel

theorem test_tag10004_b14 :
    ends (exec (.tag10004 [8#32, 0#32]) fresh) fun t =>
      t.result = ⟨.ok, 2#32⟩ && t.buf 0 = some 20#32 && findEnd t = .found 7 := by decide +kernel

/-! ### The call (vectors S1 to S6, M, C, X) -/

theorem test_call : ends (exec .call { fresh with polls := 5 }) fun t => t = { fresh with phase := .submitPoll } := by
  decide +kernel

theorem test_submitPoll_s2 :
    ends (exec .stepSubmitPoll (calling .submitPoll 0#32)) fun t => t.phase = .submitWrite := by decide +kernel

theorem test_submitPoll_x1 :
    ends (exec .stepSubmitPoll { bounded 1 (calling .submitPoll 0#32) with outq := fullQ }) fun t =>
      t.phase = .doneErr && t.result = ⟨.timeout, 0#32⟩ && t.outq = fullQ && t.polls = 1 := by decide +kernel

theorem test_submitWrite :
    ends (exec .stepSubmitWrite { calling .submitWrite 0#32 with sub := 0#32, outq := [7#32], polls := 2 }) fun t =>
      t.sub = 0x00012348#32 && t.outq = [7#32, 0x00012348#32] && t.polls = 0 && t.phase = .corrPoll := by decide +kernel

theorem test_corrPoll_s3 :
    ends (exec .stepCorrPoll { calling .corrPoll 0#32 with outq := fullQ, inq := [1#32] }) fun t =>
      t.phase = .corrRead && t.inq = [1#32] := by decide +kernel

theorem test_corrPoll_x2 :
    ends (exec .stepCorrPoll { bounded 3 (calling .corrPoll 0#32) with polls := 2 }) fun t =>
      t.phase = .doneErr && t.result = ⟨.timeout, 1#32⟩ := by decide +kernel

theorem test_corrRead_m2 :
    ends (exec .stepCorrRead { calling .corrRead 0x80000000#32 with inq := [0x00012341#32, 0x00012348#32] }) fun t =>
      t.phase = .corrPoll && t.inq = [0x00012348#32] && t.resp = 0x00012341#32 := by decide +kernel

theorem test_corrRead_c8 :
    ends (exec .stepCorrRead { calling .corrRead 0x80000004#32 with inq := [0x00012348#32] }) fun t =>
      t.phase = .doneErr && t.result = ⟨.unknownResponseStatus, 0x80000004#32⟩ && t.inq = [] := by decide +kernel

theorem test_codeResponse_c1 :
    ends (exec .codeResponse { calling .corrRead 0x80000000#32 with inq := [0x00012348#32] }) fun t =>
      t.phase = .doneOk && t.result = ⟨.ok, 0x80000000#32⟩ && t.resp = 0x00012348#32 := by decide +kernel

theorem test_codeResponseError_c2 :
    ends (exec .codeResponseError { calling .corrRead 0x80000001#32 with inq := [0x00012348#32] }) fun t =>
      t.phase = .doneErr && t.result = ⟨.firmwareRejected, 0x80000001#32⟩ := by decide +kernel

theorem test_codeRequest_c3 :
    ends (exec .codeRequest { calling .corrRead 0#32 with inq := [0x00012348#32] }) fun t =>
      t.phase = .doneErr && t.result = ⟨.noResponse, 0#32⟩ := by decide +kernel

theorem test_codeUnknown_c4 :
    ends (exec (.codeUnknown 1#32) { calling .corrRead 1#32 with inq := [0x00012348#32] }) fun t =>
      t.phase = .doneErr && t.result = ⟨.unknownResponseStatus, 1#32⟩ := by decide +kernel

theorem test_statusFull_s4 :
    ends (exec .statusFull { calling .submitPoll 0#32 with outq := fullQ }) fun t => t.phase = .submitPoll := by
  decide +kernel

theorem test_statusEmpty_s4 :
    ends (exec .statusEmpty { calling .corrPoll 0#32 with outq := fullQ }) fun t => t.phase = .corrPoll := by
  decide +kernel

theorem test_channel8_m3 :
    ends (exec .channel8 { calling .corrRead 0#32 with inq := [0x00012358#32] }) fun t =>
      t.phase = .corrPoll && t.inq = [] := by decide +kernel

theorem test_channelReserved :
    ends (exec (.channelReserved 12#4) { calling .corrRead 0#32 with inq := [0x0001234C#32] }) fun t =>
      t.phase = .corrPoll && t.inq = [] := by decide +kernel

/-! ### Reading back (vectors T1 to T10) and the recipes (programs P1, P2) -/

theorem test_tagCheck_t1 :
    ends (exec (.tagCheck 2#8) (answered 0x80000004#32 0#32 0#32)) fun t => t.result = ⟨.ok, 0x80000004#32⟩ := by
  decide +kernel

theorem test_tagCheck_t4 :
    ends (exec (.tagCheck 2#8) (answered 0x7FFFFFFF#32 0#32 0#32)) fun t =>
      t.result = ⟨.tagNotAnswered, 0x7FFFFFFF#32⟩ := by decide +kernel

theorem test_readWord_t8 :
    ends (exec (.readWord 0#8) (withBuffer .build [28#32, 0#32, 1#32, 4#32])) fun t => t.result = ⟨.ok, 28#32⟩ := by
  decide +kernel

theorem test_readWord_t10 : refuses (exec (.readWord 0#8) held) .phaseNotAdmitted := by decide +kernel

theorem test_discard :
    ends (exec .discard (answered 0x80000004#32 5#32 0#32)) fun t =>
      t.phase = .none && t.buf 5 = some 5#32 && t.result = ⟨.ok, 0#32⟩ := by decide +kernel

theorem test_firmwareRevision_writes_its_tag :
    ends (engineStep { fresh with recipe := some ⟨.firmwareRevision, .writeTag, 0#32, 0#32⟩ }) fun t =>
      t.buf 0 = some 28#32 && t.buf 2 = some 1#32 && t.buf 3 = some 4#32 && t.result = ⟨.ok, 2#32⟩ := by decide +kernel

theorem test_boardSerial_p2 :
    ends (engineStep
        { answered 0x80000008#32 0x89ABCDEF#32 0x01234567#32 with
          recipe := some ⟨.boardSerial, .discard, 0x89ABCDEF#32, 0x01234567#32⟩ }) fun t =>
      t.result = ⟨.ok, 0x89ABCDEF#32⟩ && t.value64 = 0x0123456789ABCDEF#64 && t.phase = .none && t.recipe = none := by
  decide +kernel

/-! ### Registers (vectors A1 to A7, Q1 to Q11) -/

theorem test_raNew_a1 : ends (exec (.raNew 0xb880#32) quiet) fun t => t.result = ⟨.ok, 0x3F00B880#32⟩ := by
  decide +kernel

theorem test_raNew_a5 :
    faults (exec (.raNew 0xb880#32) { quiet with baseValid := false }) .baseNotResolved := by decide +kernel

theorem test_raOffset_a2 :
    ends (exec (.raOffset 0x3F00B880#32 0x18#32) quiet) fun t => t.result = ⟨.ok, 0x3F00B898#32⟩ := by decide +kernel

theorem test_raOffset_a6 : refuses (exec (.raOffset 0xFFFFFFFC#32 4#32) quiet) .addressOverflow := by decide +kernel

theorem test_raRead_q7 :
    ends (exec (.raRead 0x3F00B880#32) { quiet with inq := [7#32, 9#32] }) fun t =>
      t.result = ⟨.ok, 7#32⟩ && t.inq = [9#32] := by decide +kernel

theorem test_raRead_a7 : refuses (exec (.raRead 0x3F00B882#32) quiet) .misalignedAddress := by decide +kernel

theorem test_raWrite_q2 :
    ends (exec (.raWrite 0x3F00B8A0#32 0x00012348#32) quiet) fun t => t.outq = [0x00012348#32] := by decide +kernel

theorem test_rdMboxRw_q7 :
    ends (exec .rdMboxRw { quiet with inq := [7#32, 9#32] }) fun t => t.readData = 7#32 && t.inq = [9#32] := by
  decide +kernel

theorem test_rdMboxRw_q9 : faults (exec .rdMboxRw quiet) .inqEmpty := by decide +kernel

theorem test_rdMboxStatus_q1 :
    exec .rdMboxStatus quiet = .next { quiet with draws := 1, readData := quiet.status.word } := by rfl

theorem test_wrMboxWrite_q2 :
    ends (exec (.wrMboxWrite 0x00012348#32) quiet) fun t => t.outq = [0x00012348#32] := by decide +kernel

theorem test_wrMboxWrite_q4 : faults (exec (.wrMboxWrite 1#32) { quiet with outq := fullQ }) .outqFull := by
  decide +kernel

theorem test_undescribed_q11 :
    refuses (exec (.rdwrMboxPeek .read) quiet) .registerNotDescribed ∧
    refuses (exec (.wrMboxRw 0#32) quiet) .registerNotDescribed ∧
    refuses (exec (.regOtherOffset 0x04#8 .read) quiet) .registerNotDescribed := by decide +kernel

theorem test_fwPop_q5 :
    ends (exec .fwPop { quiet with outq := [3#32, 4#32] }) fun t => t.outq = [4#32] && t.fwPending = [3#32] := by
  decide +kernel

theorem test_fwProcess_p1 :
    ends (exec (.fwProcess 0x00012348#32
        ([28#32, 0x80000000#32, 1#32, 4#32, 0x80000004#32, 0x00020000#32] ++ List.replicate 30 0#32))
        { calling .corrPoll 0#32 with fwPending := [0x00012348#32] }) fun t =>
      t.buf 1 = some 0x80000000#32 && t.buf 5 = some 0x00020000#32 && t.fwPending = [0x00012348#32] := by decide +kernel

theorem test_fwPush_q6 :
    ends (exec (.fwPush 3#32) { quiet with fwPending := [3#32] }) fun t => t.inq = [3#32] && t.fwPending = [] := by
  decide +kernel

theorem test_foreignPush_q10 :
    refuses (exec (.foreignPush 3#32) { quiet with inq := fullQ }) .stepNotEnabled := by decide +kernel

/-! ### The lock (vectors K1 to K7) -/

theorem test_tryAcquire_k1 : ends (exec (.tryAcquire 0#8) quiet) fun t => t = held := by decide +kernel

theorem test_tryAcquire_k2 :
    ends (exec (.tryAcquire 0#8) held) fun t => t = { held with result := ⟨.lockContention, 0#32⟩ } := by decide +kernel

theorem test_release_k4 :
    ends (exec (.release 0#8) held) fun t =>
      t.ie = true && t.result = ⟨.ok, 0#32⟩ && t.locks[0]? = some ⟨.unlocked, false, true, .host⟩ := by decide +kernel

theorem test_release_k7 : refuses (exec (.release 0#8) quiet) .noLiveGuard := by decide +kernel

/-! ### Result kinds, and the machine -/

theorem test_kindTimeout :
    refuses (exec (.kindTimeout 1#32) (calling .corrPoll 0#32)) .stepNotEnabled ∧
    refuses (exec (.kindTimeout 0#32) (bounded 1 (calling .corrPoll 0#32))) .wordNotPresent ∧
    ends (exec (.kindTimeout 1#32) (bounded 1 (calling .corrPoll 0#32))) fun t =>
      t.result = ⟨.timeout, 1#32⟩ && t.phase = .doneErr := by decide +kernel

/-- A kind that no command of this state ends with is refused: no contention, no code word, no tag to check. -/
theorem test_kinds_not_raised :
    refuses (exec (.kindLockContention 0#32) quiet) .wordNotPresent ∧
    refuses (exec (.kindFirmwareRejected 0x80000001#32) quiet) .noSuchStep ∧
    refuses (exec (.kindNoResponse 0#32) { calling .corrRead 1#32 with inq := [0x00012348#32] }) .wordNotPresent ∧
    refuses (exec (.kindTagNotAnswered 5#32) quiet) .wordNotPresent ∧
    refuses (exec (.kindBufferFull 3#32) fresh) .wordNotPresent := by decide +kernel

theorem test_kindUnsupportedBoard :
    ends (exec (.kindUnsupportedBoard 0#32) State.reset) fun t =>
      t.startup = some .unsupportedBoard && t.result = ⟨.ok, 0#32⟩ && t.baseValid = false &&
        refuses (resolveBase t) .detectionFailed := by decide +kernel

/-- TRY_ACQUIRE 1, TRY_ACQUIRE 0, RELEASE 1 give IE = 1 with GUARD[0] live: no handler begins (60_exceptions R275). -/
theorem test_irqEnter_guard_live : refuses (irqEnter { held with ie := true }) .interruptNotDeliverable := by
  decide +kernel

/-- The buffer holds its draw at reset, and each lock its own SAVED_IE (10_state R42). -/
theorem test_reset_draws :
    (State.resetWith Params.reference
      { ResetDraw.zero with buf := Vector.replicate 36 0x01020304#32, savedIe := [true, false, true] }).buf 35
        = some 0x01020304#32 ∧
    (State.resetWith Params.reference { ResetDraw.zero with savedIe := [true, false, true] }).locks.map (·.savedIe)
        = [true, false, true] := by decide +kernel

/-- An illegal encoding is refused before the guard is looked at (60_exceptions R276). -/
theorem test_refusal_order :
    refuses (step { quiet with agenda := [.words .command [0x00000003#32]] }) (.illegalEncoding .channelField) ∧
    refuses (step { quiet with agenda := [.words .command [0x00002204#32]] }) .guardNotHeld := by decide +kernel

/-- A recurring input is taken like the input, and goes to the end of the agenda. -/
theorem test_again :
    ends (step { calling .corrPoll 0#32 with agenda := [.again (.words .foreignPush [3#32]), .engine] }) fun t =>
      t.inq = [3#32] && t.agenda = [.engine, .again (.words .foreignPush [3#32])] := by decide +kernel

/-- The three ways a drawn move comes out: the instruction, or the ENGINE's step when it is of another port or refused. -/
theorem test_moveOrEngine :
    (ends (moveOrEngine [.foreignPush] (some (.foreignPush 3#32)) (calling .corrPoll 0#32)) fun t => t.inq = [3#32]) ∧
    (ends (moveOrEngine [.foreignPush] (some .fwPop) { calling .submitPoll 0#32 with outq := [5#32] }) fun t =>
      t.phase = .submitWrite && t.outq = [5#32]) ∧
    ends (moveOrEngine [.foreignPush] (some (.foreignPush 0x00012348#32)) (calling .submitPoll 0#32)) fun t =>
      t.phase = .submitWrite := by decide +kernel

/-- GUARD[0] released in BUILD, and taken again by the same agent. -/
def retaken (s : State) : Out := andThen (exec (.release 0#8) s) (exec (.tryAcquire 0#8))

/-- GUARD[0] released in BUILD, and taken again by a handler that begins then. -/
def retakenByIrq (s : State) : Out :=
  andThen (andThen (exec (.release 0#8) s) irqEnter) (exec (.tryAcquire 0#8))

/-- One guard covers a request: re-taken, no command goes on with it, and NEW_BUFFER begins another (44_lock R249;
70_reset_and_hazards R320). -/
theorem test_guard_retaken :
    ∀ o ∈ [retaken fresh, retakenByIrq fresh],
      (∀ c ∈ [Instr.writeTag [1#32], .call, .readWord 0#8, .discard, .tag1 []],
        refuses (andThen o (exec c)) .requestBroken) ∧
      ends (andThen (andThen o (exec .newBuffer)) (exec .call)) fun t => t.phase = .submitPoll := by decide +kernel

/-- A handler that ends with a live guard of its own leaves IE = 1, and the lock stays Locked (60_exceptions R275). -/
theorem test_irqExit_guard_live :
    ends (andThen (andThen (irqEnter quiet) (exec (.tryAcquire 0#8))) irqExit) fun t =>
      t.ie && t.running = .host && t.locks[0]? = some ⟨.locked, true, false, .irq⟩ := by decide +kernel

theorem test_fetch_word :
    ends (step (State.reset.withFetchWord 32 0x00000008)) fun t => t.result = ⟨.ok, 0#32⟩ && t.agenda = [] := by
  decide +kernel

/-! ### Witnesses: for each obligation with hypotheses, a state and operands that meet them, clause by clause -/

/-- The invariant of a state in which no recipe runs and the guard covers a request, from checks that evaluate. -/
theorem inv_of {s : State}
    (h : s.mem.wf = true ∧ s.outq.length ≤ s.cfg.fifoDepth ∧ s.inq.length ≤ s.cfg.fifoDepth ∧
      s.locks.length = s.cfg.lockCount ∧ (∀ l ∈ s.locks, l.live = true ↔ l.flag = .locked) ∧
      (s.fwPending.Pairwise fun a b => a.toNat ≤ b.toNat) ∧ (∀ i < Config.bufWords, (s.buf i).isSome = true) ∧
      s.sub = submissionWord s.cfg.bufAddr ∧ s.holdsRequest = true ∧ s.recipe = none ∧ s.startup = none)
    (polls : ∀ n, s.cfg.pollLimit = some n → s.polls < n) : s.Inv := by
  obtain ⟨memWf, outqBound, inqBound, lockCount, lockCoherent, pendingSorted, bufPresent, sub, guard, recipe, startup⟩ := h
  exact { memWf, outqBound, inqBound, lockCount, lockCoherent, pendingSorted, bufPresent
          subLatched := fun _ => sub
          pollsBelow := fun n h _ => polls n h
          busyGuard := fun _ => guard
          unbrokenLive := fun _ =>
            let ⟨l, hl, live, _⟩ := State.holdsGuard_iff.mp (State.holdsRequest_iff.mp guard).1
            ⟨l, hl, live⟩
          recipePhase := fun _ h => nomatch recipe ▸ h
          startupFatal := fun _ h => nomatch startup ▸ h }

/-- A bounded CALL just accepted meets the invariant. -/
theorem inv_calling : (bounded 1 (calling .submitPoll 0#32)).Inv := inv_of (by decide +kernel) (by rintro n ⟨⟩; decide)

theorem witness_NewBufferMakesEmptyMessage :
    held.ready newBufferPhases ∧ fresh.ready newBufferPhases ∧
    (answered 0#32 0#32 0#32).ready newBufferPhases := by decide +kernel

/-- n = 33 is the longest list that fits, n = 0 the shortest. -/
theorem witness_WriteTagCopiesTheList :
    fresh.inRequest [.build] ∧ findEnd fresh = .found 2 ∧ fresh.buf 0 = some 8#32 ∧
    2 + (List.replicate 33 7#32).length + fresh.cfg.termReserve.val ≤ 36 ∧
    2 + ([] : List Word).length + fresh.cfg.termReserve.val ≤ 36 := by decide +kernel

theorem witness_WriteTagBufferFullLeavesNoTrace :
    fresh.inRequest [.build] ∧ findEnd fresh = .found 2 ∧
    36 < 2 + (List.replicate 34 7#32).length + fresh.cfg.termReserve.val ∧
    (withBuffer .build [20#32, 0#32, 1#32, 0xFFFFFFFF#32]).inRequest [.build] ∧
    findEnd (withBuffer .build [20#32, 0#32, 1#32, 0xFFFFFFFF#32]) = .noTerminator := by decide +kernel

theorem witness_TagIdentifierRowsAppendTheirTag :
    fresh.inRequest [.build] ∧ findEnd fresh = .found 2 ∧ fresh.buf 0 = some 8#32 ∧
    2 + ((List.replicate 32 7#32).length + 1) + fresh.cfg.termReserve.val ≤ 36 := by decide +kernel

/-- Both ways the walk ends without a terminator, and one that ends at the last word. -/
theorem witness_WalkFindsTheTerminator :
    fresh.cfg.scanMode = .tagWalk ∧ findEnd fresh = .found 2 ∧
    findEnd (withBuffer .build [8#32, 0#32, 1#32, 0xFFFFFFFF#32]) = .noTerminator ∧
    findEnd (withBuffer .build ([8#32, 0#32, 1#32, 120#32] ++ List.replicate 31 0#32 ++ [5#32])) = .noTerminator ∧
    findEnd (withBuffer .build [8#32, 0#32, 1#32, 120#32]) = .found 35 ∧
    (withBuffer .build [8#32, 0#32, 1#32, 0xFFFFFFFF#32]).inRequest [.build] := by decide +kernel

/-- A state of the other SCAN_MODE. -/
def scanning (s : State) : State := { s with cfg := { s.cfg with scanMode := .wordScan } }

theorem witness_ScanFindsTheFirstZeroWord :
    (scanning fresh).cfg.scanMode = .wordScan ∧ findEnd (scanning fresh) = .found 2 ∧
    findEnd (scanning (withBuffer .build (List.replicate 35 7#32))) = .found 35 ∧
    findEnd (scanning (withBuffer .build (List.replicate 36 7#32))) = .noTerminator := by decide +kernel

theorem witness_DeclaredSizeCountsTheAppendedWords : held.ready newBufferPhases := by decide +kernel

theorem witness_WellFormedTagsKeepTheZeroSentinel :
    held.ready newBufferPhases ∧ held.cfg.scanMode = .tagWalk ∧ held.cfg.termReserve = 1 ∧
    ∀ ws ∈ [[1#32, 4#32, 0#32, 0#32, 0#32], [0x10004#32, 8#32, 0#32, 0#32, 0#32], [1#32, 1#32, 1#32, 1#32]],
      wellFormedTag ws = true := by decide +kernel

/-- Two tags, one with a trailing terminator, stand one after the other, and a list cut short does not. -/
theorem test_tagsAt :
    (withBuffer .build [44#32, 0#32, 1#32, 4#32, 0#32, 7#32, 2#32, 0#32, 0#32]).tagsAt 2
      [[1#32, 4#32, 0#32, 7#32, 0#32], [2#32, 0#32, 0#32]] 9 ∧
    ¬ (withBuffer .build [44#32, 0#32, 1#32, 4#32, 0#32, 8#32]).tagsAt 2 [[1#32, 4#32, 0#32, 7#32, 0#32]] 6 := by
  simp only [State.tagsAt]
  decide +kernel

theorem witness_CallIsAccepted : fresh.inRequest [.build] := by decide +kernel

theorem witness_SubmitPollWaitsWhileFull :
    { calling .submitPoll 0#32 with outq := fullQ }.budgetLeft ∧
    { bounded 2 (calling .submitPoll 0#32) with outq := fullQ }.budgetLeft ∧
    (calling .submitPoll 0#32).atStep .submitPoll ∧
    (calling .submitPoll 0#32).outq.length ≠ (calling .submitPoll 0#32).cfg.fifoDepth ∧
    { calling .submitPoll 0#32 with outq := fullQ }.outq.length = (calling .submitPoll 0#32).cfg.fifoDepth :=
  ⟨nofun, by rintro n ⟨⟩; decide, by decide +kernel⟩

theorem witness_SubmitWriteSendsTheSubmissionWord :
    (calling .submitWrite 0#32).atStep .submitWrite ∧
    (calling .submitWrite 0#32).outq.length ≠ (calling .submitWrite 0#32).cfg.fifoDepth ∧
    { calling .submitWrite 0#32 with outq := List.replicate 7 0#32 }.outq.length ≠ 8 := by decide +kernel

/-- The common configuration, and the highest legal buffer address (vector W3). -/
theorem witness_SubmissionWordKeepsAddressAndChannel :
    Params.reference.Valid ∧ { Params.reference with bufAddr := 0xFFFFFF70#32 }.Valid ∧
    { Params.reference with bufAddr := 0#32 }.Valid ∧ ¬ { Params.reference with bufAddr := 0x00012344#32 }.Valid := by
  decide +kernel

theorem witness_CorrPollWaitsWhileEmpty :
    (calling .corrPoll 0#32).budgetLeft ∧ (calling .corrPoll 0#32).atStep .corrPoll ∧
    (calling .corrPoll 0#32).inq = [] ∧ { calling .corrPoll 0#32 with inq := [0#32] }.inq ≠ [] :=
  ⟨nofun, by decide +kernel⟩

/-- Channels 0, 8 and 15, at the ends of the rows. -/
theorem witness_ForeignResponseIsDiscarded :
    (calling .corrRead 0#32).budgetLeft ∧ (calling .corrRead 0#32).atStep .corrRead ∧
    ([0x00012340#32, 0x00012358#32, 0x0001234F#32].all fun w => w ≠ (calling .corrRead 0#32).sub) ∧
    { calling .corrRead 0#32 with inq := [0x00012340#32] }.inq = 0x00012340#32 :: [] :=
  ⟨nofun, by decide +kernel⟩

theorem witness_MatchingResponseIsClassified :
    [0x80000000#32, 0x80000001#32, 0#32, 1#32, 0x80000002#32].all fun c =>
      { calling .corrRead c with inq := [0x00012348#32] }.atStep .corrRead ∧
      { calling .corrRead c with inq := [0x00012348#32] }.inq = (calling .corrRead c).sub :: [] ∧
      (calling .corrRead c).buf 1 = some c := by decide +kernel

theorem witness_OkFromCallNeedsTheMatchingResponse :
    ∃ t, exec .stepCorrRead { calling .corrRead 0x80000000#32 with inq := [0x00012348#32] } = .next t ∧
      t.phase = .doneOk :=
  (next_of_ends (p := fun t => t.phase = .doneOk) (by decide +kernel)).imp fun _ h => ⟨h.1, of_decide_eq_true h.2⟩

/-- A poll that fails spends the budget: OUTQ full, INQ empty, a foreign word at its head. -/
theorem spent_budgets :
    (∀ p, (bounded 1 (calling p 0#32)).budgetSpent) ∧ (∀ p, (bounded 1 (calling p 0#32)).baseValid = true) ∧
    { bounded 1 (calling .submitPoll 0#32) with outq := fullQ }.outq.length = 8 ∧
    (bounded 1 (calling .corrPoll 0#32)).inq = [] ∧
    { bounded 1 (calling .corrRead 0#32) with inq := [3#32] }.inq = 3#32 :: [] ∧
    3#32 ≠ (bounded 1 (calling .corrRead 0#32)).sub :=
  ⟨fun _ => ⟨1, rfl, Nat.le_refl 1⟩, fun _ => rfl, by decide +kernel⟩

theorem witness_ExhaustedPollsEndInTimeout :
    (∀ p, (bounded 1 (calling p 0#32)).budgetSpent) ∧ (∀ p, (bounded 1 (calling p 0#32)).baseValid = true) :=
  ⟨spent_budgets.1, spent_budgets.2.1⟩

theorem witness_EveryPhaseStepSpendsTheCallBudget :
    (bounded 1 (calling .submitPoll 0#32)).cfg.pollLimit = some 1 ∧ (bounded 1 (calling .submitPoll 0#32)).Inv ∧
    (∃ t, exec .stepSubmitPoll (bounded 1 (calling .submitPoll 0#32)) = .next t) ∧
    ∃ t, exec (.foreignPush 3#32) (bounded 1 (calling .submitPoll 0#32)) = .next t :=
  ⟨rfl, inv_calling, (next_of_ends (p := fun _ => true) (by decide +kernel)).imp fun _ h => h.1,
    (next_of_ends (p := fun _ => true) (by decide +kernel)).imp fun _ h => h.1⟩

theorem witness_BoundedCallEnds :
    (bounded 1 (calling .submitPoll 0#32)).cfg.Valid ∧ (bounded 1 (calling .submitPoll 0#32)).Inv ∧
    (bounded 1 (calling .submitPoll 0#32)).cfg.pollLimit = some 1 ∧
    (bounded 1 (calling .submitPoll 0#32)).atStep .submitPoll ∧ (bounded 1 (calling .submitPoll 0#32)).agenda = [] :=
  ⟨by decide +kernel, inv_calling, rfl, by decide +kernel, rfl⟩

/-- CORR_POLL with an empty INQ, and this agenda. -/
def polling (agenda : List Input) : State := { calling .corrPoll 0#32 with agenda := agenda }

/-- Two different foreign words, each pushed, polled for and read: once, and without end. -/
theorem witness_SilentFirmwareHangsTheCall :
    (calling .corrPoll 0#32).cfg.Valid ∧ (calling .corrPoll 0#32).cfg.pollLimit = none ∧
    (calling .corrPoll 0#32).baseValid = true ∧ { calling .submitPoll 0#32 with outq := fullQ }.outq.length = 8 ∧
    (calling .submitPoll 0#32).agenda = [] ∧ (calling .corrPoll 0#32).agenda = [] ∧
    ([3#32, 0x00012358#32].all fun x => x ≠ submissionWord (calling .corrPoll 0#32).cfg.bufAddr) ∧
    ∀ a ∈ [[3#32, 0x00012358#32].flatMap fun x => [Input.words .foreignPush [x], .engine, .engine],
        [3#32, 0x00012358#32].flatMap fun x => [.again (.words .foreignPush [x]), .again .engine, .again .engine],
        [.again (.drawn [.foreignPush])]],
      (polling a).sub = submissionWord (polling a).cfg.bufAddr ∧ (polling a).phase = .corrPoll ∧
      (polling a).inq = [] ∧ (polling a).agenda = a := by
  decide +kernel

/-- The request of scenario A: the buffer the firmware answers. -/
def asked : State := { calling .submitPoll 0#32 with sub := 0#32 }

/-- Its answer: CODE, the tag's code word and its value word (program P1). -/
def answer : List Word := [28#32, 0x80000000#32, 1#32, 4#32, 0x80000004#32, 0x00020000#32] ++ List.replicate 30 0#32

/-- The answer is one a behaving firmware gives to a message whose tag at index 2 has a 4-byte value buffer. -/
theorem answer_fwOk {s : State}
    (h : (∀ j < 36, j ≠ 1 → answer[j]? ≠ s.buf j → j = 4 ∨ j = 5) ∧ 2 ∈ tagStarts s 36 2 ∧ s.buf 3 = some 4#32) :
    fwOkWrite s answer := by
  refine ⟨by decide, .inl rfl, fun i hi h1 hne => ⟨rfl, 2, h.2.1, 4#32, 0x80000004#32, h.2.2, ?_, ?_, rfl, by decide⟩⟩ <;>
  · have : tagLength 4#32 = 4 := by decide
    have := h.1 i hi h1 hne
    omega

/-- The request, a foreign word before the firmware has taken it, and the firmware's three steps. -/
def handshake : List Input :=
  [.engine, .engine, .words .foreignPush [3#32], .words .fwPop [], .words .fwProcess (0x00012348#32 :: answer),
    .words .fwPush [0x00012348#32]]

/-- The state a step leaves. -/
def after (s : State) : State :=
  match step s with
  | .next t => t
  | .fault _ => s
  | .refused _ => s

theorem step_after {s : State} (h : ends (step s) (fun _ => true) = true) : step s = .next (after s) := by
  obtain ⟨t, h, -⟩ := next_of_ends h
  rw [h, after, h]

/-- The state after n inputs of the handshake. -/
def played : Nat → State
  | 0 => { asked with agenda := handshake }
  | n + 1 => after (played n)

/-- The FwOk execution of the handshake: its last input is the firmware's push. -/
theorem fwOk_played : FwOk 0x00012348#32 .waiting (played 0) :=
  have next (n : Nat) (h : ends (step (played n)) (fun _ => true) = true) : step (played n) = .next (played (n + 1)) :=
    step_after h
  .engine (by decide +kernel) (next 0 (by decide +kernel)) <|
  .engine (by decide +kernel) (next 1 (by decide +kernel)) <|
  .foreignPush (x := 3#32) (rest := handshake.drop 3) (by decide +kernel) (next 2 (by decide +kernel)) <|
  .pop (rest := handshake.drop 4) (by decide +kernel) (by decide +kernel) (next 3 (by decide +kernel)) <|
  .process (rest := handshake.drop 5) (by decide +kernel) (answer_fwOk (by decide +kernel)) (next 4 (by decide +kernel)) <|
  .push (rest := []) (by decide +kernel) (next 5 (by decide +kernel)) <|
  .done (by decide +kernel)

theorem witness_HandshakeUnderFwOkEnds :
    FwOk (submissionWord (played 0).cfg.bufAddr) .waiting (played 0) ∧ fwOkWrite asked answer ∧
    (played 0).cfg.Valid ∧ (played 0).atStep .submitPoll ∧ (played 0).cfg.pollLimit = none ∧
    (played 0).outq = [] ∧ (played 0).inq = [] ∧ asked.cfg.Valid ∧ asked.atStep .submitPoll ∧ asked.outq = [] ∧
    asked.inq = [] ∧ asked.fwPending = [] :=
  ⟨fwOk_played, answer_fwOk (by decide +kernel), by decide +kernel⟩

theorem witness_PhaseMovesByTheStateMachineOnly :
    ∃ t, exec .newBuffer held = .next t ∧ t.phase ≠ held.phase :=
  (next_of_ends (p := fun t => t.phase ≠ held.phase) (by decide +kernel)).imp fun _ h => ⟨h.1, of_decide_eq_true h.2⟩

/-- Each row at a state where its word is the one present; the failed polls that spend the budget are `spent_budgets`. -/
theorem witness_WireRowsAreTheStepsOfTheirWord :
    { calling .submitPoll 0#32 with outq := fullQ }.budgetLeft ∧ (calling .corrPoll 0#32).budgetLeft ∧
    (bounded 1 (calling .submitPoll 0#32)).budgetSpent ∧ (bounded 1 (calling .corrPoll 0#32)).budgetSpent ∧
    (bounded 1 (calling .corrRead 0#32)).budgetSpent ∧
    { calling .submitPoll 0#32 with outq := fullQ }.atStep .submitPoll ∧
    { calling .submitPoll 0#32 with outq := fullQ }.outq.length = 8 ∧
    (calling .corrPoll 0#32).atStep .corrPoll ∧ (calling .corrPoll 0#32).inq = [] ∧
    (calling .submitWrite 0#32).atStep .submitWrite ∧ (calling .submitWrite 0#32).outq.length ≠ 8 ∧
    (calling .corrRead 0#32).atStep .corrRead ∧ ((0x00012340#32).extractLsb' 0 4, Instr.channel0) ∈ channelRows ∧
    ((0x00012358#32).extractLsb' 0 4, Instr.channel8) ∈ channelRows ∧ 9 ≤ ((0x0001234F#32).extractLsb' 0 4).toNat ∧
    ((calling .corrRead 0#32).sub.extractLsb' 0 4, Instr.channel8) ∈ channelRows ∧
    ([0#32, 0x80000000#32, 0x80000001#32, 5#32].all fun c => (calling .corrRead c).buf 1 = some c) ∧
    (answered 0x80000004#32 0#32 0#32).inRequest [.doneOk, .doneErr] ∧
    (answered 0x80000004#32 0#32 0#32).buf ((2#8).toNat + 2) = some 0x80000004#32 :=
  ⟨nofun, nofun, spent_budgets.1 _, spent_budgets.1 _, spent_budgets.1 _, by decide +kernel⟩

/-- t = 2 and t = 33 are the ends of the range, 1 and 34 lie outside it. -/
theorem witness_TagCheckTestsTheResponseBit :
    (answered 0x80000004#32 0#32 0#32).inRequest [.doneOk, .doneErr] ∧
    2 ≤ (2#8).toNat ∧ (answered 0x80000004#32 0#32 0#32).buf ((2#8).toNat + 2) = some 0x80000004#32 ∧
    (33#8).toNat ≤ 33 ∧ (answered 0x80000004#32 0#32 0#32).buf ((33#8).toNat + 2) = some 0#32 ∧
    (1#8).toNat < 2 ∧ 33 < (34#8).toNat := by decide +kernel

theorem witness_ReadWordReturnsTheBufferWord :
    (answered 0#32 0#32 0#32).inRequest [.build, .doneOk, .doneErr] ∧
    (35#8).toNat ≤ 35 ∧ (answered 0#32 0#32 0#32).buf (35#8).toNat = some 0#32 ∧ 35 < (36#8).toNat := by decide +kernel

theorem witness_DiscardEndsTheRequest : fresh.inRequest [.build, .doneOk, .doneErr] := by decide +kernel

theorem witness_RecipeBeginsWithNewBuffer : held.ready newBufferPhases := by decide +kernel

/-- A recipe at a stage. -/
def inRecipe (k : RecipeKind) (st : RecipeStage) (s : State) : State := { s with recipe := some ⟨k, st, 0#32, 0#32⟩ }

/-- A recipe about to append its tag to a buffer in which FindEnd finds no terminator. -/
def noTerminator : State :=
  inRecipe .boardSerial .writeTag (withBuffer .build [20#32, 0#32, 1#32, 0xFFFFFFFF#32])

theorem witness_RecipeStepsAreItsExpansion :
    (inRecipe .boardSerial .writeTag fresh).phase.inCall = false ∧
    (∀ k, ends (exec (.writeTag (recipeTag k)) { inRecipe k .writeTag fresh with recipe := none }) fun t =>
      t.result.kind = .ok) ∧
    (ends (exec (.writeTag (recipeTag .boardSerial)) { noTerminator with recipe := none }) fun t =>
      t.result.kind = .bufferFull) ∧
    (ends (exec .call { inRecipe .boardSerial .call fresh with recipe := none }) fun _ => true) ∧
    (inRecipe .boardSerial .checkTag (answered 0#32 0#32 0#32)).phase ≠ .doneErr ∧
    ([0#32, 0x80000000#32].all fun c =>
      ends (exec (.tagCheck 2#8) { inRecipe .boardSerial .checkTag (answered c 0#32 0#32) with recipe := none })
        fun _ => true) ∧
    (∀ c ∈ [Instr.readWord 5#8, .readWord 6#8, .discard],
      ends (exec c { inRecipe .boardSerial .readLow (answered 0#32 0#32 0#32) with recipe := none })
        fun _ => true) := by
  refine ⟨by decide +kernel, fun k => ?_, by decide +kernel⟩
  cases k <;> decide +kernel

theorem witness_FailedRecipeDiscardsAndReturnsTheError :
    (inRecipe .boardSerial .checkTag (withBuffer .doneErr [32#32])).holdsRequest = true ∧
    (inRecipe .boardSerial .checkTag (withBuffer .doneErr [32#32])).phase = .doneErr ∧
    (inRecipe .boardSerial (.cleanup ⟨.tagNotAnswered, 0#32⟩) (answered 0#32 0#32 0#32)).phase = .doneOk ∧
    (inRecipe .boardSerial (.cleanup ⟨.bufferFull, 36#32⟩) fresh).phase = .build ∧
    (inRecipe .boardSerial (.cleanup ⟨.bufferFull, 36#32⟩) fresh).holdsRequest = true := by
  decide +kernel

theorem witness_AnsweredRecipeReturnsItsValue :
    ∀ s ∈ [inRecipe .boardSerial .checkTag (answered 0x80000008#32 5#32 6#32),
        inRecipe .firmwareRevision .checkTag (answered 0x80000008#32 5#32 6#32)],
      s.cfg.Valid ∧ s.agenda = [] ∧ s.phase = .doneOk ∧ s.holdsRequest = true ∧
      s.buf 4 = some 0x80000008#32 ∧ (0x80000008#32).getLsbD 31 = true ∧ s.buf 5 = some 5#32 ∧
      s.buf 6 = some 6#32 := by decide +kernel

/-- The last address, and the first sum that is refused. -/
theorem witness_RegisterAddressesAreSums :
    quiet.busy = false ∧ quiet.baseValid = true ∧
    quiet.cfg.mmioBase.toNat + (0xC0FFFFFF#32).toNat < 2 ^ 32 ∧ 2 ^ 32 ≤ quiet.cfg.mmioBase.toNat + (0xC1000000#32).toNat ∧
    (0xFFFFFFFC#32).toNat + (3#32).toNat < 2 ^ 32 ∧ 2 ^ 32 ≤ (0xFFFFFFFC#32).toNat + (4#32).toNat := by decide +kernel

theorem witness_RegisterAddressAccessesTheNamedRegister :
    quiet.busy = false ∧ quiet.baseValid = true ∧
    (0x3F00B880#32).toNat = quiet.cfg.mmioBase.toNat + 0xb880 ∧
    { quiet with inq := [7#32] }.inq = 7#32 :: [] ∧
    (0x3F00B898#32).toNat = quiet.cfg.mmioBase.toNat + 0xb880 + 0x18 ∧
    (0x3F00B8A0#32).toNat = quiet.cfg.mmioBase.toNat + 0xb880 + 0x20 ∧ quiet.outq.length ≠ quiet.cfg.fifoDepth ∧
    (0x3F00B882#32).toNat % 4 ≠ 0 ∧
    (0x3F00B884#32).toNat % 4 = 0 ∧ (0x3F00B884#32).toNat ≠ quiet.cfg.mmioBase.toNat + 0xb880 ∧
    (0x3F00B884#32).toNat ≠ quiet.cfg.mmioBase.toNat + 0xb880 + 0x18 ∧
    (0x3F00B884#32).toNat ≠ quiet.cfg.mmioBase.toNat + 0xb880 + 0x20 := by decide +kernel

theorem witness_BareRegisterAccesses :
    quiet.baseValid = true ∧ { quiet with inq := [7#32] }.inq = 7#32 :: [] ∧
    quiet.outq.length ≠ quiet.cfg.fifoDepth := by decide +kernel

theorem witness_FirmwareTakesTheOldestRequest :
    { quiet with outq := [3#32, 4#32] }.outq = 3#32 :: [4#32] ∧ quiet.outq = [] := by decide +kernel

theorem witness_FirmwareRewritesTheBufferOnly :
    answer.length = 36 ∧ 0x00012348#32 ∈ { quiet with fwPending := [0x00012348#32] }.fwPending ∧
    (0x00012348#32).extractLsb' 0 4 = 8#4 ∧ 0x00012348#32 &&& 0xFFFFFFF0#32 = quiet.cfg.bufAddr ∧
    0x00012348#32 ∉ quiet.fwPending ∧ (0x00012341#32).extractLsb' 0 4 ≠ 8#4 ∧
    0x00012358#32 &&& 0xFFFFFFF0#32 ≠ quiet.cfg.bufAddr := by decide +kernel

theorem witness_FirmwarePushesTheRequestWordBack :
    3#32 ∈ { quiet with fwPending := [3#32, 3#32] }.fwPending ∧ quiet.inq.length < quiet.cfg.fifoDepth ∧
    (List.replicate 7 1#32).length < quiet.cfg.fifoDepth ∧ 3#32 ∉ quiet.fwPending ∧
    quiet.cfg.fifoDepth ≤ { quiet with inq := fullQ }.inq.length := by decide +kernel

theorem witness_ForeignWordsAreNeverTheSubmissionWord :
    quiet.inq.length < quiet.cfg.fifoDepth ∧ 0x00012341#32 ≠ quiet.cfg.bufAddr ||| 8#32 ∧
    quiet.cfg.fifoDepth ≤ { quiet with inq := fullQ }.inq.length ∧ 0x00012348#32 = quiet.cfg.bufAddr ||| 8#32 := by
  decide +kernel

theorem witness_QueueMisuseFaults :
    quiet.baseValid = true ∧ quiet.busy = false ∧ { quiet with outq := fullQ }.outq.length = quiet.cfg.fifoDepth ∧
    (0x3F00B8A0#32).toNat = quiet.cfg.mmioBase.toNat + 0xb880 + 0x20 ∧ (0x3F00B8A0#32).toNat % 4 = 0 ∧
    { calling .submitWrite 0#32 with outq := fullQ }.phase = .submitWrite ∧ quiet.inq = [] ∧
    (0x3F00B880#32).toNat = quiet.cfg.mmioBase.toNat + 0xb880 ∧ (0x3F00B880#32).toNat % 4 = 0 ∧
    (calling .corrRead 0#32).inq = [] ∧ (calling .corrRead 0#32).phase = .corrRead := by decide +kernel

/-- k = 2 is the last lock, k = 3 the first that does not exist. -/
theorem witness_TryAcquireSucceedsIffUnlocked :
    held.busy = false ∧ held.locks[(2#8).toNat]? = some ⟨.unlocked, false, false, .host⟩ ∧
    held.locks[(0#8).toNat]? = some ⟨.locked, true, true, .host⟩ ∧ held.locks.length ≤ (3#8).toNat := by decide +kernel

theorem witness_ReleaseRestoresTheInterruptEnable :
    held.busy = false ∧ held.locks[(0#8).toNat]? = some ⟨.locked, true, true, held.running⟩ ∧
    held.locks[(2#8).toNat]? = some ⟨.unlocked, false, false, .host⟩ ∧
    { held with running := .irq }.locks[(0#8).toNat]? = some ⟨.locked, true, true, .host⟩ ∧
    Agent.host ≠ { held with running := .irq }.running := by decide +kernel

theorem witness_ReleaseUndoesAcquireAfterAnyFailures :
    ∃ t u, exec (.tryAcquire 0#8) quiet = .next t ∧ t.result.kind = .ok ∧ tryAgain 0#8 5 t = .next u :=
  ⟨held, { held with result := ⟨.lockContention, 0#32⟩ }, rfl, rfl, rfl⟩

/-- For every command of the second clause, the guard held in a PHASE outside CALL that does not admit it; of the third, the
guard re-taken in a PHASE that admits it. -/
theorem witness_EngineCommandsNeedGuardAndPhase :
    (quiet.busy = false ∧ quiet.holdsGuard 0 = false ∧ held.busy = false ∧ held.holdsGuard 0 = true ∧
      ∀ c ∈ phasedCommands [] 2#8 0#8, held.phase ∉ c.2) ∧
    (∀ p ∈ [Phase.build, .doneOk, .doneErr], ends (retaken (withBuffer p [8#32])) fun u =>
      u.busy = false ∧ u.holdsGuard 0 = true ∧ u.unbroken = false ∧ u.phase = p) ∧
    (∀ c ∈ phasedCommands [] 2#8 0#8, ∃ p ∈ [Phase.build, .doneOk, .doneErr], p ∈ c.2) ∧
    (∃ r u, exec (.release 0#8) fresh = .next r ∧ exec (.tryAcquire 0#8) r = .next u) ∧
    (calling .build 0#32).busy = false ∧ (calling .build 0#32).Inv ∧ (calling .build 0#32).unbroken = true :=
  ⟨by decide +kernel, by decide +kernel, by decide +kernel, ⟨_, _, rfl, rfl⟩, rfl, inv_of (by decide +kernel) nofun, rfl⟩

/-- Each kind at a state where its command ends with it. -/
theorem witness_ResultKindsAreReported :
    (bounded 1 (calling .submitPoll 0#32)).budgetSpent ∧ (bounded 1 (calling .corrPoll 0#32)).budgetSpent ∧
    (bounded 1 (calling .corrRead 0#32)).budgetSpent ∧
    (answered 0#32 5#32 6#32).inRequest [.build, .doneOk, .doneErr] ∧ (answered 0#32 5#32 6#32).buf 35 = some 0#32 ∧
    ([0#32, 0x80000000#32, 0x80000001#32, 5#32].all fun c =>
      { calling .corrRead c with inq := [0x00012348#32] }.atStep .corrRead ∧
      { calling .corrRead c with inq := [0x00012348#32] }.inq = (calling .corrRead c).sub :: [] ∧
      (calling .corrRead c).buf 1 = some c) ∧
    held.busy = false ∧ (0#32).toNat < 256 ∧ held.locks[(0#32).toNat]? = some ⟨.locked, true, true, .host⟩ ∧
    fresh.inRequest [.build] ∧ findEnd fresh = .found 2 ∧ findEnd noTerminator = .noTerminator ∧
    (withBuffer .build [20#32, 0#32, 1#32, 0xFFFFFFFF#32]).inRequest [.build] ∧
    (answered 0#32 5#32 6#32).inRequest [.doneOk, .doneErr] ∧ (answered 0#32 5#32 6#32).buf (2 + 2) = some 0#32 ∧
    (answered 0#32 5#32 6#32).buf (33 + 2) = some 0#32 ∧ (0#32).getLsbD 31 = false ∧
    (calling .corrPoll 0#32).cfg.pollLimit = none ∧ State.reset.baseValid = false ∧ State.reset.startup = none ∧
    quiet.baseValid = true :=
  ⟨spent_budgets.1 _, spent_budgets.1 _, spent_budgets.1 _, by decide +kernel⟩

theorem witness_UnresolvedBaseIsFatal :
    State.reset.baseValid = false ∧ State.reset.busy = false ∧
    { calling .submitPoll 0#32 with baseValid := false }.phase = .submitPoll := by decide +kernel

theorem witness_HostAndIrqWaitForTheEngine :
    (calling .submitPoll 0#32).busy = true ∧ hostIssued .call = true ∧
    inputWaits (.words .command [0x00000083#32]) = true ∧ (calling .submitPoll 0#32).cfg.Valid := by decide +kernel

theorem witness_HandlersMaskInterrupts :
    quiet.busy = false ∧ quiet.running = .host ∧ quiet.ie = true ∧ quiet.anyGuardLive = false ∧ held.ie = false ∧
    { held with ie := true }.anyGuardLive = true ∧ { held with ie := true }.running = .host ∧
    { quiet with running := .irq, ie := false }.busy = false ∧
    { quiet with running := .irq, ie := false }.running = .irq := by decide +kernel

theorem witness_WhoWritesWhat :
    (∃ t, exec .newBuffer held = .next t ∧ t.mem ≠ held.mem) ∧
    (∃ t, exec (.tryAcquire 0#8) quiet = .next t ∧ t.locks ≠ quiet.locks ∧ t.ie ≠ quiet.ie) ∧
    ∃ t, exec (.kindUnsupportedBoard 0#32) State.reset = .next t ∧ t.startup ≠ State.reset.startup :=
  ⟨(next_of_ends (p := fun t => t.mem ≠ held.mem) (by decide +kernel)).imp fun _ h => ⟨h.1, of_decide_eq_true h.2⟩,
    ⟨held, rfl, by decide +kernel⟩, ⟨_, rfl, nofun⟩⟩

theorem witness_CommandStreamRoundTrip :
    (Instr.writeTag (List.replicate 255 0#32)).wf = true ∧
    encodePort (.writeTag (List.replicate 255 0#32)) = .command := by decide +kernel

/-- Program P1. -/
theorem witness_ProgramRoundTrip :
    ∀ i ∈ [Instr.tryAcquire 0#8, .newBuffer, .writeTag [1#32, 4#32, 0#32, 0#32, 0#32], .call, .tagCheck 2#8,
        .readWord 5#8, .discard, .release 0#8], i.wf = true ∧ encodePort i = .command := by decide +kernel

theorem witness_CommandWordsAreUnique :
    reads .command [0x00000102#32, 5#32, 6#32] (.writeTag [5#32], [6#32]) ∧
    reads .command [0x00FF0007#32] (.reservedOp7 0x00FF0007#32, []) := by decide +kernel

theorem witness_StepRunsTheDecodedInstruction :
    quiet.cfg.Valid ∧ quiet.busy = false ∧
    { quiet with agenda := [.words .command [8#32, 9#32], .engine] }.agenda
      = .words .command [8#32, 9#32] :: [.engine] ∧
    reads .command [8#32, 9#32] (.tryAcquire 0#8, [9#32]) ∧ reads .command [9#32] (.release 0#8, []) ∧
    portWaits .fwPop = false ∧ reads .fwPop [] (.fwPop, []) := by decide +kernel

theorem witness_EngineMovesByItsPhase :
    (calling .corrPoll 0#32).cfg.Valid ∧ (calling .corrPoll 0#32).agenda = [] ∧
    (calling .corrPoll 0#32).phase = .corrPoll ∧ quiet.agenda = [] ∧ quiet.busy = false := by decide +kernel

theorem witness_BaseIsResolvedOnce :
    { State.reset with agenda := [.resolveBase] }.cfg.Valid ∧
    { State.reset with agenda := [.resolveBase] }.agenda = .resolveBase :: [] ∧ State.reset.baseValid = false ∧
    State.reset.startup = none ∧ quiet.baseValid = true ∧
    { State.reset with startup := some .unsupportedBoard }.startup ≠ none := by decide +kernel

theorem witness_EveryStepKeepsTheInvariant :
    (bounded 1 (calling .submitPoll 0#32)).Inv ∧
    ∃ t, step (bounded 1 (calling .submitPoll 0#32)) = .next t ∧ t.phase = .submitWrite :=
  ⟨inv_calling, (next_of_ends (p := fun t => t.phase = .submitWrite) (by decide +kernel)).imp fun _ h =>
    ⟨h.1, of_decide_eq_true h.2⟩⟩

theorem witness_ResetState :
    Params.reference.Valid ∧ { Params.reference with pollLimit := some 1, fifoDepth := 1, lockCount := 1 }.Valid := by
  decide +kernel

theorem witness_BufferWordsAreLittleEndian :
    fresh.buf 0 = some 8#32 ∧ fresh.buf 35 = some 0#32 ∧ fresh.mem.readByte 0x12340 = some 8#8 ∧
    fresh.mem.readByte 0x12341 = some 0#8 := by decide +kernel

end Sys2Proof.Tests
end

section
/-! PROOF. A step on words of a port: the instruction they decode to, with what the stream still holds kept first. -/

namespace Sys2Proof.Machine

/-- Words that decode are performed as the instruction they hold, on the state after the fetch. -/
theorem perform_words_of_decode {p : Port} {ws left : List Word} {i : Instr} (hd : decode p ws = .ok (i, left))
    (s : State) : perform (.words p ws) s = exec i (afterFetch p left s) := by
  simp only [perform, hd]

/-- A fetch changes the agenda alone: what the stream still holds goes before the rest, and an emptied stream is gone. -/
theorem afterFetch_setAgenda (p : Port) (left : List Word) (s : State) (tail : List Input) :
    afterFetch p left (s.setAgenda tail) = s.setAgenda (if left = [] then tail else .words p left :: tail) := by
  unfold afterFetch
  split
  · rfl
  · rfl

/-- Settles O55: the step takes the input (`step_input`), performs the decoded instruction, and the fetch before it sets
the agenda alone. -/
theorem stepRunsTheDecodedInstruction : Obligations.StepRunsTheDecodedInstruction := by
  intro s p ws left tail i hv ha hw hd
  calc step s = perform (.words p ws) (s.setAgenda tail) := step_input hv ha hw
    _ = exec i (afterFetch p left (s.setAgenda tail)) := perform_words_of_decode hd _
    _ = exec i (s.setAgenda (if left = [] then tail else .words p left :: tail)) :=
        congrArg (exec i) (afterFetch_setAgenda p left s tail)

end Sys2Proof.Machine
end

section
/-! PROOF. The invariant of Safety.lean under the field updates: which of its parts each update touches, and what keeps
them. -/

namespace Sys2Proof.Machine

/-! ### Updates no part of the invariant, or one, speaks of -/

theorem State.Inv.setResp {s : State} (h : s.Inv) (w : Word) : (s.setResp w).Inv := { h with }

theorem State.Inv.setResult {s : State} (h : s.Inv) (r : Result) : (s.setResult r).Inv := { h with }

theorem State.Inv.setValue64 {s : State} (h : s.Inv) (v : BitVec 64) : (s.setValue64 v).Inv := { h with }

theorem State.Inv.setIe {s : State} (h : s.Inv) (b : Bool) : (s.setIe b).Inv := { h with }

theorem State.Inv.setReadData {s : State} (h : s.Inv) (w : Word) : (s.setReadData w).Inv := { h with }

theorem State.Inv.setDraws {s : State} (h : s.Inv) (n : Nat) : (s.setDraws n).Inv := { h with }

theorem State.Inv.setAgenda {s : State} (h : s.Inv) (a : List Input) : (s.setAgenda a).Inv := { h with }

theorem State.Inv.setOutq {s : State} (h : s.Inv) {q : List Word} (hq : q.length ≤ s.cfg.fifoDepth) :
    (s.setOutq q).Inv := { h with outqBound := hq }

theorem State.Inv.setInq {s : State} (h : s.Inv) {q : List Word} (hq : q.length ≤ s.cfg.fifoDepth) :
    (s.setInq q).Inv := { h with inqBound := hq }

theorem State.Inv.setFwPending {s : State} (h : s.Inv) {l : List Word}
    (hl : l.Pairwise fun a b => a.toNat ≤ b.toNat) : (s.setFwPending l).Inv := { h with pendingSorted := hl }

/-- A word more in OUTQ, which is not full. -/
theorem State.Inv.appendOutq {s : State} (h : s.Inv) (hroom : s.outq.length ≠ s.cfg.fifoDepth) (w : Word) :
    (s.setOutq (s.outq ++ [w])).Inv := by
  have hle := h.outqBound
  exact h.setOutq (by rw [List.length_append, List.length_singleton]; omega)

/-- A word more in INQ, which is not full. -/
theorem State.Inv.appendInq {s : State} (h : s.Inv) (hroom : s.inq.length < s.cfg.fifoDepth) (w : Word) :
    (s.setInq (s.inq ++ [w])).Inv := h.setInq (by rwa [List.length_append, List.length_singleton])

/-- What is left of INQ when its head is taken. -/
theorem State.Inv.tailInq {s : State} (h : s.Inv) {w : Word} {q : List Word} (hq : s.inq = w :: q) :
    (s.setInq q).Inv := by
  have hle := h.inqBound
  rw [hq, List.length_cons] at hle
  exact h.setInq (Nat.le_of_succ_le hle)

/-- What is left of OUTQ when its head is taken. -/
theorem State.Inv.tailOutq {s : State} (h : s.Inv) {w : Word} {q : List Word} (hq : s.outq = w :: q) :
    (s.setOutq q).Inv := by
  have hle := h.outqBound
  rw [hq, List.length_cons] at hle
  exact h.setOutq (Nat.le_of_succ_le hle)

theorem State.Inv.latchSub {s : State} (h : s.Inv) : (s.setSub (submissionWord s.cfg.bufAddr)).Inv :=
  { h with subLatched := fun _ => rfl }

/-- The base is resolved only where the detection has not failed (70_reset_and_hazards R303). -/
theorem State.Inv.resolveBase {s : State} (h : s.Inv) (hs : s.startup = none) : (s.setBaseValid true).Inv :=
  { h with startupFatal := fun _ hk => absurd (hs.symm.trans hk) nofun }

/-- The detection fails only while the base is unresolved (60_exceptions R270). -/
theorem State.Inv.failStartup {s : State} (h : s.Inv) (hb : s.baseValid = false) {k : Kind}
    (hk : k = .unsupportedBoard ∨ k = .unsupportedCpuModel) : (s.setStartup (some k)).Inv :=
  { h with startupFatal := fun _ e => ⟨hb, Option.some.inj e ▸ hk⟩ }

/-! ### Buffer writes -/

/-- A write of buffer words leaves no word without a value. -/
theorem State.isSome_buf_writeBuf {s : State} (i : Nat) (ws : List Word) {j : Nat} (h : (s.buf j).isSome = true) :
    ((s.writeBuf i ws).buf j).isSome = true := by
  by_cases hj : j < i ∨ i + ws.length ≤ j
  · rwa [State.buf_writeBuf_other s ws hj]
  · obtain ⟨k, rfl⟩ : ∃ k, j = i + k := ⟨j - i, by omega⟩
    rw [State.buf_writeBuf_at s i ws (j := k) (by omega)]
    rfl

theorem State.Inv.writeBuf {s : State} (h : s.Inv) (i : Nat) (ws : List Word) : (s.writeBuf i ws).Inv :=
  { h with
    memWf := Memory.writeWords_wf _ _ h.memWf
    bufPresent := fun j hj => State.isSome_buf_writeBuf i ws (h.bufPresent j hj) }

/-! ### Locks, and who runs -/

/-- A lock cell is replaced, between commands, by a coherent one; the cover of the request lasts only if lock 0's guard
stays live. -/
theorem State.Inv.setLock {s : State} (h : s.Inv) (idle : s.busy = false) {k : Nat} {l : LockCell}
    (hl : l.live = true ↔ l.flag = .locked) {b : Bool}
    (hb : b = true → s.unbroken = true ∧ (k = 0 → l.live = true)) :
    ((s.setLocks (s.locks.set k l)).setUnbroken b).Inv :=
  { h with
    lockCount := List.length_set.trans h.lockCount
    lockCoherent := fun c hc => (List.mem_or_eq_of_mem_set hc).elim (h.lockCoherent c) fun e => e ▸ hl
    busyGuard := fun busy => absurd (idle.symm.trans busy) nofun
    unbrokenLive := fun e => by
      obtain ⟨hu, hlive⟩ := hb e
      obtain ⟨l₀, h₀, live₀⟩ := h.unbrokenLive hu
      show ∃ c, (s.locks.set k l)[0]? = some c ∧ c.live = true
      by_cases hk : k = 0
      · subst hk
        exact ⟨l, List.getElem?_set_self (List.getElem?_eq_some_iff.mp h₀).1, hlive rfl⟩
      · exact ⟨l₀, (List.getElem?_set_ne hk).trans h₀, live₀⟩ }

/-- The code path changes between commands only. -/
theorem State.Inv.setRunning {s : State} (h : s.Inv) (idle : s.busy = false) (a : Agent) : (s.setRunning a).Inv :=
  { h with busyGuard := fun busy => absurd (idle.symm.trans busy) nofun }

/-! ### PHASE and the recipe -/

/-- POLL_LIMIT is not 0 (00_scope R12). -/
theorem pollLimit_pos {c : Params} (hv : c.Valid) {n : Nat} (hn : c.pollLimit = some n) : 0 < n := by
  obtain ⟨-, -, -, -, -, -, hne, -⟩ := hv
  exact Nat.pos_of_ne_zero fun e => hne (e ▸ hn)

/-- A request begins, between commands, under the guard its issuer holds (44_lock R249). -/
theorem State.Inv.beginRequest {s : State} (h : s.Inv) (idle : s.busy = false) (guard : s.holdsGuard 0 = true) :
    ((s.setPhase .build).setUnbroken true).Inv :=
  have noRecipe : s.recipe = none := (State.busy_eq_false idle).2
  { h with
    subLatched := nofun
    pollsBelow := nofun
    busyGuard := fun _ => State.holdsRequest_iff.mpr ⟨guard, rfl⟩
    unbrokenLive := fun _ => by
      obtain ⟨l, hl, live, -⟩ := State.holdsGuard_iff.mp guard
      exact ⟨l, hl, live⟩
    recipePhase := fun _ hr => absurd (noRecipe.symm.trans hr) nofun }

/-- A recipe takes a stage that fits PHASE, under the guard that covers the request. -/
theorem State.Inv.setRecipe {s : State} (h : s.Inv) (guard : s.holdsRequest = true) {r : RecipeRun}
    (fit : r.stage.fits s.phase = true) : (s.setRecipe (some r)).Inv :=
  { h with
    busyGuard := fun _ => guard
    recipePhase := fun _ hr => Option.some.inj hr ▸ fit }

/-- A request ends, and the recipe that made it with it. -/
theorem State.Inv.endRequest {s : State} (h : s.Inv) : ((s.setRecipe none).setPhase .none).Inv :=
  { h with
    subLatched := nofun
    pollsBelow := nofun
    busyGuard := nofun
    recipePhase := nofun }

/-- CALL is accepted under the guard that covers the request; a recipe that issued it waits at its check of the tag. -/
theorem State.Inv.acceptCall {s : State} (h : s.Inv) (hv : s.cfg.Valid) (guard : s.holdsRequest = true)
    {ro : Option RecipeRun} (hro : ∀ r, ro = some r → r.stage = .checkTag) : ((acceptCall s).setRecipe ro).Inv :=
  { h with
    subLatched := nofun
    pollsBelow := fun n hn _ => pollLimit_pos hv hn
    busyGuard := fun _ => guard
    recipePhase := fun r hr => by rw [hro r hr]; rfl }

end Sys2Proof.Machine
end

section
/-! PROOF. The invariant is kept by every command, every instruction, the ENGINE's own step, and every step. -/

namespace Sys2Proof.Machine

/-! ### The phase-steps of CALL -/

/-- A recipe that waits inside CALL fits every PHASE CALL moves to. -/
theorem RecipeStage.fits_of_inCall {st : RecipeStage} {p q : Phase} (h : st.fits p = true) (hp : p.inCall = true)
    (hq : q.inCall = true ∨ q = .doneOk ∨ q = .doneErr) : st.fits q = true := by
  have waits : st = .checkTag := by
    cases st with
    | checkTag => rfl
    | _ => cases p <;> simp [fits, Phase.inCall] at h hp
  rw [waits]
  rcases hq with hq | rfl | rfl
  · simp [fits, hq]
  · rfl
  · rfl

/-- CALL moves on to PHASE p with k polls counted: SUB must be latched where it is compared, and k below the limit where
CALL goes on. -/
theorem State.Inv.moveInCall {s : State} (h : s.Inv) (inCall : s.phase.inCall = true) {p : Phase} {k : Nat}
    (hp : p.inCall = true ∨ p = .doneOk ∨ p = .doneErr)
    (hsub : p = .corrPoll ∨ p = .corrRead ∨ p = .doneOk → s.sub = submissionWord s.cfg.bufAddr)
    (hk : p.inCall = true → ∀ n, s.cfg.pollLimit = some n → k < n) : ((s.setPolls k).setPhase p).Inv :=
  have guard : s.holdsRequest = true := h.busyGuard (by rw [State.busy, inCall, Bool.true_or])
  { h with
    subLatched := hsub
    pollsBelow := fun n hn hc => hk hc n hn
    busyGuard := fun _ => guard
    recipePhase := fun r hr => RecipeStage.fits_of_inCall (h.recipePhase r hr) inCall hp }

/-- The same with the count left alone. -/
theorem State.Inv.setPhaseInCall {s : State} (h : s.Inv) (inCall : s.phase.inCall = true) {p : Phase}
    (hp : p.inCall = true ∨ p = .doneOk ∨ p = .doneErr)
    (hsub : p = .corrPoll ∨ p = .corrRead ∨ p = .doneOk → s.sub = submissionWord s.cfg.bufAddr) :
    (s.setPhase p).Inv :=
  h.moveInCall (k := s.polls) inCall hp hsub fun _ n hn => h.pollsBelow n hn inCall

/-- A failed poll keeps the invariant: the count stays below the limit, or CALL ends. -/
theorem State.Inv.pollFailed {s : State} (h : s.Inv) (inCall : s.phase.inCall = true) {p : Phase}
    (hp : p.inCall = true)
    (hsub : p = .corrPoll ∨ p = .corrRead ∨ p = .doneOk → s.sub = submissionWord s.cfg.bufAddr) :
    (pollFailed p s).Inv := by
  rcases pollFailed_cases p s with ⟨-, e⟩ | ⟨n, hn, hlt, e⟩ | ⟨n, info, -, -, e⟩
  · exact e ▸ h.setPhaseInCall inCall (.inl hp) hsub
  · exact e ▸ h.moveInCall inCall (.inl hp) hsub fun _ m hm => Option.some.inj (hn.symm.trans hm) ▸ hlt
  · exact e ▸ (h.moveInCall inCall (.inr (.inr rfl)) nofun nofun).setResult ⟨.timeout, info⟩

theorem submitPollStep_keeps_inv {s t : State} (h : s.Inv) (run : submitPollStep s = .next t) : t.Inv := by
  obtain ⟨hp, -, rfl⟩ := submitPollStep_next.mp run
  have inCall : s.statusDrawn.phase.inCall = true := congrArg Phase.inCall hp
  have drawn : s.statusDrawn.Inv := h.setDraws _
  split
  · exact drawn.pollFailed inCall rfl nofun
  · exact drawn.setPhaseInCall inCall (.inl rfl) nofun

theorem submitWriteStep_keeps_inv {s t : State} (h : s.Inv) (hv : s.cfg.Valid) (run : submitWriteStep s = .next t) :
    t.Inv := by
  obtain ⟨hp, -, room, rfl⟩ := submitWriteStep_next.mp run
  have inCall : s.phase.inCall = true := congrArg Phase.inCall hp
  exact (h.latchSub.appendOutq room _).moveInCall inCall (.inl rfl) (fun _ => rfl) fun _ n hn => pollLimit_pos hv hn

theorem corrPollStep_keeps_inv {s t : State} (h : s.Inv) (run : corrPollStep s = .next t) : t.Inv := by
  obtain ⟨hp, -, rfl⟩ := corrPollStep_next.mp run
  have inCall : s.statusDrawn.phase.inCall = true := congrArg Phase.inCall hp
  have latched : s.sub = submissionWord s.cfg.bufAddr := h.subLatched (.inl hp)
  have drawn : s.statusDrawn.Inv := h.setDraws _
  split
  · exact drawn.pollFailed inCall rfl fun _ => latched
  · exact drawn.setPhaseInCall inCall (.inl rfl) fun _ => latched

/-- Classification ends CALL, with SUB latched if it succeeds. -/
theorem classify_keeps_inv {s t : State} (h : s.Inv) (hp : s.phase = .corrRead) (run : classify s = .next t) :
    t.Inv := by
  obtain ⟨c, -, rfl⟩ := classify_next.mp run
  have inCall : s.phase.inCall = true := congrArg Phase.inCall hp
  refine (h.setPhaseInCall inCall (.inr ?_) fun _ => h.subLatched (.inr (.inl hp))).setResult _
  split
  · exact .inl rfl
  · exact .inr rfl

theorem corrReadStep_keeps_inv {s t : State} (h : s.Inv) (run : corrReadStep s = .next t) : t.Inv := by
  obtain ⟨hp, -, w, q, hq, hrun⟩ := corrReadStep_next.mp run
  have taken : ((s.setInq q).setResp w).Inv := (h.tailInq hq).setResp w
  rcases hrun with ⟨-, hc⟩ | ⟨-, rfl⟩
  · exact classify_keeps_inv taken hp hc
  · exact taken.pollFailed (congrArg Phase.inCall hp) rfl fun _ => taken.subLatched (.inr (.inl hp))

/-! ### The commands -/

theorem newBuffer_keeps_inv {s : State} (h : s.Inv) (idle : s.busy = false) (guard : s.holdsGuard 0 = true) :
    (newBuffer s).Inv :=
  (((h.writeBuf _ _).writeBuf _ _).beginRequest idle guard).setResult _

theorem copyTag_keeps_inv {s : State} (h : s.Inv) (p : Nat) (ws : List Word) (size : Word) :
    (copyTag s p ws size).Inv :=
  ((h.writeBuf p ws).writeBuf 0 _).setResult _

theorem writeTag_keeps_inv {ws : List Word} {s t : State} (h : s.Inv) (run : writeTag ws s = .next t) : t.Inv := by
  rcases writeTag_next run with ⟨info, rfl⟩ | ⟨p, size, -, -, -, rfl⟩
  · exact h.setResult _
  · exact copyTag_keeps_inv h p ws size

/-- WRITE_TAG writes memory and RESULT, and no other field. -/
theorem writeTag_frame {ws : List Word} {s t : State} (run : writeTag ws s = .next t) :
    t = (s.setMem t.mem).setResult t.result := by
  rcases writeTag_next run with ⟨info, rfl⟩ | ⟨p, size, -, -, -, rfl⟩
  · rfl
  · rfl

/-- A lock taken is live and Locked (44_lock R241). -/
theorem acquire_keeps_inv {s : State} (h : s.Inv) (idle : s.busy = false) (k : Nat) : (acquire k s).Inv :=
  ((h.setLock (k := k) (l := ⟨.locked, true, s.ie, s.running⟩) (b := s.unbroken) idle (iff_of_true rfl rfl)
    fun hu => ⟨hu, fun _ => rfl⟩).setIe false).setResult _

/-- A lock given back is neither live nor Locked, and the cover ends with lock 0's guard (44_lock R242, R249). -/
theorem giveBack_keeps_inv {s : State} (h : s.Inv) (idle : s.busy = false) (k : Nat) (l : LockCell) :
    (giveBack k l s).Inv := by
  have coherent : (false = true) ↔ LockFlag.unlocked = .locked := iff_of_false nofun nofun
  have covered (hu : (s.unbroken && decide (k ≠ 0)) = true) : s.unbroken = true ∧ (k = 0 → false = true) := by
    obtain ⟨hb, hk⟩ := Bool.and_eq_true_iff.mp hu
    exact ⟨hb, fun e => absurd e (of_decide_eq_true hk)⟩
  exact ((h.setLock (k := k) (l := { l with flag := .unlocked, live := false }) idle coherent covered).setIe
    l.savedIe).setResult ⟨.ok, 0#32⟩

/-! ### Every instruction -/

theorem exec_keeps_inv {i : Instr} {s t : State} (h : s.Inv) (hv : s.cfg.Valid) (run : exec i s = .next t) : t.Inv := by
  cases exec_next run with
  | newBuffer idle guard _ => exact newBuffer_keeps_inv h idle guard
  | recipe k _ idle guard _ =>
    exact (newBuffer_keeps_inv h idle guard).setRecipe ((newBuffer_holdsRequest s).trans guard)
      (by rw [newBuffer_phase]; rfl)
  | writeTag _ _ _ _ _ run => exact writeTag_keeps_inv h run
  | call idle guard _ =>
    have noRecipe : s.recipe = none := (State.busy_eq_false idle).2
    exact h.acceptCall (ro := s.recipe) hv guard fun r hr => absurd (noRecipe.symm.trans hr) nofun
  | result r _ => exact h.setResult r
  | discard idle _ _ =>
    have noRecipe : s.setRecipe none = s := (State.busy_eq_false idle).2 ▸ rfl
    have ended := h.endRequest
    rw [noRecipe] at ended
    exact ended.setResult _
  | acquire k _ idle _ _ => exact acquire_keeps_inv h idle k.toNat
  | release k l idle _ _ _ => exact giveBack_keeps_inv h idle k.toNat l
  | submitPoll _ run => exact submitPollStep_keeps_inv h run
  | submitWrite _ run => exact submitWriteStep_keeps_inv h hv run
  | corrPoll _ run => exact corrPollStep_keeps_inv h run
  | corrRead _ run => exact corrReadStep_keeps_inv h run
  | startupFails k hi unresolved _ =>
    obtain ⟨_, kind⟩ := hi
    exact h.failStartup unresolved (kind.imp And.right And.right)
  | raReadWord _ _ _ _ head => exact (h.tailInq head).setResult _
  | raReadStatus => exact (h.setDraws _).setResult _
  | raWrite _ v _ room => exact h.appendOutq room v
  | readWord w _ head => exact (h.tailInq head).setReadData w
  | readStatus => exact (h.setDraws _).setReadData _
  | writeReg v room => exact h.appendOutq room v
  | fwPop w _ head => exact (h.tailOutq head).setFwPending (insertWord_sorted w h.pendingSorted)
  | fwProcess _ f _ _ _ => exact h.writeBuf 0 f
  | fwPush w _ room =>
    exact (h.setFwPending (h.pendingSorted.sublist (removeWord_sublist w s.fwPending))).appendInq room w
  | foreignPush x room _ => exact h.appendInq room x

/-! ### The ENGINE's own step -/

/-- A command of the expansion has ended, and the recipe goes on to a stage that fits PHASE, or to the clean-up. -/
theorem advanceRecipe_keeps_inv {t : State} (h : t.Inv) (guard : t.holdsRequest = true) (r : RecipeRun)
    {next : RecipeStage} (fit : next.fits t.phase = true)
    (cleanupFit : (RecipeStage.cleanup t.result).fits t.phase = true) : (advanceRecipe r next t).Inv := by
  refine h.setRecipe guard ?_
  show (if t.result.kind = .ok then next else .cleanup t.result).fits t.phase = true
  split
  · exact fit
  · exact cleanupFit

theorem finishRecipe_keeps_inv {s : State} (h : s.Inv) (r : RecipeRun) (v : Result) :
    (finishRecipe r ((s.setPhase .none).setResult v)).Inv := by
  unfold finishRecipe
  split
  · exact h.endRequest.setResult _
  · exact (h.endRequest.setValue64 _).setResult _

theorem abandonRecipe_keeps_inv {res : Result} {s t : State} (h : s.Inv) (run : abandonRecipe res s = .next t) :
    t.Inv := by
  obtain ⟨-, -, rfl⟩ := abandonRecipe_next.mp run
  exact h.endRequest.setResult res

/-- A READ_WORD of a recipe, which then stands at a stage of the same PHASE. -/
theorem recipeRead_keeps_inv {n : Nat} {next : Word → RecipeRun} {s t : State} (h : s.Inv)
    (fit : ∀ w, (next w).stage.fits s.phase = true)
    (run : andThen (cmdReadWord n s) (fun u => .next (u.setRecipe (some (next u.result.info)))) = .next t) : t.Inv := by
  obtain ⟨u, hu, ht⟩ := andThen_next.mp run
  obtain ⟨guard, -, hu⟩ := cmdReadWord_next.mp hu
  obtain ⟨-, w, -, rfl⟩ := readBufferWord_next.mp hu
  rw [next_eq_next.mp ht]
  exact (h.setResult ⟨.ok, w⟩).setRecipe guard (fit w)

/-- At every stage of a recipe its command keeps the invariant, and the next stage fits the PHASE the command is
admitted in or moves to. -/
theorem recipeStep_keeps_inv {r : RecipeRun} {s t : State} (h : s.Inv) (hv : s.cfg.Valid) (hr : s.recipe = some r)
    (run : recipeStep r s = .next t) : t.Inv := by
  have fits : r.stage.fits s.phase = true := h.recipePhase r hr
  obtain ⟨kind, stage, low, high⟩ := r
  cases stage with
  | writeTag =>
    obtain ⟨u, hu, ht⟩ := andThen_next.mp run
    obtain ⟨guard, hp, hu⟩ := cmdWriteTag_next.mp hu
    have inv : u.Inv := writeTag_keeps_inv h hu
    rw [writeTag_frame hu] at inv ht
    rw [next_eq_next.mp ht]
    exact advanceRecipe_keeps_inv inv guard _ (congrArg (RecipeStage.fits .call) hp)
      (congrArg (RecipeStage.fits (.cleanup _)) hp)
  | call =>
    obtain ⟨u, hu, ht⟩ := andThen_next.mp run
    obtain ⟨guard, -, rfl⟩ := cmdCall_next.mp hu
    rw [next_eq_next.mp ht]
    exact h.acceptCall hv guard fun _ e => Option.some.inj e ▸ rfl
  | checkTag =>
    simp only [recipeStep] at run
    split at run
    · exact abandonRecipe_keeps_inv h run
    · next notErr =>
      obtain ⟨u, hu, ht⟩ := andThen_next.mp run
      obtain ⟨guard, hp, hu⟩ := cmdTagCheck_next.mp hu
      obtain ⟨-, c, -, rfl⟩ := tagVerdict_next.mp hu
      have hp : s.phase = .doneOk := by simpa [notErr] using hp
      rw [next_eq_next.mp ht]
      exact advanceRecipe_keeps_inv (h.setResult ⟨_, c⟩) guard _ (congrArg (RecipeStage.fits .readLow) hp)
        (congrArg (RecipeStage.fits (.cleanup _)) hp)
  | readLow =>
    have fit : (afterReadLow kind).fits s.phase = true := by cases kind <;> exact fits
    exact recipeRead_keeps_inv (next := fun w => ⟨kind, afterReadLow kind, w, high⟩) h (fun _ => fit) run
  | readHigh =>
    exact recipeRead_keeps_inv (next := fun w => ⟨kind, .discard, low, w⟩) h (fun _ => fits) run
  | discard =>
    obtain ⟨u, hu, ht⟩ := andThen_next.mp run
    obtain ⟨-, -, rfl⟩ := cmdDiscard_next.mp hu
    rw [next_eq_next.mp ht]
    exact finishRecipe_keeps_inv h _ _
  | cleanup res => exact abandonRecipe_keeps_inv h run

theorem engineStep_keeps_inv {s t : State} (h : s.Inv) (hv : s.cfg.Valid) (run : engineStep s = .next t) : t.Inv := by
  rcases engineStep_next run with ⟨i, -, run⟩ | ⟨r, -, hr, run⟩ | ⟨-, rfl⟩
  · exact exec_keeps_inv h hv run
  · exact recipeStep_keeps_inv h hv hr run
  · exact h

/-! ### Every step -/

/-- Every input: an instruction, the ENGINE's step, and the steps of the world no row of the table names. -/
theorem perform_keeps_inv {x : Input} {s t : State} (h : s.Inv) (hv : s.cfg.Valid) (run : perform x s = .next t) :
    t.Inv := by
  obtain ⟨a, n, u, rfl, run⟩ := perform_next run
  have hu : ((s.setAgenda a).setDraws n).Inv := (h.setAgenda a).setDraws n
  rcases run with ⟨i, run⟩ | run | run | run | run | ⟨b, run⟩
  · exact exec_keeps_inv hu hv run
  · exact engineStep_keeps_inv hu hv run
  · obtain ⟨-, hs, rfl⟩ := resolveBase_next.mp run
    exact hu.resolveBase hs
  · obtain ⟨idle, -, rfl⟩ := irqEnter_next.mp run
    exact (hu.setRunning idle _).setIe _
  · obtain ⟨idle, -, rfl⟩ := irqExit_next.mp run
    exact (hu.setRunning idle _).setIe _
  · obtain ⟨-, -, -, rfl⟩ := hostSetIe_next.mp run
    exact hu.setIe b

/-- Settles O58: a step is the ENGINE's or one input's, and each keeps the invariant. -/
theorem everyStepKeepsTheInvariant : Obligations.EveryStepKeepsTheInvariant := by
  intro s t h run
  obtain ⟨hv, run⟩ := step_next run
  rcases run with run | ⟨x, rest, -, -, run⟩
  · exact engineStep_keeps_inv h hv run
  · exact perform_keeps_inv (h.setAgenda rest) hv run

end Sys2Proof.Machine
end

section
/-! PROOF. The status word, and the state after reset. -/

namespace Sys2Proof.Machine

/-! ### The status word (10_state R36) -/

@[simp] theorem StatusRead.word_full (r : StatusRead) : r.word.getLsbD 31 = r.full := by
  simp only [StatusRead.word, BitVec.getLsbD_append]
  simp

@[simp] theorem StatusRead.word_empty (r : StatusRead) : r.word.getLsbD 30 = r.empty := by
  simp only [StatusRead.word, BitVec.getLsbD_append]
  simp

@[simp] theorem StatusRead.word_low (r : StatusRead) : r.word.extractLsb' 0 30 = r.low := by
  apply BitVec.eq_of_getLsbD_eq
  intro i hi
  have hlt : i < 31 := by omega
  simp only [StatusRead.word, BitVec.getLsbD_extractLsb', BitVec.getLsbD_append]
  simp [hi, hlt]

/-- Settles O35: the three fields of the word are the status bits, and those are decided by the queues. -/
theorem statusBitsAreTheQueueLengths : Obligations.StatusBitsAreTheQueueLengths := by
  intro s
  rw [StatusRead.word_full, StatusRead.word_empty, StatusRead.word_low]
  exact ⟨outqFull_iff s, inqEmpty_iff s, rfl⟩

/-! ### Reset (10_state R42) -/

/-- After reset lock k is free, no guard is live, and SAVED_IE is the draw's. -/
theorem State.locks_resetWith (c : Params) (d : ResetDraw) {k : Nat} (hk : k < c.lockCount) :
    (State.resetWith c d).locks[k]? = some ⟨.unlocked, false, d.savedIe.getD k false, .host⟩ := by
  simp [State.resetWith, hk]

/-- Every configuration and every draw starts in the invariant. -/
theorem State.resetWith_inv (c : Params) (d : ResetDraw) : (State.resetWith c d).Inv where
  memWf := Memory.image_wf _ _
  outqBound := Nat.zero_le _
  inqBound := Nat.zero_le _
  lockCount := by simp [State.resetWith]
  lockCoherent := fun l hl => by
    obtain ⟨k, -, rfl⟩ := List.mem_map.mp hl
    exact iff_of_false nofun nofun
  pendingSorted := .nil
  bufPresent := fun i hi => by rw [State.buf_resetWith c d hi]; rfl
  subLatched := nofun
  pollsBelow := nofun
  busyGuard := nofun
  unbrokenLive := nofun
  recipePhase := nofun
  startupFatal := nofun

/-- Settles O59: the invariant by `State.resetWith_inv`, FULL by 1 ≤ FIFO_DEPTH, the rest by the definition of reset. -/
theorem resetState : Obligations.ResetState := by
  rintro c d s ⟨-, -, -, -, -, hdepth, -, -⟩ rfl
  have notFull : (State.resetWith c d).outqFull = false := decide_eq_false (Nat.ne_of_lt hdepth)
  exact ⟨State.resetWith_inv c d, rfl, rfl, rfl, rfl, rfl, rfl, rfl, (StatusRead.word_full _).trans notFull,
    StatusRead.word_empty _, fun i hi => State.buf_resetWith c d hi, rfl, rfl, rfl, rfl, rfl, rfl,
    StatusRead.word_low _, fun k hk => ⟨_, State.locks_resetWith c d hk, rfl, rfl, rfl⟩⟩

end Sys2Proof.Machine
end

section
/-! PROOF. Who writes what: every instruction's writes to the fields 10_state R30 and its neighbours reserve to a few. -/

namespace Sys2Proof.Machine

/-- s with every field of t but the restricted ones: memory, the locks and IE, the cover of the request, the failed
detection, BASE_VALID, the parameters, and the three registers no rule writes. -/
def State.unrestricted (s t : State) : State :=
  { s with
    phase := t.phase, sub := t.sub, resp := t.resp, result := t.result, value64 := t.value64, polls := t.polls,
    outq := t.outq, inq := t.inq, fwPending := t.fwPending, running := t.running, recipe := t.recipe,
    readData := t.readData, draws := t.draws, agenda := t.agenda }

/-- What an instruction writes of the restricted fields, and which it must be to do so. -/
inductive Writes (s : State) : Instr → State → Prop where
  | none {i : Instr} (u : State) : Writes s i (s.unrestricted u)
  | begin {i : Instr} (u : State) (m : Memory)
      (hi : i = .newBuffer ∨ i = .getFirmwareRevision ∨ i = .getBoardSerial) :
      Writes s i (((s.unrestricted u).setMem m).setUnbroken true)
  | mem {i : Instr} (u : State) (m : Memory)
      (hi : (∃ ws, i = .writeTag ws) ∨ encodePort i = .tagId ∨ encodePort i = .fwProcess) :
      Writes s i ((s.unrestricted u).setMem m)
  | acquire (k : BitVec 8) (u : State) (l : List LockCell) (b : Bool) :
      Writes s (.tryAcquire k) (((s.unrestricted u).setLocks l).setIe b)
  | release (k : BitVec 8) (u : State) (l : List LockCell) (b : Bool) :
      Writes s (.release k)
        ((((s.unrestricted u).setLocks l).setIe b).setUnbroken (s.unbroken && decide (k.toNat ≠ 0)))
  | startup {i : Instr} (u : State) (k : Kind)
      (hi : ∃ w, i = .kindUnsupportedBoard w ∨ i = .kindUnsupportedCpuModel w) :
      Writes s i ((s.unrestricted u).setStartup (some k))

/-- A state that differs in unrestricted fields only. -/
theorem Writes.of_eq {i : Instr} {s t : State} (h : t = s.unrestricted t) : Writes s i t := h ▸ .none t

/-- A failed poll writes POLLS, PHASE and RESULT. -/
theorem pollFailed_unrestricted (p : Phase) (s : State) : pollFailed p s = s.unrestricted (pollFailed p s) := by
  rcases pollFailed_cases p s with ⟨-, e⟩ | ⟨n, -, -, e⟩ | ⟨n, info, -, -, e⟩
  all_goals
    rw [e]
    rfl

theorem submitPollStep_unrestricted {s t : State} (run : submitPollStep s = .next t) : t = s.unrestricted t := by
  obtain ⟨-, -, rfl⟩ := submitPollStep_next.mp run
  split
  · exact pollFailed_unrestricted _ s.statusDrawn
  · rfl

theorem submitWriteStep_unrestricted {s t : State} (run : submitWriteStep s = .next t) : t = s.unrestricted t := by
  obtain ⟨-, -, -, rfl⟩ := submitWriteStep_next.mp run
  rfl

theorem corrPollStep_unrestricted {s t : State} (run : corrPollStep s = .next t) : t = s.unrestricted t := by
  obtain ⟨-, -, rfl⟩ := corrPollStep_next.mp run
  split
  · exact pollFailed_unrestricted _ s.statusDrawn
  · rfl

theorem corrReadStep_unrestricted {s t : State} (run : corrReadStep s = .next t) : t = s.unrestricted t := by
  obtain ⟨-, -, w, q, -, ⟨-, hc⟩ | ⟨-, rfl⟩⟩ := corrReadStep_next.mp run
  · obtain ⟨c, -, rfl⟩ := classify_next.mp hc
    rfl
  · exact pollFailed_unrestricted _ ((s.setInq q).setResp w)

/-- NEW_BUFFER writes memory and begins the cover; of the unrestricted fields it writes PHASE and RESULT. -/
theorem newBuffer_unrestricted (s : State) :
    ∃ m, newBuffer s = ((s.unrestricted ((s.setPhase .build).ret 0#32)).setMem m).setUnbroken true := by
  have fields (m : Memory) : { s with mem := m, phase := .build, unbroken := true, result := ⟨.ok, 0#32⟩ } =
      ((s.unrestricted ((s.setPhase .build).ret 0#32)).setMem m).setUnbroken true := rfl
  exact ⟨_, (newBuffer_eq s).trans (fields _)⟩

/-- Everything an instruction can do to the restricted fields. -/
theorem exec_writes {i : Instr} {s t : State} (run : exec i s = .next t) : Writes s i t := by
  cases exec_next run with
  | newBuffer =>
    obtain ⟨m, e⟩ := newBuffer_unrestricted s
    exact e ▸ .begin _ m (.inl rfl)
  | recipe k hi =>
    obtain ⟨m, e⟩ := newBuffer_unrestricted s
    exact e ▸ .begin (((s.setPhase .build).ret 0#32).setRecipe (some ⟨k, .writeTag, 0#32, 0#32⟩)) m (.inr hi)
  | writeTag ws hi _ _ _ run =>
    rw [writeTag_frame run]
    exact .mem (s.setResult t.result) t.mem (hi.imp (fun e => ⟨ws, e⟩) .inl)
  | acquire k =>
    exact .acquire k (s.ret (BitVec.ofNat 32 k.toNat)) (s.locks.set k.toNat ⟨.locked, true, s.ie, s.running⟩) false
  | release k l =>
    exact .release k (s.ret 0#32) (s.locks.set k.toNat { l with flag := .unlocked, live := false }) l.savedIe
  | fwProcess w f => exact .mem s (s.mem.writeWords (s.wordAddr 0) f) (.inr (.inr rfl))
  | startupFails k hi => exact .startup s k (hi.imp fun _ => Or.imp And.left And.left)
  | submitPoll _ run => exact .of_eq (submitPollStep_unrestricted run)
  | submitWrite _ run => exact .of_eq (submitWriteStep_unrestricted run)
  | corrPoll _ run => exact .of_eq (corrPollStep_unrestricted run)
  | corrRead _ run => exact .of_eq (corrReadStep_unrestricted run)
  | _ => exact .of_eq rfl

/-- No write is to BASE_VALID, the parameters or the three registers no rule writes. -/
theorem Writes.keeps_fixed {i : Instr} {s t : State} (w : Writes s i t) :
    t.baseValid = s.baseValid ∧ t.cfg = s.cfg ∧ t.mboxPeek = s.mboxPeek ∧ t.mboxSender = s.mboxSender ∧
      t.mboxConfig = s.mboxConfig := by
  cases w <;> exact ⟨rfl, rfl, rfl, rfl, rfl⟩

/-- RELEASE changes the cover of the request only by ending it, and only as RELEASE 0. -/
theorem release_ends_cover {k : BitVec 8} {b : Bool} (hne : (b && decide (k.toNat ≠ 0)) ≠ b) :
    (b && decide (k.toNat ≠ 0)) = false ∧ Instr.release k = .release 0#8 := by
  by_cases hk : k.toNat = 0
  · exact ⟨by simp [hk], congrArg Instr.release (BitVec.eq_of_toNat_eq hk)⟩
  · exact absurd (by simp [hk]) hne

/-- Settles O50: each kind of write against the four clauses that name the writers of a field. -/
theorem whoWritesWhat : Obligations.WhoWritesWhat := by
  intro i s t run
  have w := exec_writes run
  have fixed := w.keeps_fixed
  cases w with
  | none => exact ⟨absurd rfl, (·.elim (absurd rfl) (absurd rfl)), absurd rfl, absurd rfl, fixed⟩
  | begin _ _ hi =>
    exact ⟨fun _ => hi.imp_right (.imp_right .inl), (·.elim (absurd rfl) (absurd rfl)), fun _ => .inl ⟨rfl, hi⟩,
      absurd rfl, fixed⟩
  | mem _ _ hi =>
    exact ⟨fun _ => .inr (.inr (.inr hi)), (·.elim (absurd rfl) (absurd rfl)), absurd rfl, absurd rfl, fixed⟩
  | acquire k => exact ⟨absurd rfl, fun _ => ⟨k, .inl rfl⟩, absurd rfl, absurd rfl, fixed⟩
  | release k =>
    exact ⟨absurd rfl, fun _ => ⟨k, .inr rfl⟩, fun hne => .inr (release_ends_cover hne), absurd rfl, fixed⟩
  | startup _ _ hi =>
    exact ⟨absurd rfl, (·.elim (absurd rfl) (absurd rfl)), absurd rfl, fun _ => hi, fixed⟩

end Sys2Proof.Machine
end

section
/-! PROOF. The bytes of a buffer word, recovered from the word that is read. -/

namespace Sys2Proof.Machine

/-! ### The bytes of a word built from four: each append is cut at the byte it adds on top -/

@[simp] theorem byteOf_wordOf_zero (b0 b1 b2 b3 : Byte) : byteOf (wordOf b0 b1 b2 b3) 0 = b0 :=
  calc byteOf (wordOf b0 b1 b2 b3) 0 = (b2 ++ (b1 ++ b0)).extractLsb' 0 8 :=
        BitVec.extractLsb'_append_eq_of_add_le (by decide)
    _ = (b1 ++ b0).extractLsb' 0 8 := BitVec.extractLsb'_append_eq_of_add_le (by decide)
    _ = b0 := BitVec.extractLsb'_append_eq_right

@[simp] theorem byteOf_wordOf_one (b0 b1 b2 b3 : Byte) : byteOf (wordOf b0 b1 b2 b3) 1 = b1 :=
  calc byteOf (wordOf b0 b1 b2 b3) 1 = (b2 ++ (b1 ++ b0)).extractLsb' 8 8 :=
        BitVec.extractLsb'_append_eq_of_add_le (by decide)
    _ = (b1 ++ b0).extractLsb' 8 8 := BitVec.extractLsb'_append_eq_of_add_le (by decide)
    _ = b1 := BitVec.extractLsb'_append_eq_left

@[simp] theorem byteOf_wordOf_two (b0 b1 b2 b3 : Byte) : byteOf (wordOf b0 b1 b2 b3) 2 = b2 :=
  calc byteOf (wordOf b0 b1 b2 b3) 2 = (b2 ++ (b1 ++ b0)).extractLsb' 16 8 :=
        BitVec.extractLsb'_append_eq_of_add_le (by decide)
    _ = b2 := BitVec.extractLsb'_append_eq_left

@[simp] theorem byteOf_wordOf_three (b0 b1 b2 b3 : Byte) : byteOf (wordOf b0 b1 b2 b3) 3 = b3 :=
  BitVec.extractLsb'_append_eq_left

/-! ### The bytes under a word that is read -/

/-- MemRead(a, 4) gives a word exactly where the four bytes at a are present, and the word is made of them. -/
theorem Memory.readWord_eq_some_iff {m : Memory} {a : Nat} {w : Word} :
    m.readWord a = some w ↔ ∃ b0 b1 b2 b3, m.readByte a = some b0 ∧ m.readByte (a + 1) = some b1 ∧
      m.readByte (a + 2) = some b2 ∧ m.readByte (a + 3) = some b3 ∧ wordOf b0 b1 b2 b3 = w := by
  constructor
  · intro h
    unfold Memory.readWord at h
    split at h
    · next b0 b1 b2 b3 h0 h1 h2 h3 => exact ⟨b0, b1, b2, b3, h0, h1, h2, h3, Option.some.inj h⟩
    · next => cases h
  · rintro ⟨b0, b1, b2, b3, h0, h1, h2, h3, rfl⟩
    simp only [Memory.readWord, h0, h1, h2, h3]

/-- The memory under a word that is read holds byte k of the word at its address + k. -/
theorem Memory.readByte_of_readWord {m : Memory} {a : Nat} {w : Word} (h : m.readWord a = some w) {k : Nat}
    (hk : k < 4) : m.readByte (a + k) = some (byteOf w k) := by
  obtain ⟨b0, b1, b2, b3, h0, h1, h2, h3, rfl⟩ := Memory.readWord_eq_some_iff.mp h
  match k, hk with
  | 0, _ => rw [Nat.add_zero, h0, byteOf_wordOf_zero]
  | 1, _ => rw [h1, byteOf_wordOf_one]
  | 2, _ => rw [h2, byteOf_wordOf_two]
  | 3, _ => rw [h3, byteOf_wordOf_three]

/-- Settles O60: a buffer word is the word read at its address, and byteOf names the bits of each byte. -/
theorem bufferWordsAreLittleEndian : Obligations.BufferWordsAreLittleEndian :=
  fun _ _ _ _ hbuf hk => Memory.readByte_of_readWord hbuf hk

end Sys2Proof.Machine
end

section
/-! PROOF. The command port: a stream is accepted exactly where it is the words of a well-formed command and a rest, and
a program is read back command by command. -/

namespace Sys2Proof

/-! ### What the decoder accepts (30_encoding R121, R123) -/

/-- A stream of command word cw and the words after it is accepted: the command answered, and what follows it. -/
inductive Accepts (cw : Word) : List Word → Instr → List Word → Prop where
  | reservedOp0 (tail : List Word) (op : cwOp cw = 0#4) : Accepts cw tail (.reservedOp0 cw) tail
  | reservedOp7 (tail : List Word) (op : cwOp cw = 7#4) : Accepts cw tail (.reservedOp7 cw) tail
  | reservedOpCToF (tail : List Word) (op : 12#4 ≤ cwOp cw) : Accepts cw tail (.reservedOpCToF cw) tail
  | writeTag (ws rest : List Word) (reserved : cwReserved cw = 0#16) (op : cwOp cw = 2#4) (ch : cwCh cw = 0#4)
      (count : ws.length = (cwArg cw).toNat) : Accepts cw (ws ++ rest) (.writeTag ws) rest
  | fixed {i : Instr} (tail : List Word) (reserved : cwReserved cw = 0#16)
      (op : cwOp cw ∈ [1#4, 3#4, 4#4, 5#4, 6#4, 8#4, 9#4, 10#4, 11#4]) (run : decodeFixed cw = .ok i) :
      Accepts cw tail i tail

/-- The codes left when the reserved ones and WRITE_TAG's are taken out. -/
theorem mem_fixedOps_of_ne {op : BitVec 4} (h0 : op ≠ 0#4) (h7 : op ≠ 7#4) (hC : ¬ 12#4 ≤ op) (h2 : op ≠ 2#4) :
    op ∈ [1#4, 3#4, 4#4, 5#4, 6#4, 8#4, 9#4, 10#4, 11#4] := by
  revert op
  decide

/-- No code from 12 on is one of the lower reserved ones. -/
theorem ne_of_twelve_le {op : BitVec 4} (h : 12#4 ≤ op) : op ≠ 0#4 ∧ op ≠ 7#4 := by
  revert op
  decide

/-- Every stream the decoder accepts is one of `Accepts`. -/
theorem accepts_of_decodeCommand {cw : Word} {tail left : List Word} {i : Instr}
    (h : decodeCommand (cw :: tail) = .ok (i, left)) : Accepts cw tail i left := by
  rw [decodeCommand] at h
  split at h
  · next op => cases h; exact .reservedOp0 tail op
  split at h
  · next op => cases h; exact .reservedOp7 tail op
  split at h
  · next op => cases h; exact .reservedOpCToF tail op
  split at h
  · cases h
  next h0 h7 hC reserved =>
  split at h
  · next op =>
    split at h
    · cases h
    split at h
    · cases h
    next ch short =>
    cases h
    have accepted := Accepts.writeTag (cw := cw) (tail.take (cwArg cw).toNat) (tail.drop (cwArg cw).toNat)
      (not_not.mp reserved) op (not_not.mp ch) (List.length_take_of_le (Nat.not_lt.mp short))
    rwa [List.take_append_drop] at accepted
  · next h2 =>
    cases run : decodeFixed cw with
    | error r => rw [run] at h; cases h
    | ok j =>
      rw [run] at h
      cases h
      exact .fixed tail (not_not.mp reserved) (mem_fixedOps_of_ne h0 h7 hC h2) run

/-- The decoder answers every accepted stream with its command and its rest. -/
theorem Accepts.decodes {cw : Word} {tail left : List Word} {i : Instr} (h : Accepts cw tail i left) :
    decodeCommand (cw :: tail) = .ok (i, left) := by
  cases h with
  | reservedOp0 _ op => simp [decodeCommand, op]
  | reservedOp7 _ op => simp [decodeCommand, op]
  | reservedOpCToF _ op =>
    obtain ⟨h0, h7⟩ := ne_of_twelve_le op
    simp [decodeCommand, h0, h7, op]
  | writeTag ws _ reserved op ch count =>
    simp [decodeCommand, op, reserved, ch, ← count]
  | fixed _ reserved op run => exact decodeCommand_fixed op reserved run

/-- What is accepted is accepted whatever follows it. -/
theorem Accepts.append {cw : Word} {tail left : List Word} {i : Instr} (h : Accepts cw tail i left)
    (rest : List Word) : Accepts cw (tail ++ rest) i (left ++ rest) := by
  cases h with
  | reservedOp0 _ op => exact .reservedOp0 _ op
  | reservedOp7 _ op => exact .reservedOp7 _ op
  | reservedOpCToF _ op => exact .reservedOpCToF _ op
  | writeTag ws _ reserved op ch count =>
    rw [List.append_assoc]
    exact .writeTag ws _ reserved op ch count
  | fixed _ reserved op run => exact .fixed _ reserved op run

/-- A stream that is accepted holds a command word. -/
theorem exists_accepts {ws left : List Word} {i : Instr} (h : decodeCommand ws = .ok (i, left)) :
    ∃ cw tail, ws = cw :: tail ∧ Accepts cw tail i left := by
  cases ws with
  | nil => cases h
  | cons cw tail => exact ⟨cw, tail, rfl, accepts_of_decodeCommand h⟩

theorem decodeCommand_append {ws left : List Word} {i : Instr} (h : decodeCommand ws = .ok (i, left))
    (rest : List Word) : decodeCommand (ws ++ rest) = .ok (i, left ++ rest) := by
  obtain ⟨cw, tail, rfl, accepted⟩ := exists_accepts h
  exact (accepted.append rest).decodes

/-! ### From a command to its words and back -/

/-- A well-formed command is read back from its words alone. -/
theorem decodeCommand_encodeWords {i : Instr} (hwf : i.wf = true) (hp : encodePort i = .command) :
    decodeCommand (encodeWords i) = .ok (i, []) := by
  have roundTrip : Laws.RoundTrip.Statement i := by
    cases i with
    | newBuffer => exact Laws.RoundTrip.newBuffer
    | writeTag ws => exact Laws.RoundTrip.writeTag ws
    | call => exact Laws.RoundTrip.call
    | tagCheck t => exact Laws.RoundTrip.tagCheck t
    | readWord n => exact Laws.RoundTrip.readWord n
    | discard => exact Laws.RoundTrip.discard
    | tryAcquire k => exact Laws.RoundTrip.tryAcquire k
    | release k => exact Laws.RoundTrip.release k
    | getFirmwareRevision => exact Laws.RoundTrip.getFirmwareRevision
    | getBoardSerial => exact Laws.RoundTrip.getBoardSerial
    | reservedOp0 cw => exact Laws.RoundTrip.reservedOp0 cw
    | reservedOp7 cw => exact Laws.RoundTrip.reservedOp7 cw
    | reservedOpCToF cw => exact Laws.RoundTrip.reservedOpCToF cw
    | _ => cases hp
  have back := roundTrip hwf
  rwa [hp, decode_command] at back

/-- Settles O52: the command is read back from its words (`decodeCommand_encodeWords`), and the decoder reads no further
than a command's own words (`decodeCommand_append`). -/
theorem commandStreamRoundTrip : Obligations.CommandStreamRoundTrip := by
  intro i rest hwf hp
  exact decodeCommand_append (decodeCommand_encodeWords hwf hp) rest

/-! ### From the words to their command and back -/

theorem decodeArg_eq_ok {cw : Word} {f : BitVec 8 → Instr} {i : Instr} :
    decodeArg cw f = .ok i ↔ cwCh cw = 0#4 ∧ i = f (cwArg cw) := by
  unfold decodeArg
  split
  · next ch => exact iff_of_false nofun fun h => ch h.1
  · next ch => exact ⟨fun h => ⟨not_not.mp ch, (Except.ok.inj h).symm⟩, fun h => congrArg _ h.2.symm⟩

theorem decodePlain_eq_ok {cw : Word} {ch : BitVec 4} {i j : Instr} :
    decodePlain cw ch j = .ok i ↔ cwCh cw = ch ∧ cwArg cw = 0#8 ∧ i = j := by
  unfold decodePlain
  split
  · next hch => exact iff_of_false nofun fun h => hch h.1
  split
  · next harg => exact iff_of_false nofun fun h => harg h.2.1
  · next hch harg =>
    exact ⟨fun h => ⟨not_not.mp hch, not_not.mp harg, (Except.ok.inj h).symm⟩, fun h => congrArg _ h.2.2.symm⟩

theorem cwMake_eq {cw : Word} {arg : BitVec 8} {ch op : BitVec 4} (reserved : cwReserved cw = 0#16)
    (harg : cwArg cw = arg) (hch : cwCh cw = ch) (hop : cwOp cw = op) : cwMake arg ch op = cw := by
  rw [← harg, ← hch, ← hop, cwMake_fields reserved]

theorem cwOp_toNat (cw : Word) : (cwOp cw).toNat = cw.toNat % 16 := by simp [cwOp]

/-- i is a well-formed command, and these are its words. -/
def SpelledBy (i : Instr) (ws : List Word) : Prop :=
  i.wf = true ∧ encodePort i = .command ∧ encodeWords i = ws

theorem decodeArg_spelledBy {cw : Word} {f : BitVec 8 → Instr} {i : Instr} {op : BitVec 4}
    (reserved : cwReserved cw = 0#16) (hop : cwOp cw = op) (hf : ∀ a, SpelledBy (f a) [cwMake a 0#4 op])
    (run : decodeArg cw f = .ok i) : SpelledBy i [cw] := by
  obtain ⟨hch, rfl⟩ := decodeArg_eq_ok.mp run
  have spelled := hf (cwArg cw)
  rwa [cwMake_eq reserved rfl hch hop] at spelled

theorem decodePlain_spelledBy {cw : Word} {i j : Instr} {ch op : BitVec 4} (reserved : cwReserved cw = 0#16)
    (hop : cwOp cw = op) (hj : SpelledBy j [cwMake 0#8 ch op]) (run : decodePlain cw ch j = .ok i) :
    SpelledBy i [cw] := by
  obtain ⟨hch, harg, rfl⟩ := decodePlain_eq_ok.mp run
  exact cwMake_eq reserved harg hch hop ▸ hj

/-- Of the codes decodeFixed is asked about, the one it does not test for is GET_BOARD_SERIAL's. -/
theorem eq_eleven_of_ne {op : BitVec 4} (h : op ∈ [1#4, 3#4, 4#4, 5#4, 6#4, 8#4, 9#4, 10#4, 11#4]) (h1 : op ≠ 1#4)
    (h3 : op ≠ 3#4) (h4 : op ≠ 4#4) (h5 : op ≠ 5#4) (h6 : op ≠ 6#4) (h8 : op ≠ 8#4) (h9 : op ≠ 9#4)
    (hA : op ≠ 10#4) : op = 11#4 := by
  simpa [h1, h3, h4, h5, h6, h8, h9, hA] using h

/-- Code by code, what decodeFixed answers is spelled by the one word it was given. -/
theorem decodeFixed_spelledBy {cw : Word} {i : Instr} (reserved : cwReserved cw = 0#16)
    (op : cwOp cw ∈ [1#4, 3#4, 4#4, 5#4, 6#4, 8#4, 9#4, 10#4, 11#4]) (run : decodeFixed cw = .ok i) :
    SpelledBy i [cw] := by
  unfold decodeFixed at run
  split at run
  · next hop => exact decodePlain_spelledBy reserved hop ⟨rfl, rfl, rfl⟩ run
  split at run
  · next hop => exact decodePlain_spelledBy reserved hop ⟨rfl, rfl, rfl⟩ run
  split at run
  · next hop => exact decodeArg_spelledBy reserved hop (fun _ => ⟨rfl, rfl, rfl⟩) run
  split at run
  · next hop => exact decodeArg_spelledBy reserved hop (fun _ => ⟨rfl, rfl, rfl⟩) run
  split at run
  · next hop => exact decodePlain_spelledBy reserved hop ⟨rfl, rfl, rfl⟩ run
  split at run
  · next hop => exact decodeArg_spelledBy reserved hop (fun _ => ⟨rfl, rfl, rfl⟩) run
  split at run
  · next hop => exact decodeArg_spelledBy reserved hop (fun _ => ⟨rfl, rfl, rfl⟩) run
  split at run
  · next hop => exact decodePlain_spelledBy reserved hop ⟨rfl, rfl, rfl⟩ run
  next h1 h3 h4 h5 h6 h8 h9 hA =>
  exact decodePlain_spelledBy reserved (eq_eleven_of_ne op h1 h3 h4 h5 h6 h8 h9 hA) ⟨rfl, rfl, rfl⟩ run

/-- An accepted stream is the words of its command, then what follows. -/
theorem Accepts.spelledBy {cw : Word} {tail left : List Word} {i : Instr} (h : Accepts cw tail i left) :
    ∃ ws, SpelledBy i ws ∧ ws ++ left = cw :: tail := by
  cases h with
  | reservedOp0 _ op => exact ⟨[cw], ⟨decide_eq_true (by rw [← cwOp_toNat, op]; rfl), rfl, rfl⟩, rfl⟩
  | reservedOp7 _ op => exact ⟨[cw], ⟨decide_eq_true (by rw [← cwOp_toNat, op]; rfl), rfl, rfl⟩, rfl⟩
  | reservedOpCToF _ op => exact ⟨[cw], ⟨decide_eq_true (by rw [← cwOp_toNat]; exact op), rfl, rfl⟩, rfl⟩
  | writeTag ws _ reserved op ch count =>
    have short : ws.length ≤ 255 := by have := (cwArg cw).isLt; omega
    have arg : cwArg cw = BitVec.ofNat 8 ws.length := by rw [count, BitVec.ofNat_toNat, BitVec.setWidth_eq]
    exact ⟨cw :: ws, ⟨decide_eq_true short, rfl, congrArg (· :: ws) (cwMake_eq reserved arg ch op)⟩, rfl⟩
  | fixed _ reserved op run => exact ⟨[cw], decodeFixed_spelledBy reserved op run, rfl⟩

/-- Settles O54: every way a stream is accepted spells the command answered. -/
theorem commandWordsAreUnique : Obligations.CommandWordsAreUnique := by
  intro ws rest i h
  obtain ⟨cw, tail, rfl, accepted⟩ := exists_accepts h
  obtain ⟨_, ⟨hwf, hp, rfl⟩, e⟩ := accepted.spelledBy
  exact ⟨hwf, hp, e⟩

/-! ### Programs (30_encoding R125) -/

theorem decodeProgram_of_decodeCommand {ws rest : List Word} {i : Instr} (h : decodeCommand ws = .ok (i, rest))
    (fuel : Nat) : decodeProgram (fuel + 1) ws = (decodeProgram fuel rest).map fun is => i :: is := by
  obtain ⟨cw, tail, rfl, -⟩ := exists_accepts h
  rw [decodeProgram, h]
  exact nofun

/-- With fuel for each of its words, a program is read back. -/
theorem decodeProgram_encode {is : List Instr} (his : ∀ i ∈ is, i.wf = true ∧ encodePort i = .command) {fuel : Nat}
    (hfuel : (is.flatMap encodeWords).length ≤ fuel) : decodeProgram fuel (is.flatMap encodeWords) = .ok is := by
  induction is generalizing fuel with
  | nil => rw [List.flatMap_nil, decodeProgram]
  | cons i is ih =>
    obtain ⟨⟨hwf, hp⟩, his⟩ := List.forall_mem_cons.mp his
    have head := commandStreamRoundTrip i (is.flatMap encodeWords) hwf hp
    have nonempty : 1 ≤ (encodeWords i).length := by
      obtain ⟨cw, tail, e, -⟩ := exists_accepts (decodeCommand_encodeWords hwf hp)
      rw [e, List.length_cons]
      omega
    rw [List.flatMap_cons, List.length_append] at hfuel
    obtain ⟨fuel, rfl⟩ : ∃ n, fuel = n + 1 := ⟨fuel - 1, by omega⟩
    rw [List.flatMap_cons, decodeProgram_of_decodeCommand head, ih his (by omega)]
    rfl

/-- Settles O53: every command takes at least one word, so the stream's length is fuel enough. -/
theorem programRoundTrip : Obligations.ProgramRoundTrip :=
  fun _ his => decodeProgram_encode his (Nat.le_refl _)

/-! ### Words written out from the tables (95_test_vectors 2.1) -/

/-- Settles O51: each word is read by the decoder itself. -/
theorem sampleWordsDecode : Obligations.SampleWordsDecode :=
  ⟨rfl, rfl, rfl, rfl, rfl, rfl, rfl, rfl, rfl, rfl⟩

end Sys2Proof
end

section
/-! PROOF. The submission word and the match test, by the two fields of a word (30_encoding R107, R108). -/

namespace Sys2Proof.Machine

theorem responseMatches_iff_fields (r sub : Word) :
    responseMatches r sub = true ↔
      r.extractLsb' 0 4 = sub.extractLsb' 0 4 ∧ r.extractLsb' 4 28 = sub.extractLsb' 4 28 := by
  change responseMatches r sub = true ↔ wordChannel r = wordChannel sub ∧ wordPointer r = wordPointer sub
  rw [responseMatches, Bool.and_eq_true, decide_eq_true_iff, decide_eq_true_iff]

/-- Settles O14: the test is of both fields by its definition, and a word is its two fields (`responseMatches_iff`). -/
theorem matchTestIsWordEquality : Obligations.MatchTestIsWordEquality :=
  fun r sub => ⟨responseMatches_iff_fields r sub, responseMatches_iff r sub⟩

/-- A word is its channel field and its pointer field. -/
theorem word_eq_of_fields {v w : Word} (hc : v.extractLsb' 0 4 = w.extractLsb' 0 4)
    (hp : v.extractLsb' 4 28 = w.extractLsb' 4 28) : v = w :=
  (responseMatches_iff v w).mp ((responseMatches_iff_fields v w).mpr ⟨hc, hp⟩)

/-- The low four bits of an aligned address are zero (20_memory R68). -/
theorem channel_of_aligned {a : Word} (h : a.toNat % 16 = 0) : a.extractLsb' 0 4 = 0#4 := by
  apply BitVec.eq_of_toNat_eq
  simpa using h

theorem submissionWord_eq_or (a : Word) : submissionWord a = a ||| 8#32 := rfl

theorem pointer_submissionWord (a : Word) : (submissionWord a).extractLsb' 4 28 = a.extractLsb' 4 28 := by
  have none : (8#32).extractLsb' 4 28 = 0#28 := rfl
  rw [submissionWord_eq_or, BitVec.extractLsb'_or, none, BitVec.or_zero]

theorem channel_submissionWord {a : Word} (h : a.toNat % 16 = 0) : (submissionWord a).extractLsb' 0 4 = 8#4 := by
  rw [submissionWord_eq_or, BitVec.extractLsb'_or, channel_of_aligned h]
  rfl

theorem channel_wordBuffer (w : Word) : (wordBuffer w).extractLsb' 0 4 = 0#4 := by
  have mask : (0xFFFFFFF0#32).extractLsb' 0 4 = 0#4 := rfl
  rw [wordBuffer, BitVec.extractLsb'_and, mask, BitVec.and_zero]

theorem pointer_wordBuffer (w : Word) : (wordBuffer w).extractLsb' 4 28 = w.extractLsb' 4 28 := by
  have mask : (0xFFFFFFF0#32).extractLsb' 4 28 = BitVec.allOnes 28 := rfl
  rw [wordBuffer, BitVec.extractLsb'_and, mask, BitVec.and_allOnes]

/-- Settles O12: each field of the submission word by itself, and the address again from its two fields. -/
theorem submissionWordKeepsAddressAndChannel : Obligations.SubmissionWordKeepsAddressAndChannel := by
  rintro c ⟨-, -, aligned, -⟩
  refine ⟨rfl, pointer_submissionWord _, channel_submissionWord aligned, word_eq_of_fields ?_ ?_⟩
  · rw [channel_wordBuffer, channel_of_aligned aligned]
  · rw [pointer_wordBuffer, pointer_submissionWord]

end Sys2Proof.Machine
end

section
/-! PROOF. The tag_id rows: WRITE_TAG of the list that begins with the identifier (30_encoding R104, R111, R112; log
16). -/

namespace Sys2Proof.Machine

/-- WRITE_TAG of a list that fits copies it to where FindEnd answers (40_buffer_build R146, R147). -/
theorem exec_writeTag_fits {s : State} {ws : List Word} {p : Nat} {size : Word} (admitted : s.inRequest [.build])
    (hp : findEnd s = .found p) (fits : p + ws.length + s.cfg.termReserve.val ≤ Config.bufWords)
    (h0 : s.buf 0 = some size) : exec (.writeTag ws) s = .next (copyTag s p ws size) := by
  obtain ⟨idle, guard, phase⟩ := admitted
  exact hostTurn_next.mpr ⟨idle, cmdWriteTag_next.mpr ⟨guard, List.mem_singleton.mp phase, writeTag_fits hp fits h0⟩⟩

/-- A tag_id row is WRITE_TAG of its identifier and the words after it. -/
theorem exec_tagIdRow {row : Word × (List Word → Instr)} (h : row ∈ tagIdRows) (rest : List Word) (s : State) :
    exec (row.2 rest) s = exec (.writeTag (row.1 :: rest)) s := by
  unfold tagIdRows at h
  fin_cases h <;> rfl

/-- Settles O4: the row is WRITE_TAG of its list (`exec_tagIdRow`), which fits, and what copying leaves is the list,
SIZE and every other byte. -/
theorem tagIdentifierRowsAppendTheirTag : Obligations.TagIdentifierRowsAppendTheirTag := by
  intro s rest p size admitted hp fits h0 row hrow
  have hp1 : 1 ≤ p := Nat.le_of_succ_le (findEnd_found hp).1
  have copied {j : Nat} (hj : j < (row.1 :: rest).length) :
      (copyTag s p (row.1 :: rest) size).buf (p + j) = some (row.1 :: rest)[j] := copyTag_buf_list s hp1 _ size hj
  refine ⟨copyTag s p (row.1 :: rest) size, ?_, copyTag_eq s p _ size, copied (j := 0) (Nat.succ_pos _), ?_,
    copyTag_buf_zero s p _ size, fun _ => copyTag_readByte_other s p (row.1 :: rest) size⟩
  · rw [exec_tagIdRow hrow, exec_writeTag_fits (ws := row.1 :: rest) admitted hp fits h0]
  · intro j hj
    rw [Nat.add_assoc, Nat.add_comm 1 j]
    exact copied (j := j + 1) (Nat.succ_lt_succ hj)

end Sys2Proof.Machine
end

section
/-! PROOF. The recipes: NEW_BUFFER first, then each command of the expansion as the machine runs it by itself
(30_encoding R126; 42_readback R194 to R196; log 14). -/

namespace Sys2Proof.Machine

theorem exec_newBuffer_ready {s : State} (h : s.ready newBufferPhases) : exec .newBuffer s = .next (newBuffer s) := by
  obtain ⟨idle, guard, phase⟩ := h
  exact hostTurn_next.mpr ⟨idle, cmdNewBuffer_next.mpr ⟨guard, phase, rfl⟩⟩

theorem startRecipe_ready {s : State} (h : s.ready newBufferPhases) (k : RecipeKind) :
    hostTurn s (startRecipe k s) = .next ((newBuffer s).setRecipe (some ⟨k, .writeTag, 0#32, 0#32⟩)) := by
  obtain ⟨idle, guard, phase⟩ := h
  exact hostTurn_next.mpr ⟨idle, startRecipe_next.mpr ⟨guard, phase, rfl⟩⟩

/-- Settles O28: the command words by the encoder, and issuing a recipe is NEW_BUFFER with the recipe set. -/
theorem recipeBeginsWithNewBuffer : Obligations.RecipeBeginsWithNewBuffer :=
  ⟨rfl, rfl, fun _ h => ⟨_, exec_newBuffer_ready h, startRecipe_ready h .firmwareRevision,
    startRecipe_ready h .boardSerial⟩⟩

/-! ### A command does not look at the recipe that issues it -/

/-- The command does the same whatever recipe is in progress, and leaves it in progress. -/
def IgnoresRecipe (c : State → Out) : Prop :=
  ∀ (s : State) (v : Option RecipeRun), c (s.setRecipe v) = andThen (c s) fun t => .next (t.setRecipe v)

theorem andThen_admittedInRequest (ps : List Phase) (s : State) (k : Out) (f : State → Out) :
    andThen (admittedInRequest ps s k) f = admittedInRequest ps s (andThen k f) := by
  unfold admittedInRequest admitted
  split_ifs <;> rfl

theorem IgnoresRecipe.admittedInRequest {c : State → Out} (h : IgnoresRecipe c) (ps : List Phase) :
    IgnoresRecipe fun s => admittedInRequest ps s (c s) := fun s v =>
  calc Machine.admittedInRequest ps (s.setRecipe v) (c (s.setRecipe v))
      = Machine.admittedInRequest ps s (c (s.setRecipe v)) := rfl
    _ = Machine.admittedInRequest ps s (andThen (c s) fun t => .next (t.setRecipe v)) := by rw [h]
    _ = andThen (Machine.admittedInRequest ps s (c s)) fun t => .next (t.setRecipe v) :=
        (andThen_admittedInRequest ps s (c s) _).symm

theorem IgnoresRecipe.withWord {c : Word → State → Out} (h : ∀ w, IgnoresRecipe (c w)) (i : Nat) :
    IgnoresRecipe fun s => withWord s i fun w => c w s := by
  intro s v
  have same : (s.setRecipe v).buf i = s.buf i := State.buf_congr rfl rfl i
  simp only [Machine.withWord, same]
  cases s.buf i with
  | none => rfl
  | some w => exact h w s v

/-- FindEnd depends on the buffer words and SCAN_MODE only. -/
theorem findEnd_setRecipe (s : State) (v : Option RecipeRun) : findEnd (s.setRecipe v) = findEnd s := by
  have same (i : Nat) : (s.setRecipe v).buf i = s.buf i := State.buf_congr rfl rfl i
  have walk (fuel p : Nat) : walkTags (s.setRecipe v) fuel p = walkTags s fuel p := by
    induction fuel generalizing p with
    | zero => rfl
    | succ fuel ih => simp only [walkTags, same, ih]
  have scan (fuel p : Nat) : scanWords (s.setRecipe v) fuel p = scanWords s fuel p := by
    induction fuel generalizing p with
    | zero => rfl
    | succ fuel ih => simp only [scanWords, same, ih]
  simp only [findEnd, walk, scan, State.setRecipe_cfg]

theorem writeTag_ignoresRecipe (ws : List Word) : IgnoresRecipe (writeTag ws) := by
  intro s v
  simp only [writeTag, findEnd_setRecipe]
  cases findEnd s with
  | unwritten => rfl
  | noTerminator => rfl
  | found p =>
    have same : tagTooLong (s.setRecipe v) p ws.length = tagTooLong s p ws.length := rfl
    simp only [same]
    split_ifs
    · rfl
    · exact IgnoresRecipe.withWord (c := fun size s => .next (copyTag s p ws size)) (fun _ _ _ => rfl) 0 s v

theorem cmdWriteTag_ignoresRecipe (ws : List Word) : IgnoresRecipe (cmdWriteTag ws) :=
  (writeTag_ignoresRecipe ws).admittedInRequest _

theorem cmdCall_ignoresRecipe : IgnoresRecipe cmdCall :=
  IgnoresRecipe.admittedInRequest (c := fun s => .next (acceptCall s)) (fun _ _ => rfl) _

theorem tagVerdict_ignoresRecipe (n : Nat) : IgnoresRecipe (tagVerdict n) := by
  intro s v
  simp only [tagVerdict]
  split_ifs
  · refine IgnoresRecipe.withWord
      (c := fun c s => .next (if responseBit c then s.ret c else s.raise .tagNotAnswered c)) (fun c s v => ?_) _ s v
    cases responseBit c <;> rfl
  · rfl

theorem cmdTagCheck_ignoresRecipe (n : Nat) : IgnoresRecipe (cmdTagCheck n) :=
  (tagVerdict_ignoresRecipe n).admittedInRequest _

theorem readBufferWord_ignoresRecipe (n : Nat) : IgnoresRecipe (readBufferWord n) := by
  intro s v
  simp only [readBufferWord]
  split_ifs
  · exact IgnoresRecipe.withWord (c := fun w s => .next (s.ret w)) (fun _ _ _ => rfl) _ s v
  · rfl

theorem cmdReadWord_ignoresRecipe (n : Nat) : IgnoresRecipe (cmdReadWord n) :=
  (readBufferWord_ignoresRecipe n).admittedInRequest _

theorem cmdDiscard_ignoresRecipe : IgnoresRecipe cmdDiscard :=
  IgnoresRecipe.admittedInRequest (c := fun s => .next ((s.setPhase .none).ret 0#32)) (fun _ _ => rfl) _

/-- A command that completes when it is issued by itself completes in a recipe, the same but for the recipe. -/
theorem IgnoresRecipe.next_of_hostTurn {c : State → Out} (h : IgnoresRecipe c) {s t : State}
    (run : hostTurn (s.setRecipe none) (c (s.setRecipe none)) = .next t) :
    ∃ u, c s = .next u ∧ t = u.setRecipe none := by
  obtain ⟨-, run⟩ := hostTurn_next.mp run
  rw [h] at run
  obtain ⟨u, hu, e⟩ := andThen_next.mp run
  exact ⟨u, hu, next_eq_next.mp e⟩

/-! ### The engine's steps -/

/-- Settles O29: each arm of the recipe's step is a command that ignores the recipe, so it does what the command issued
by itself does. -/
theorem recipeStepsAreItsExpansion : Obligations.RecipeStepsAreItsExpansion := by
  rintro s t ⟨kind, stage, low, high⟩ hr hp
  rw [engineStep_recipe hp hr]
  refine ⟨?_, ?_, ?_, ?_, ?_, ?_⟩
  · rintro rfl run
    obtain ⟨u, hu, rfl⟩ := (cmdWriteTag_ignoresRecipe (recipeTag kind)).next_of_hostTurn
      (by cases kind <;> exact run)
    exact andThen_next.mpr ⟨u, hu, rfl⟩
  · rintro rfl run
    obtain ⟨u, hu, rfl⟩ := cmdCall_ignoresRecipe.next_of_hostTurn run
    exact andThen_next.mpr ⟨u, hu, rfl⟩
  · rintro rfl hne run
    obtain ⟨u, hu, rfl⟩ := (cmdTagCheck_ignoresRecipe 2).next_of_hostTurn run
    exact (if_neg hne).trans (andThen_next.mpr ⟨u, hu, rfl⟩)
  · rintro rfl run
    obtain ⟨u, hu, rfl⟩ := (cmdReadWord_ignoresRecipe 5).next_of_hostTurn run
    cases kind <;> exact andThen_next.mpr ⟨u, hu, rfl⟩
  · rintro rfl run
    obtain ⟨u, hu, rfl⟩ := (cmdReadWord_ignoresRecipe 6).next_of_hostTurn run
    exact andThen_next.mpr ⟨u, hu, rfl⟩
  · rintro rfl run
    obtain ⟨u, hu, rfl⟩ := cmdDiscard_ignoresRecipe.next_of_hostTurn run
    cases kind <;> exact andThen_next.mpr ⟨u, hu, rfl⟩

end Sys2Proof.Machine
end

section
/-! PROOF. The phase-steps of CALL under their conditions (41_call R163 to R166, R169, R170, R175), and the wire-format
rows as those steps (log 15). -/

namespace Sys2Proof.Machine

/-! ### A failed poll -/

theorem State.setPhase_self {s : State} {p : Phase} (h : s.phase = p) : s.setPhase p = s := by
  subst h
  rfl

/-- With budget left a failed poll is counted, and the loop goes on in PHASE p. -/
theorem pollFailed_budgetLeft {s : State} (h : s.budgetLeft) (p : Phase) :
    pollFailed p s = (s.setPolls s.countPoll).setPhase p := pollFailed_left h p

/-- With the budget spent a failed poll ends CALL with Timeout. -/
theorem pollFailed_budgetSpent {s : State} (h : s.budgetSpent) (p : Phase) :
    pollFailed p s = ((s.setPolls (s.polls + 1)).setPhase .doneErr).raise .timeout
      (if s.phase = .corrPoll ∨ s.phase = .corrRead then 1#32 else 0#32) := by
  obtain ⟨n, hn, hle⟩ := h
  exact pollFailed_spent hn hle p

/-! ### SUBMIT_POLL, SUBMIT_WRITE, CORR_POLL -/

theorem submitPollStep_full {s : State} (here : s.atStep .submitPoll) (full : s.outq.length = s.cfg.fifoDepth) :
    submitPollStep s = .next (pollFailed .submitPoll s.statusDrawn) :=
  submitPollStep_next.mpr ⟨here.1, here.2, (if_pos full).symm⟩

theorem submitPollStep_full_budgetLeft {s : State} (here : s.atStep .submitPoll)
    (full : s.outq.length = s.cfg.fifoDepth) (left : s.budgetLeft) :
    submitPollStep s = .next { s with polls := s.countPoll, draws := s.draws + 1 } := by
  have stays : (s.statusDrawn.setPolls s.countPoll).setPhase .submitPoll = s.statusDrawn.setPolls s.countPoll :=
    State.setPhase_self here.1
  rw [submitPollStep_full here full, pollFailed_budgetLeft (s := s.statusDrawn) left]
  exact congrArg _ stays

theorem submitPollStep_full_budgetSpent {s : State} (here : s.atStep .submitPoll)
    (full : s.outq.length = s.cfg.fifoDepth) (spent : s.budgetSpent) :
    submitPollStep s = .next
      { s with polls := s.polls + 1, draws := s.draws + 1, phase := .doneErr, result := ⟨.timeout, 0#32⟩ } := by
  have info : ¬ (s.statusDrawn.phase = .corrPoll ∨ s.statusDrawn.phase = .corrRead) := by
    simp [State.statusDrawn, here.1]
  rw [submitPollStep_full here full, pollFailed_budgetSpent (s := s.statusDrawn) spent, if_neg info]
  rfl

theorem submitWriteStep_sends {s : State} (here : s.atStep .submitWrite) (room : s.outq.length ≠ s.cfg.fifoDepth) :
    submitWriteStep s = .next
      { s with
        sub := s.cfg.bufAddr ||| 8#32, outq := s.outq ++ [s.cfg.bufAddr ||| 8#32], polls := 0, phase := .corrPoll } :=
  submitWriteStep_next.mpr ⟨here.1, here.2, room, rfl⟩

theorem corrPollStep_empty {s : State} (here : s.atStep .corrPoll) (empty : s.inq = []) :
    corrPollStep s = .next (pollFailed .corrPoll s.statusDrawn) :=
  corrPollStep_next.mpr ⟨here.1, here.2, (if_pos empty).symm⟩

theorem corrPollStep_empty_budgetLeft {s : State} (here : s.atStep .corrPoll) (empty : s.inq = [])
    (left : s.budgetLeft) : corrPollStep s = .next { s with polls := s.countPoll, draws := s.draws + 1 } := by
  have stays : (s.statusDrawn.setPolls s.countPoll).setPhase .corrPoll = s.statusDrawn.setPolls s.countPoll :=
    State.setPhase_self here.1
  rw [corrPollStep_empty here empty, pollFailed_budgetLeft (s := s.statusDrawn) left]
  exact congrArg _ stays

theorem corrPollStep_empty_budgetSpent {s : State} (here : s.atStep .corrPoll) (empty : s.inq = [])
    (spent : s.budgetSpent) :
    corrPollStep s = .next
      { s with polls := s.polls + 1, draws := s.draws + 1, phase := .doneErr, result := ⟨.timeout, 1#32⟩ } := by
  rw [corrPollStep_empty here empty, pollFailed_budgetSpent (s := s.statusDrawn) spent, if_pos (.inl here.1)]
  rfl

/-! ### CORR_READ -/

theorem corrReadStep_foreign {s : State} {w : Word} {q : List Word} (here : s.atStep .corrRead) (head : s.inq = w :: q)
    (foreign : w ≠ s.sub) : corrReadStep s = .next (pollFailed .corrPoll ((s.setInq q).setResp w)) :=
  corrReadStep_next.mpr ⟨here.1, here.2, w, q, head, .inr ⟨foreign, rfl⟩⟩

theorem corrReadStep_foreign_budgetLeft {s : State} {w : Word} {q : List Word} (here : s.atStep .corrRead)
    (head : s.inq = w :: q) (foreign : w ≠ s.sub) (left : s.budgetLeft) :
    corrReadStep s = .next { s with inq := q, resp := w, polls := s.countPoll, phase := .corrPoll } := by
  rw [corrReadStep_foreign here head foreign, pollFailed_budgetLeft (s := (s.setInq q).setResp w) left]
  rfl

theorem corrReadStep_foreign_budgetSpent {s : State} {w : Word} {q : List Word} (here : s.atStep .corrRead)
    (head : s.inq = w :: q) (foreign : w ≠ s.sub) (spent : s.budgetSpent) :
    corrReadStep s = .next
      { s with inq := q, resp := w, polls := s.polls + 1, phase := .doneErr, result := ⟨.timeout, 1#32⟩ } := by
  rw [corrReadStep_foreign here head foreign, pollFailed_budgetSpent (s := (s.setInq q).setResp w) spent,
    if_pos (.inr here.1)]
  rfl

theorem corrReadStep_matching {s : State} {q : List Word} {c : Word} (here : s.atStep .corrRead)
    (head : s.inq = s.sub :: q) (code : s.buf 1 = some c) :
    corrReadStep s = .next
      { s with
        inq := q
        resp := s.sub
        phase := if c = 0x80000000#32 then .doneOk else .doneErr
        result :=
          ⟨if c = 0x80000000#32 then .ok
            else if c = 0x80000001#32 then .firmwareRejected
            else if c = 0#32 then .noResponse
            else .unknownResponseStatus, c⟩ } :=
  corrReadStep_next.mpr ⟨here.1, here.2, s.sub, q, head, .inl ⟨rfl, classify_next.mpr ⟨c, code, rfl⟩⟩⟩

/-! ### The wire-format rows where their word is the one present -/

theorem exec_statusFull {s : State} (here : s.atStep .submitPoll) (full : s.outq.length = s.cfg.fifoDepth) :
    exec .statusFull s = submitPollStep s :=
  (inStep_ok here.1 _).trans ((throughRa_ok here.2 _).trans (if_pos ((outqFull_iff s).mpr full)))

theorem exec_statusEmpty {s : State} (here : s.atStep .corrPoll) (empty : s.inq = []) :
    exec .statusEmpty s = corrPollStep s :=
  (inStep_ok here.1 _).trans ((throughRa_ok here.2 _).trans (if_pos ((inqEmpty_iff s).mpr empty)))

theorem exec_submissionWordCh8 {s : State} (here : s.atStep .submitWrite) :
    exec (.submissionWordCh8 (s.cfg.bufAddr.extractLsb' 4 28)) s = submitWriteStep s :=
  (inStep_ok here.1 _).trans ((throughRa_ok here.2 _).trans (if_pos rfl))

/-- i is the row of this channel (30_encoding R110). -/
def IsChannelRow (ch : BitVec 4) (i : Instr) : Prop :=
  (ch, i) ∈ channelRows ∨ (i = .channelReserved ch ∧ 9 ≤ ch.toNat)

theorem IsChannelRow.exec {ch : BitVec 4} {i : Instr} (h : IsChannelRow ch i) (s : State) :
    exec i s = channelStep ch s := by
  rcases h with h | ⟨rfl, hch⟩
  · unfold channelRows at h
    fin_cases h <;> rfl
  · exact if_neg (Nat.not_lt.mpr hch)

theorem exec_channelRow {s : State} {w : Word} {q : List Word} {i : Instr} (here : s.atStep .corrRead)
    (head : s.inq = w :: q) (row : IsChannelRow (w.extractLsb' 0 4) i) : exec i s = corrReadStep s := by
  rw [row.exec, channelStep, inStep_ok here.1, throughRa_ok here.2, takeInbound_eq head]
  exact if_pos rfl

/-- i is the row of this whole-buffer code word (30_encoding R105). -/
def IsCodeRow (c : Word) (i : Instr) : Prop :=
  (i = .codeResponse ∧ c = 0x80000000#32) ∨ (i = .codeResponseError ∧ c = 0x80000001#32) ∨
    (i = .codeRequest ∧ c = 0#32) ∨ (i = .codeUnknown c ∧ c ≠ 0x80000000#32 ∧ c ≠ 0x80000001#32 ∧ c ≠ 0#32)

theorem IsCodeRow.exec {c : Word} {i : Instr} (h : IsCodeRow c i) (s : State) : exec i s = codeStep c s := by
  rcases h with ⟨rfl, rfl⟩ | ⟨rfl, rfl⟩ | ⟨rfl, rfl⟩ | ⟨rfl, notResponse, notError, notRequest⟩
  · rfl
  · rfl
  · rfl
  · exact if_neg fun named => named.elim notRequest (·.elim notResponse notError)

theorem exec_codeRow {s : State} {q : List Word} {c : Word} {i : Instr} (here : s.atStep .corrRead)
    (head : s.inq = s.sub :: q) (code : s.buf 1 = some c) (row : IsCodeRow c i) : exec i s = corrReadStep s := by
  rw [row.exec, codeStep, inStep_ok here.1, throughRa_ok here.2, takeInbound_eq head]
  exact if_pos ⟨(responseMatches_iff s.sub s.sub).mpr rfl, code⟩

/-- TAG_CHECK of a tag index in range tests bit 31 of the tag's code word (42_readback R190). -/
theorem exec_tagCheck_inRange {s : State} {t : BitVec 8} {c : Word} (admitted : s.inRequest [.doneOk, .doneErr])
    (low : 2 ≤ t.toNat) (high : t.toNat ≤ 33) (code : s.buf (t.toNat + 2) = some c) :
    exec (.tagCheck t) s = .next { s with result := ⟨if c.getLsbD 31 then .ok else .tagNotAnswered, c⟩ } := by
  obtain ⟨idle, guard, phase⟩ := admitted
  exact hostTurn_next.mpr ⟨idle, cmdTagCheck_next.mpr ⟨guard, phase, tagVerdict_next.mpr ⟨⟨low, high⟩, c, code, rfl⟩⟩⟩

theorem exec_tagResponseBit (t : BitVec 8) (s : State) : exec (.tagResponseBit t) s = exec (.tagCheck t) s := rfl

/-- Settles O24: each row is the phase-step of its word, or TAG_CHECK, and does what that does. -/
theorem wireRowsAreTheStepsOfTheirWord : Obligations.WireRowsAreTheStepsOfTheirWord := by
  intro s
  refine ⟨?_, ?_, ?_, ?_, ?_, ?_, ?_, ?_, ?_⟩
  · intro here full left
    rw [exec_statusFull here full, submitPollStep_full_budgetLeft here full left]
  · intro here empty left
    rw [exec_statusEmpty here empty, corrPollStep_empty_budgetLeft here empty left]
  · intro here room
    rw [exec_submissionWordCh8 here, submitWriteStep_sends here room]
  · intro w q i here head foreign left row
    rw [exec_channelRow here head row, corrReadStep_foreign_budgetLeft here head foreign left]
  · intro here full spent
    rw [exec_statusFull here full, submitPollStep_full_budgetSpent here full spent]
  · intro here empty spent
    rw [exec_statusEmpty here empty, corrPollStep_empty_budgetSpent here empty spent]
  · intro w q i here head foreign spent row
    rw [exec_channelRow here head row, corrReadStep_foreign_budgetSpent here head foreign spent]
  · intro q c i here head code row
    have step : exec i s = corrReadStep s := by
      rcases row with channel | reserved | codeRow
      · exact exec_channelRow here head (.inl channel)
      · exact exec_channelRow here head (.inr reserved)
      · exact exec_codeRow here head code codeRow
    rw [step, corrReadStep_matching here head code]
  · intro t c admitted low high code
    rw [exec_tagResponseBit, exec_tagCheck_inRange admitted low high code]

end Sys2Proof.Machine
end

section
/-! PROOF. FindEnd in both modes: the walk over whole tags and the scan for a zero word (40_buffer_build R143, R144). -/

namespace Sys2Proof.Machine

/-! ### Where the walk stops -/

/-- The walk goes no further than index q, and what FindEnd answers there (40_buffer_build R143). -/
inductive WalkStops (s : State) : Nat → ScanEnd → Prop where
  | terminator {q : Nat} (inside : q < 36) (zero : s.buf q = some 0#32) : WalkStops s q (.found q)
  | outside {q : Nat} (outside : 36 ≤ q) : WalkStops s q .noTerminator
  | lastWord {id : Word} (hid : s.buf 35 = some id) (nonzero : id ≠ 0#32) : WalkStops s 35 .noTerminator
  | noId {q : Nat} (inside : q < 36) (hid : s.buf q = none) : WalkStops s q .unwritten
  | noSize {q : Nat} {id : Word} (inside : q + 1 < 36) (hid : s.buf q = some id) (nonzero : id ≠ 0#32)
      (hsize : s.buf (q + 1) = none) : WalkStops s q .unwritten

theorem WalkStops.walkTags_eq {s : State} {q : Nat} {e : ScanEnd} (h : WalkStops s q e) {fuel : Nat}
    (hf : 36 ≤ fuel + q) : walkTags s fuel q = e := by
  cases fuel with
  | zero =>
    cases h with
    | outside => rfl
    | _ => omega
  | succ fuel =>
    cases h with
    | terminator inside zero => simp [walkTags, Nat.not_le.mpr inside, zero]
    | outside outside => simp [walkTags, outside]
    | lastWord hid nonzero => simp [walkTags, hid, nonzero]
    | noId inside hid => simp [walkTags, Nat.not_le.mpr inside, hid]
    | noSize inside hid nonzero hsize =>
      simp [walkTags, Nat.not_le.mpr (Nat.lt_of_succ_lt inside), Nat.not_le.mpr inside, hid, nonzero, hsize]

/-- A tag inside the buffer is stepped over by its own length. -/
theorem walkTags_step {s : State} {p : Nat} {id size : Word} (inside : p + 1 < 36) (hid : s.buf p = some id)
    (nonzero : id ≠ 0#32) (hsize : s.buf (p + 1) = some size) (fuel : Nat) :
    walkTags s (fuel + 1) p = walkTags s fuel (p + tagLength size) := by
  simp [walkTags, Nat.not_le.mpr (Nat.lt_of_succ_lt inside), Nat.not_le.mpr inside, hid, nonzero, hsize]

theorem three_le_tagLength (size : Word) : 3 ≤ tagLength size := Nat.le_add_right 3 _

/-- The walk follows a path of whole tags to its end. -/
theorem TagPath.walkTags_eq {s : State} {p q : Nat} (path : TagPath s p q) {e : ScanEnd} (h : WalkStops s q e)
    {fuel : Nat} (hf : 36 ≤ fuel + p) : walkTags s fuel p = e := by
  induction path generalizing fuel with
  | here p => exact h.walkTags_eq hf
  | @tag p q id size inside hid nonzero hsize _ ih =>
    have inside : p + 1 < 36 := inside
    have := three_le_tagLength size
    obtain ⟨fuel, rfl⟩ : ∃ n, fuel = n + 1 := ⟨fuel - 1, by omega⟩
    rw [walkTags_step inside hid nonzero hsize, ih h (by omega)]

/-- Wherever it starts, the walk comes to a place where it stops. -/
theorem exists_walkStops (s : State) {fuel p : Nat} (hf : 36 ≤ fuel + p) :
    ∃ q, TagPath s p q ∧ WalkStops s q (walkTags s fuel p) := by
  induction fuel generalizing p with
  | zero => exact ⟨p, .here p, .outside (by omega)⟩
  | succ fuel ih =>
    have stop {e : ScanEnd} (h : WalkStops s p e) : ∃ q, TagPath s p q ∧ WalkStops s q (walkTags s (fuel + 1) p) :=
      ⟨p, .here p, by rwa [h.walkTags_eq hf]⟩
    rcases Nat.lt_or_ge p 36 with inside | outside
    · cases hid : s.buf p with
      | none => exact stop (.noId inside hid)
      | some id =>
        by_cases zero : id = 0#32
        · exact stop (.terminator inside (zero ▸ hid))
        · rcases Nat.lt_or_ge (p + 1) 36 with inside | last
          · cases hsize : s.buf (p + 1) with
            | none => exact stop (.noSize inside hid zero hsize)
            | some size =>
              have := three_le_tagLength size
              obtain ⟨q, path, h⟩ := ih (p := p + tagLength size) (by omega)
              exact ⟨q, .tag inside hid zero hsize path, by rwa [walkTags_step inside hid zero hsize]⟩
          · obtain rfl : p = 35 := by omega
            exact stop (.lastWord hid zero)
    · exact stop (.outside outside)

/-- FindEnd under tag_walk answers what the walk comes to from the first tag slot. -/
theorem findEnd_walk_iff {s : State} (mode : s.cfg.scanMode = .tagWalk) {e : ScanEnd} :
    findEnd s = e ↔ ∃ q, TagPath s 2 q ∧ WalkStops s q e := by
  have walk : findEnd s = walkTags s 36 2 := by simp only [findEnd, mode]
  rw [walk]
  constructor
  · rintro rfl
    exact exists_walkStops s (by decide)
  · rintro ⟨q, path, h⟩
    exact path.walkTags_eq h (by decide)

theorem findEnd_walk_found_iff {s : State} (mode : s.cfg.scanMode = .tagWalk) {p : Nat} :
    findEnd s = .found p ↔ TagPath s 2 p ∧ p < 36 ∧ s.buf p = some 0#32 := by
  rw [findEnd_walk_iff mode]
  constructor
  · rintro ⟨_, path, ⟨inside, zero⟩⟩
    exact ⟨path, inside, zero⟩
  · rintro ⟨path, inside, zero⟩
    exact ⟨p, path, .terminator inside zero⟩

theorem findEnd_walk_noTerminator_iff {s : State} (mode : s.cfg.scanMode = .tagWalk) :
    findEnd s = .noTerminator ↔
      ∃ q, TagPath s 2 q ∧ (36 ≤ q ∨ (q = 35 ∧ ∃ id, s.buf q = some id ∧ id ≠ 0#32)) := by
  rw [findEnd_walk_iff mode]
  refine exists_congr fun q => and_congr_right fun _ => ?_
  constructor
  · intro h
    cases h with
    | outside outside => exact .inl outside
    | lastWord hid nonzero => exact .inr ⟨rfl, _, hid, nonzero⟩
  · rintro (outside | ⟨rfl, id, hid, nonzero⟩)
    · exact .outside outside
    · exact .lastWord hid nonzero

/-! ### Where the scan stops -/

/-- The words from index p up to q, without q, are there and are not zero. -/
def State.NonzeroRun (s : State) (p q : Nat) : Prop := ∀ j, p ≤ j → j < q → ∃ w, s.buf j = some w ∧ w ≠ 0#32

theorem State.nonzeroRun_self (s : State) (p : Nat) : s.NonzeroRun p p := fun _ _ _ => by omega

theorem State.NonzeroRun.cons {s : State} {p q : Nat} {w : Word} (hw : s.buf p = some w) (nonzero : w ≠ 0#32)
    (run : s.NonzeroRun (p + 1) q) : s.NonzeroRun p q := by
  intro j hp hq
  rcases Nat.eq_or_lt_of_le hp with rfl | hp
  · exact ⟨w, hw, nonzero⟩
  · exact run j hp hq

theorem State.NonzeroRun.tail {s : State} {p q : Nat} (run : s.NonzeroRun p q) : s.NonzeroRun (p + 1) q :=
  fun j hp hq => run j (Nat.le_of_succ_le hp) hq

/-- The scan goes no further than index q, and what FindEnd answers there (40_buffer_build R144). -/
inductive ScanStops (s : State) : Nat → ScanEnd → Prop where
  | terminator {q : Nat} (inside : q < 36) (zero : s.buf q = some 0#32) : ScanStops s q (.found q)
  | outside : ScanStops s 36 .noTerminator
  | noWord {q : Nat} (inside : q < 36) (hw : s.buf q = none) : ScanStops s q .unwritten

theorem ScanStops.le {s : State} {q : Nat} {e : ScanEnd} (h : ScanStops s q e) : q ≤ 36 := by
  cases h with
  | terminator inside _ => exact Nat.le_of_lt inside
  | outside => exact Nat.le_refl 36
  | noWord inside _ => exact Nat.le_of_lt inside

theorem ScanStops.scanWords_eq {s : State} {q : Nat} {e : ScanEnd} (h : ScanStops s q e) {fuel : Nat}
    (hf : 36 ≤ fuel + q) : scanWords s fuel q = e := by
  cases fuel with
  | zero =>
    cases h with
    | outside => rfl
    | _ => omega
  | succ fuel =>
    cases h with
    | terminator inside zero => simp [scanWords, Nat.not_le.mpr inside, zero]
    | outside => simp [scanWords]
    | noWord inside hw => simp [scanWords, Nat.not_le.mpr inside, hw]

theorem scanWords_step {s : State} {p : Nat} {w : Word} (inside : p < 36) (hw : s.buf p = some w) (nonzero : w ≠ 0#32)
    (fuel : Nat) : scanWords s (fuel + 1) p = scanWords s fuel (p + 1) := by
  simp [scanWords, Nat.not_le.mpr inside, hw, nonzero]

theorem exists_scanStops (s : State) {fuel p : Nat} (hp : p ≤ 36) (hf : 36 ≤ fuel + p) :
    ∃ q, p ≤ q ∧ s.NonzeroRun p q ∧ ScanStops s q (scanWords s fuel p) := by
  induction fuel generalizing p with
  | zero =>
    obtain rfl : p = 36 := by omega
    exact ⟨36, Nat.le_refl _, s.nonzeroRun_self 36, .outside⟩
  | succ fuel ih =>
    have stop {e : ScanEnd} (h : ScanStops s p e) :
        ∃ q, p ≤ q ∧ s.NonzeroRun p q ∧ ScanStops s q (scanWords s (fuel + 1) p) :=
      ⟨p, Nat.le_refl p, s.nonzeroRun_self p, by rwa [h.scanWords_eq hf]⟩
    rcases Nat.lt_or_eq_of_le hp with inside | rfl
    · cases hw : s.buf p with
      | none => exact stop (.noWord inside hw)
      | some w =>
        by_cases zero : w = 0#32
        · exact stop (.terminator inside (zero ▸ hw))
        · obtain ⟨q, le, run, h⟩ := ih (p := p + 1) inside (by omega)
          exact ⟨q, Nat.le_of_succ_le le, run.cons hw zero, by rwa [scanWords_step inside hw zero]⟩
    · exact stop .outside

/-- The scan goes along a run of nonzero words to its end. -/
theorem State.NonzeroRun.scanWords_eq {s : State} {p q : Nat} (run : s.NonzeroRun p q) (hp : p ≤ q) {e : ScanEnd}
    (h : ScanStops s q e) {fuel : Nat} (hf : 36 ≤ fuel + p) : scanWords s fuel p = e := by
  induction fuel generalizing p with
  | zero =>
    obtain rfl : p = q := Nat.le_antisymm hp (Nat.le_trans h.le (by omega))
    exact h.scanWords_eq hf
  | succ fuel ih =>
    rcases Nat.eq_or_lt_of_le hp with rfl | hlt
    · exact h.scanWords_eq hf
    · obtain ⟨w, hw, nonzero⟩ := run p (Nat.le_refl p) hlt
      rw [scanWords_step (Nat.lt_of_lt_of_le hlt h.le) hw nonzero, ih run.tail hlt (by omega)]

/-- FindEnd under word_scan answers what stands at the end of the run of nonzero words from the first tag slot. -/
theorem findEnd_scan_iff {s : State} (mode : s.cfg.scanMode = .wordScan) {e : ScanEnd} :
    findEnd s = e ↔ ∃ q, 2 ≤ q ∧ s.NonzeroRun 2 q ∧ ScanStops s q e := by
  have scan : findEnd s = scanWords s 36 2 := by simp only [findEnd, mode]
  rw [scan]
  constructor
  · rintro rfl
    exact exists_scanStops s (by decide) (by decide)
  · rintro ⟨q, le, run, h⟩
    exact run.scanWords_eq le h (by decide)

theorem findEnd_scan_found_iff {s : State} (mode : s.cfg.scanMode = .wordScan) {p : Nat} :
    findEnd s = .found p ↔ 2 ≤ p ∧ p < 36 ∧ s.buf p = some 0#32 ∧ s.NonzeroRun 2 p := by
  rw [findEnd_scan_iff mode]
  constructor
  · rintro ⟨_, le, run, ⟨inside, zero⟩⟩
    exact ⟨le, inside, zero, run⟩
  · rintro ⟨le, inside, zero, run⟩
    exact ⟨p, le, run, .terminator inside zero⟩

theorem findEnd_scan_noTerminator_iff {s : State} (mode : s.cfg.scanMode = .wordScan) :
    findEnd s = .noTerminator ↔ s.NonzeroRun 2 36 := by
  rw [findEnd_scan_iff mode]
  constructor
  · rintro ⟨_, _, run, ⟨⟩⟩
    exact run
  · intro run
    exact ⟨36, by decide, run, .outside⟩

/-! ### Both modes -/

/-- A zero word in the first tag slot is the terminator in both modes. -/
theorem findEnd_of_firstTag_zero {s : State} (zero : s.buf 2 = some 0#32) : findEnd s = .found 2 := by
  cases mode : s.cfg.scanMode with
  | tagWalk => exact (findEnd_walk_found_iff mode).mpr ⟨.here 2, by decide, zero⟩
  | wordScan => exact (findEnd_scan_found_iff mode).mpr ⟨Nat.le_refl 2, by decide, zero, s.nonzeroRun_self 2⟩

end Sys2Proof.Machine
end

section
/-! PROOF. NEW_BUFFER and WRITE_TAG, one command at a time: what each leaves, and BufferFull (40_buffer_build R140, R143
to R148). -/

namespace Sys2Proof.Machine

/-- WRITE_TAG that is admitted runs. -/
theorem exec_writeTag_admitted {s : State} (admitted : s.inRequest [.build]) (ws : List Word) :
    exec (.writeTag ws) s = writeTag ws s := by
  obtain ⟨idle, guard, phase⟩ := admitted
  exact (hostTurn_idle idle _).trans (admitInRequest_ok guard phase _)

/-- WRITE_TAG of a list that does not fit raises BufferFull at the place of the terminator (40_buffer_build R145). -/
theorem exec_writeTag_tooLong {s : State} {ws : List Word} {p : Nat} (admitted : s.inRequest [.build])
    (hp : findEnd s = .found p) (long : 36 < p + ws.length + s.cfg.termReserve.val) :
    exec (.writeTag ws) s = .next (s.raise .bufferFull (BitVec.ofNat 32 p)) :=
  (exec_writeTag_admitted admitted ws).trans (writeTag_full hp long)

/-- WRITE_TAG without a terminator raises BufferFull at the end of the buffer (40_buffer_build R143, R144). -/
theorem exec_writeTag_noTerminator {s : State} (admitted : s.inRequest [.build]) (none : findEnd s = .noTerminator)
    (ws : List Word) : exec (.writeTag ws) s = .next (s.raise .bufferFull 36#32) := by
  rw [exec_writeTag_admitted admitted, writeTag, none]

/-- Settles O5: FindEnd answers what the walk comes to, and `exec_writeTag_noTerminator`. -/
theorem walkFindsTheTerminator : Obligations.WalkFindsTheTerminator :=
  fun _ mode => ⟨fun _ => findEnd_walk_found_iff mode, findEnd_walk_noTerminator_iff mode,
    fun none admitted => exec_writeTag_noTerminator admitted none⟩

/-- Settles O6: FindEnd answers what ends the run of nonzero words, and `exec_writeTag_noTerminator`. -/
theorem scanFindsTheFirstZeroWord : Obligations.ScanFindsTheFirstZeroWord :=
  fun _ mode => ⟨fun _ => findEnd_scan_found_iff mode, findEnd_scan_noTerminator_iff mode,
    fun none admitted => exec_writeTag_noTerminator admitted none⟩

/-- Settles O3: the two ways WRITE_TAG ends with BufferFull, each of which sets RESULT alone. -/
theorem writeTagBufferFullLeavesNoTrace : Obligations.WriteTagBufferFullLeavesNoTrace :=
  fun _ ws admitted => ⟨fun _ hp long => exec_writeTag_tooLong admitted hp long,
    fun none => exec_writeTag_noTerminator admitted none ws⟩

/-- Settles O2: the list fits, so it is copied (`exec_writeTag_fits`), and what copying leaves is the list, SIZE and every
other byte. -/
theorem writeTagCopiesTheList : Obligations.WriteTagCopiesTheList := by
  intro s ws p size admitted hp fits h0
  have hp1 : 1 ≤ p := Nat.le_of_succ_le (findEnd_found hp).1
  exact ⟨copyTag s p ws size, exec_writeTag_fits admitted hp fits h0, copyTag_eq s p ws size,
    fun _ => copyTag_buf_list s hp1 ws size, copyTag_buf_zero s p ws size,
    fun _ => copyTag_readByte_other s p ws size⟩

/-- Settles O1: the words NEW_BUFFER leaves, in which the first tag slot is zero, and the bytes it leaves alone. -/
theorem newBufferMakesEmptyMessage : Obligations.NewBufferMakesEmptyMessage :=
  ⟨rfl, fun s ready => ⟨newBuffer s, exec_newBuffer_ready ready, newBuffer_eq s, newBuffer_buf_zero s,
    fun _ => newBuffer_buf_rest s, findEnd_of_firstTag_zero (newBuffer_buf_rest s (by decide) (by decide)),
    fun _ => newBuffer_readByte_other s⟩⟩

end Sys2Proof.Machine
end

section
/-! PROOF. Sequences of WRITE_TAGs after NEW_BUFFER: every one completes, SIZE counts the appended words, and well-formed
tags keep the zero sentinel (40_buffer_build R147, R149). -/

namespace Sys2Proof.Machine

/-! ### What a sequence of WRITE_TAGs makes of the buffer -/

/-- A state that WRITE_TAGs make of s₀, and the lists they have appended, in order. -/
inductive BuiltFrom (s₀ : State) : State → List (List Word) → Prop where
  | start : BuiltFrom s₀ s₀ []
  | full {s : State} {done : List (List Word)} (built : BuiltFrom s₀ s done) (info : Word) :
      BuiltFrom s₀ (s.raise .bufferFull info) done
  | copied {s : State} {done : List (List Word)} (built : BuiltFrom s₀ s done) {ws : List Word} {p : Nat} {size : Word}
      (hp : findEnd s = .found p) (fits : p + ws.length + s.cfg.termReserve.val ≤ 36) (h0 : s.buf 0 = some size) :
      BuiltFrom s₀ (copyTag s p ws size) (done ++ [ws])

/-- WRITE_TAGs write memory and RESULT only. -/
theorem BuiltFrom.frame {s₀ s : State} {done : List (List Word)} (built : BuiltFrom s₀ s done) :
    s = { s₀ with mem := s.mem, result := s.result } := by
  induction built with
  | start => rfl
  | @full s _ _ info ih => exact congrArg (State.raise · .bufferFull info) ih
  | @copied s _ _ ws p size _ _ _ ih =>
    exact congrArg (fun u => { u with mem := (copyTag s p ws size).mem, result := (copyTag s p ws size).result }) ih

theorem BuiltFrom.cfg {s₀ s : State} {done : List (List Word)} (built : BuiltFrom s₀ s done) : s.cfg = s₀.cfg := by
  rw [built.frame]

/-- WRITE_TAGs leave the next command admitted where the first was. -/
theorem BuiltFrom.inRequest {s₀ s : State} {done : List (List Word)} (built : BuiltFrom s₀ s done)
    (admitted : s₀.inRequest [.build]) : s.inRequest [.build] := by
  rw [built.frame]
  exact admitted

theorem copyTag_buf_isSome (s : State) (p : Nat) (ws : List Word) (size : Word) {i : Nat}
    (h : (s.buf i).isSome = true) : ((copyTag s p ws size).buf i).isSome = true :=
  State.isSome_buf_writeBuf (s := s.writeBuf p ws) 0 _ (State.isSome_buf_writeBuf p ws h)

theorem BuiltFrom.present {s₀ s : State} {done : List (List Word)} (built : BuiltFrom s₀ s done)
    (present : ∀ i < 36, (s₀.buf i).isSome = true) : ∀ i < 36, (s.buf i).isSome = true := by
  induction built with
  | start => exact present
  | full _ _ ih => exact ih
  | copied _ _ _ _ ih => exact fun i hi => copyTag_buf_isSome _ _ _ _ (ih i hi)

/-- Where every buffer word holds a value, WRITE_TAG completes: it raises BufferFull, or appends its list. -/
theorem BuiltFrom.exec_writeTag {s₀ s : State} {done : List (List Word)} (built : BuiltFrom s₀ s done)
    (admitted : s₀.inRequest [.build]) (present : ∀ i < 36, (s₀.buf i).isSome = true) (ws : List Word) :
    ∃ t, exec (.writeTag ws) s = .next t ∧ BuiltFrom s₀ t (if t.result.kind = .ok then done ++ [ws] else done) := by
  have admitted := built.inRequest admitted
  have present := built.present present
  cases hp : findEnd s with
  | unwritten => exact absurd hp (findEnd_ne_unwritten present)
  | noTerminator => exact ⟨_, exec_writeTag_noTerminator admitted hp ws, built.full _⟩
  | found p =>
    rcases Nat.lt_or_ge 36 (p + ws.length + s.cfg.termReserve.val) with long | fits
    · exact ⟨_, exec_writeTag_tooLong admitted hp long, built.full _⟩
    · obtain ⟨size, h0⟩ := Option.isSome_iff_exists.mp (present 0 (by decide))
      exact ⟨_, exec_writeTag_fits admitted hp fits h0, built.copied hp fits h0⟩

theorem appendAll_cons {s t : State} {ws : List Word} (run : exec (.writeTag ws) s = .next t)
    (wss done : List (List Word)) :
    appendAll (ws :: wss) s done = appendAll wss t (if t.result.kind = .ok then done ++ [ws] else done) := by
  rw [appendAll, run]

/-- Every sequence of WRITE_TAGs completes, and what it has appended is lists of the sequence, in order. -/
theorem BuiltFrom.appendAll {s₀ : State} (admitted : s₀.inRequest [.build])
    (present : ∀ i < 36, (s₀.buf i).isSome = true) (wss : List (List Word)) {s : State} {done : List (List Word)}
    (built : BuiltFrom s₀ s done) :
    ∃ u l, appendAll wss s done = some (u, done ++ l) ∧ l.Sublist wss ∧ BuiltFrom s₀ u (done ++ l) := by
  induction wss generalizing s done with
  | nil => exact ⟨s, [], by rw [Machine.appendAll, List.append_nil], .slnil, by rwa [List.append_nil]⟩
  | cons ws wss ih =>
    obtain ⟨t, run, built⟩ := built.exec_writeTag admitted present ws
    rw [appendAll_cons run]
    by_cases ok : t.result.kind = .ok
    · rw [if_pos ok] at built ⊢
      obtain ⟨u, l, all, sub, built⟩ := ih built
      rw [List.append_assoc, List.singleton_append] at all built
      exact ⟨u, ws :: l, all, sub.cons_cons ws, built⟩
    · rw [if_neg ok] at built ⊢
      obtain ⟨u, l, all, sub, built⟩ := ih built
      exact ⟨u, l, all, sub.cons ws, built⟩

theorem newBuffer_inRequest {s : State} (ready : s.ready newBufferPhases) : (newBuffer s).inRequest [.build] := by
  obtain ⟨idle, guard, -⟩ := ready
  have noRecipe : s.recipe = none := (State.busy_eq_false idle).2
  refine ⟨?_, (newBuffer_holdsRequest s).trans guard, List.mem_singleton.mpr (newBuffer_phase s)⟩
  simp [State.busy, noRecipe, Phase.inCall]

/-- NEW_BUFFER and then any sequence of WRITE_TAGs: all complete. -/
theorem exists_builtFrom_newBuffer {s : State} (ready : s.ready newBufferPhases) (wss : List (List Word)) :
    ∃ u done, appendAll wss (newBuffer s) [] = some (u, done) ∧ done.Sublist wss ∧ BuiltFrom (newBuffer s) u done :=
  BuiltFrom.start.appendAll (newBuffer_inRequest ready) (fun _ => newBuffer_isSome s) wss

/-! ### SIZE and CODE -/

/-- SIZE of the new list: four bytes more for each of its words, modulo 2^32. -/
theorem declaredSize_append (done : List (List Word)) (ws : List Word) :
    BitVec.ofNat 32 (8 + 4 * (done ++ [ws]).flatten.length) =
      BitVec.ofNat 32 (8 + 4 * done.flatten.length) + BitVec.ofNat 32 (4 * ws.length) := by
  rw [← BitVec.ofNat_add, List.flatten_append, List.flatten_singleton, List.length_append, Nat.mul_add, Nat.add_assoc]

theorem BuiltFrom.header {s u : State} {done : List (List Word)} (built : BuiltFrom (newBuffer s) u done) :
    u.buf 0 = some (BitVec.ofNat 32 (8 + 4 * done.flatten.length)) ∧ u.buf 1 = some 0#32 := by
  induction built with
  | start => exact ⟨newBuffer_buf_zero s, newBuffer_buf_rest s (by decide) (by decide)⟩
  | full _ _ ih => exact ih
  | @copied u done _ ws p size hp _ h0 ih =>
    obtain ⟨size₀, code⟩ := ih
    have hp2 : 1 < p := (findEnd_found hp).1
    obtain rfl : size = BitVec.ofNat 32 (8 + 4 * done.flatten.length) := Option.some.inj (h0.symm.trans size₀)
    exact ⟨by rw [copyTag_buf_zero, declaredSize_append],
      (copyTag_buf_other u ws _ Nat.one_ne_zero (.inl hp2)).trans code⟩

/-- Settles O7: every WRITE_TAG completes and writes memory and RESULT only, and each copy adds its words to SIZE and
begins after CODE. -/
theorem declaredSizeCountsTheAppendedWords : Obligations.DeclaredSizeCountsTheAppendedWords := by
  intro s wss ready
  obtain ⟨u, done, all, sub, built⟩ := exists_builtFrom_newBuffer ready wss
  exact ⟨newBuffer s, u, done, exec_newBuffer_ready ready, all, sub, built.frame, built.header⟩

/-! ### Tags in the buffer -/

/-- A well-formed list has a nonzero identifier and a size word, holds its whole tag, and is zero after it. -/
theorem wellFormedTag_shape {ws : List Word} (h : wellFormedTag ws = true) :
    ∃ id, ws[0]? = some id ∧ id ≠ 0#32 ∧ ws[1]? = some (ws.getD 1 0#32) ∧
      tagLength (ws.getD 1 0#32) ≤ ws.length ∧
      ∀ j (hj : j < ws.length), tagLength (ws.getD 1 0#32) ≤ j → ws[j] = 0#32 := by
  match ws, h with
  | id :: size :: code :: values, h =>
    obtain ⟨nonzero, len⟩ : id ≠ 0#32 ∧ (values.length = ceil4 size.toNat ∨
        values.length = ceil4 size.toNat + 1 ∧ (id :: size :: code :: values).getLast? = some 0#32) := by
      simpa only [wellFormedTag, Bool.and_eq_true, Bool.or_eq_true, decide_eq_true_eq] using h
    have total : (id :: size :: code :: values).length = 3 + values.length := Nat.add_comm values.length 3
    have tag : tagLength ((id :: size :: code :: values).getD 1 0#32) = 3 + ceil4 size.toNat := rfl
    refine ⟨id, rfl, nonzero, rfl, by omega, fun j hj behind => ?_⟩
    obtain ⟨len, last⟩ := len.resolve_left (by omega)
    obtain rfl : j = (id :: size :: code :: values).length - 1 := by omega
    rw [List.getLast?_eq_getElem?, List.getElem?_eq_getElem hj] at last
    exact Option.some.inj last

/-- The tags take room, so the next index is not before the first. -/
theorem State.tagsAt_le {s : State} {p z : Nat} {wss : List (List Word)} (h : s.tagsAt p wss z) : p ≤ z := by
  induction wss generalizing p with
  | nil => exact Nat.le_of_eq h
  | cons ws wss ih => exact Nat.le_trans (Nat.le_add_right p _) (ih h.2)

/-- Where the tags stand depends on the words they take only. -/
theorem State.tagsAt_congr {s t : State} {p z : Nat} {wss : List (List Word)}
    (same : ∀ i, p ≤ i → i < z → t.buf i = s.buf i) (h : s.tagsAt p wss z) : t.tagsAt p wss z := by
  induction wss generalizing p with
  | nil => exact h
  | cons ws wss ih =>
    obtain ⟨tag, rest⟩ := h
    have le := State.tagsAt_le rest
    exact ⟨fun j hj => (same (p + j) (by omega) (by omega)).trans (tag j hj),
      ih (fun i hp hz => same i (by omega) hz) rest⟩

theorem State.tagsAt_concat {s : State} {p z : Nat} {wss : List (List Word)} {ws : List Word} (h : s.tagsAt p wss z)
    (tag : ∀ j < tagLength (ws.getD 1 0#32), s.buf (z + j) = ws[j]?) :
    s.tagsAt p (wss ++ [ws]) (z + tagLength (ws.getD 1 0#32)) := by
  induction wss generalizing p with
  | nil => exact Eq.symm h ▸ ⟨tag, rfl⟩
  | cons _ _ ih => exact ⟨h.1, ih h.2⟩

/-- Whole well-formed tags are what the walk steps over. -/
theorem TagPath.of_tagsAt {s : State} {p z : Nat} {wss : List (List Word)} (wf : ∀ ws ∈ wss, wellFormedTag ws = true)
    (inside : z < 36) (h : s.tagsAt p wss z) : TagPath s p z := by
  induction wss generalizing p with
  | nil =>
    obtain rfl : p = z := h
    exact .here p
  | cons ws wss ih =>
    obtain ⟨wfHead, wf⟩ := List.forall_mem_cons.mp wf
    obtain ⟨tag, rest⟩ := h
    obtain ⟨id, hid, nonzero, hsize, -, -⟩ := wellFormedTag_shape wfHead
    have three := three_le_tagLength (ws.getD 1 0#32)
    have le := State.tagsAt_le rest
    exact .tag (show p + 1 < 36 by omega) ((tag 0 (by omega)).trans hid) nonzero ((tag 1 (by omega)).trans hsize)
      (ih wf rest)

/-- The appended tags stand one after another from the first tag slot to index z, and from there on every word is zero. -/
structure State.Sentinel (s : State) (done : List (List Word)) (z : Nat) : Prop where
  inside : z < 36
  tags : s.tagsAt 2 done z
  zeros : ∀ j, z ≤ j → j < 36 → s.buf j = some 0#32

theorem State.Sentinel.findEnd_eq {s : State} {done : List (List Word)} {z : Nat} (h : s.Sentinel done z)
    (mode : s.cfg.scanMode = .tagWalk) (wf : ∀ ws ∈ done, wellFormedTag ws = true) : findEnd s = .found z :=
  (findEnd_walk_found_iff mode).mpr ⟨.of_tagsAt wf h.inside h.tags, h.inside, h.zeros z (Nat.le_refl z) h.inside⟩

/-- A well-formed list copied to the sentinel moves it behind its own tag: the words after the tag are the list's own
terminator, if it brings one, and zeros that were there. -/
theorem State.Sentinel.copyTag {s : State} {done : List (List Word)} {z : Nat} (h : s.Sentinel done z) {ws : List Word}
    (wf : wellFormedTag ws = true) (hz : 2 ≤ z) (fits : z + ws.length < 36) (size : Word) :
    (copyTag s z ws size).Sentinel (done ++ [ws]) (z + tagLength (ws.getD 1 0#32)) := by
  obtain ⟨-, -, -, -, whole, after⟩ := wellFormedTag_shape wf
  have same {i : Nat} (h0 : i ≠ 0) (hi : i < z ∨ z + ws.length ≤ i) : (Machine.copyTag s z ws size).buf i = s.buf i :=
    copyTag_buf_other s ws size h0 hi
  have list {j : Nat} (hj : j < ws.length) : (Machine.copyTag s z ws size).buf (z + j) = some ws[j] :=
    copyTag_buf_list s (Nat.le_of_succ_le hz) ws size hj
  refine ⟨by omega, ?_, ?_⟩
  · refine State.tagsAt_concat (State.tagsAt_congr (fun i hp hi => same (by omega) (.inl hi)) h.tags) fun j hj => ?_
    have hj : j < ws.length := by omega
    rw [list hj, List.getElem?_eq_getElem hj]
  · intro j hj inside
    rcases Nat.lt_or_ge j (z + ws.length) with inList | behind
    · obtain ⟨k, rfl⟩ : ∃ k, j = z + k := ⟨j - z, by omega⟩
      have hk : k < ws.length := by omega
      rw [list hk, after k hk (by omega)]
    · rw [same (by omega) (.inr behind), h.zeros j (by omega) inside]

theorem BuiltFrom.sentinel {s u : State} {done : List (List Word)} (built : BuiltFrom (newBuffer s) u done)
    (mode : s.cfg.scanMode = .tagWalk) (reserve : s.cfg.termReserve = 1)
    (wf : ∀ ws ∈ done, wellFormedTag ws = true) : ∃ z, u.Sentinel done z := by
  induction built with
  | start => exact ⟨2, by decide, rfl, fun j hj => newBuffer_buf_rest s (Nat.le_of_succ_le hj)⟩
  | @full u _ _ _ ih =>
    obtain ⟨z, h⟩ := ih wf
    exact ⟨z, h.inside, State.tagsAt_congr (s := u) (fun _ _ _ => rfl) h.tags, h.zeros⟩
  | @copied u done built ws p size hp fits _ ih =>
    obtain ⟨wf, wfLast⟩ := List.forall_mem_append.mp wf
    obtain ⟨z, h⟩ := ih wf
    have cfg : u.cfg = s.cfg := built.cfg.trans (newBuffer_cfg s)
    rw [← cfg] at mode reserve
    obtain rfl : z = p := ScanEnd.found.inj ((h.findEnd_eq mode wf).symm.trans hp)
    rw [reserve] at fits
    exact ⟨_, h.copyTag (wfLast ws (List.mem_singleton_self ws)) (findEnd_found hp).1 fits size⟩

/-- Settles O8: the sentinel is kept by every copy (`State.Sentinel.copyTag`), and the walk over whole tags comes to it. -/
theorem wellFormedTagsKeepTheZeroSentinel : Obligations.WellFormedTagsKeepTheZeroSentinel := by
  intro s wss ready mode reserve wf
  obtain ⟨u, done, all, sub, built⟩ := exists_builtFrom_newBuffer ready wss
  have wf : ∀ ws ∈ done, wellFormedTag ws = true := fun ws h => wf ws (sub.subset h)
  obtain ⟨z, h⟩ := built.sentinel mode reserve wf
  have mode : u.cfg.scanMode = .tagWalk := by rw [built.cfg, newBuffer_cfg, mode]
  exact ⟨newBuffer s, u, done, z, exec_newBuffer_ready ready, all, ⟨h.inside, h.findEnd_eq mode wf, h.zeros⟩, h.tags⟩

end Sys2Proof.Machine
end

section
/-! PROOF. CALL accepted, and its phase-steps as instructions: what each does under its condition (41_call R160 to R170,
R175, R177). -/

namespace Sys2Proof.Machine

/-- Settles O9: the command is admitted, and acceptance sets POLLS and PHASE. -/
theorem callIsAccepted : Obligations.CallIsAccepted := by
  rintro s ⟨idle, guard, phase⟩
  exact hostTurn_next.mpr ⟨idle, cmdCall_next.mpr ⟨guard, List.mem_singleton.mp phase, rfl⟩⟩

theorem submitPollStep_room {s : State} (here : s.atStep .submitPoll) (room : s.outq.length ≠ s.cfg.fifoDepth) :
    submitPollStep s = .next { s with phase := .submitWrite, draws := s.draws + 1 } :=
  submitPollStep_next.mpr ⟨here.1, here.2, (if_neg room).symm⟩

theorem corrPollStep_word {s : State} (here : s.atStep .corrPoll) (word : s.inq ≠ []) :
    corrPollStep s = .next { s with phase := .corrRead, draws := s.draws + 1 } :=
  corrPollStep_next.mpr ⟨here.1, here.2, (if_neg word).symm⟩

/-- Settles O10: FULL decides between the next phase-step and a failed poll. -/
theorem submitPollWaitsWhileFull : Obligations.SubmitPollWaitsWhileFull :=
  fun _ here => ⟨submitPollStep_room here, submitPollStep_full_budgetLeft here⟩

/-- Settles O11: SUBMIT_WRITE with room in OUTQ. -/
theorem submitWriteSendsTheSubmissionWord : Obligations.SubmitWriteSendsTheSubmissionWord :=
  fun _ here room => submitWriteStep_sends here room

/-- Settles O13: EMPTY decides between the next phase-step and a failed poll. -/
theorem corrPollWaitsWhileEmpty : Obligations.CorrPollWaitsWhileEmpty :=
  fun _ here => ⟨corrPollStep_word here, corrPollStep_empty_budgetLeft here⟩

/-- Settles O15: a foreign word counts as a failed poll of the correlate loop. -/
theorem foreignResponseIsDiscarded : Obligations.ForeignResponseIsDiscarded :=
  fun _ _ _ here head foreign left => corrReadStep_foreign_budgetLeft here head foreign left

/-- Settles O16: a matching word is classified in the same step. -/
theorem matchingResponseIsClassified : Obligations.MatchingResponseIsClassified :=
  fun _ _ _ here head code => corrReadStep_matching here head code

/-- Settles O18: each of the three failed polls, where it spends the budget. -/
theorem exhaustedPollsEndInTimeout : Obligations.ExhaustedPollsEndInTimeout :=
  fun _ base spent => ⟨fun phase full => submitPollStep_full_budgetSpent ⟨phase, base⟩ full spent,
    fun phase empty => corrPollStep_empty_budgetSpent ⟨phase, base⟩ empty spent,
    fun phase _ _ head foreign => corrReadStep_foreign_budgetSpent ⟨phase, base⟩ head foreign spent⟩

/-- A failed poll goes on in PHASE p, or ends CALL in DONE_ERR. -/
theorem pollFailed_phase (p : Phase) (s : State) : (pollFailed p s).phase ∈ [p, .doneErr] := by
  rcases pollFailed_cases p s with ⟨-, e⟩ | ⟨n, -, -, e⟩ | ⟨n, info, -, -, e⟩
  all_goals
    rw [e]
    simp [State.raise]

/-- Classification ends CALL in DONE_OK only where BUF[1] is Response. -/
theorem classify_doneOk {s t : State} (run : classify s = .next t) (ok : t.phase = .doneOk) :
    s.buf 1 = some Config.codeResponse ∧ t = (s.setPhase .doneOk).ret Config.codeResponse := by
  obtain ⟨c, code, rfl⟩ := classify_next.mp run
  by_cases hc : c = Config.codeResponse
  · subst hc
    exact ⟨code, rfl⟩
  · simp [hc] at ok

/-- Settles O17: a foreign word does not end CALL in DONE_OK (`pollFailed_phase`), and a matching one does so for the
code word Response alone (`classify_doneOk`). -/
theorem okFromCallNeedsTheMatchingResponse : Obligations.OkFromCallNeedsTheMatchingResponse := by
  intro s t run ok
  obtain ⟨-, -, w, q, head, ⟨rfl, hc⟩ | ⟨-, rfl⟩⟩ := corrReadStep_next.mp run
  · obtain ⟨code, rfl⟩ := classify_doneOk hc ok
    exact ⟨head, rfl, code, rfl⟩
  · have ends := pollFailed_phase .corrPoll ((s.setInq q).setResp w)
    simp [ok] at ends

end Sys2Proof.Machine
end

section
/-! PROOF. How PHASE moves: the fifteen rows of the state machine (41_call R172, R176; 10_state R25). -/

namespace Sys2Proof.Machine

/-- The rows of the state machine that change PHASE (41_call R176). -/
def phaseRows : List (Phase × Phase) :=
  [(.none, .build), (.doneOk, .build), (.doneErr, .build), (.build, .none), (.doneOk, .none), (.doneErr, .none),
    (.build, .submitPoll), (.submitPoll, .submitWrite), (.submitPoll, .doneErr), (.submitWrite, .corrPoll),
    (.corrPoll, .corrRead), (.corrPoll, .doneErr), (.corrRead, .corrPoll), (.corrRead, .doneOk), (.corrRead, .doneErr)]

/-- PHASE stays, or moves along a row. -/
def PhaseMove (p q : Phase) : Prop := q ≠ p → (p, q) ∈ phaseRows

theorem PhaseMove.of_eq {p q : Phase} (h : q = p) : PhaseMove p q := fun hne => absurd h hne

/-- A move between two lists of PHASE values, all of whose pairs are rows. -/
theorem PhaseMove.of_mem {p q : Phase} {ps qs : List Phase} (hp : p ∈ ps) (hq : q ∈ qs)
    (rows : ∀ p ∈ ps, ∀ q ∈ qs, q ≠ p → (p, q) ∈ phaseRows) : PhaseMove p q := rows p hp q hq

theorem newBuffer_phaseMove {s : State} (phase : s.phase ∈ newBufferPhases) :
    PhaseMove s.phase (newBuffer s).phase :=
  .of_mem phase (List.mem_singleton.mpr (newBuffer_phase s)) (by decide)

theorem submitPollStep_phaseMove {s t : State} (run : submitPollStep s = .next t) : PhaseMove s.phase t.phase := by
  obtain ⟨hp, -, rfl⟩ := submitPollStep_next.mp run
  refine .of_mem (qs := [.submitPoll, .doneErr, .submitWrite]) (List.mem_singleton.mpr hp) ?_ (by decide)
  split
  · exact List.mem_append_left [_] (pollFailed_phase .submitPoll s.statusDrawn)
  · simp

theorem submitWriteStep_phaseMove {s t : State} (run : submitWriteStep s = .next t) : PhaseMove s.phase t.phase := by
  obtain ⟨hp, -, -, rfl⟩ := submitWriteStep_next.mp run
  exact .of_mem (List.mem_singleton.mpr hp) (List.mem_singleton.mpr (State.setPhase_phase _ _)) (by decide)

theorem corrPollStep_phaseMove {s t : State} (run : corrPollStep s = .next t) : PhaseMove s.phase t.phase := by
  obtain ⟨hp, -, rfl⟩ := corrPollStep_next.mp run
  refine .of_mem (qs := [.corrPoll, .doneErr, .corrRead]) (List.mem_singleton.mpr hp) ?_ (by decide)
  split
  · exact List.mem_append_left [_] (pollFailed_phase .corrPoll s.statusDrawn)
  · simp

theorem classify_phase {s t : State} (run : classify s = .next t) : t.phase ∈ [Phase.doneOk, .doneErr] := by
  obtain ⟨c, -, rfl⟩ := classify_next.mp run
  rw [State.setResult_phase, State.setPhase_phase]
  split
  · exact .head _
  · exact .tail _ (.head _)

theorem corrReadStep_phaseMove {s t : State} (run : corrReadStep s = .next t) : PhaseMove s.phase t.phase := by
  obtain ⟨hp, -, w, q, -, ⟨-, hc⟩ | ⟨-, rfl⟩⟩ := corrReadStep_next.mp run
  · exact .of_mem (List.mem_singleton.mpr hp) (classify_phase hc) (by decide)
  · exact .of_mem (List.mem_singleton.mpr hp) (pollFailed_phase _ _) (by decide)

/-- Settles O23: the commands move PHASE from where they are admitted, the phase-steps from their own, and no other
effect writes PHASE. -/
theorem phaseMovesByTheStateMachineOnly : Obligations.PhaseMovesByTheStateMachineOnly := by
  intro i s t run
  show PhaseMove s.phase t.phase
  cases exec_next run with
  | newBuffer _ _ phase => exact newBuffer_phaseMove phase
  | recipe _ _ _ _ phase => exact newBuffer_phaseMove phase
  | writeTag _ _ _ _ _ run => exact .of_eq ((congrArg State.phase (writeTag_frame run)).trans rfl)
  | call _ _ phase =>
    exact .of_mem (qs := [.submitPoll]) (List.mem_singleton.mpr phase) (.head _) (by decide)
  | discard _ _ phase => exact .of_mem (qs := [.none]) phase (.head _) (by decide)
  | submitPoll _ run => exact submitPollStep_phaseMove run
  | submitWrite _ run => exact submitWriteStep_phaseMove run
  | corrPoll _ run => exact corrPollStep_phaseMove run
  | corrRead _ run => exact corrReadStep_phaseMove run
  | _ => exact .of_eq rfl

end Sys2Proof.Machine
end

section
/-! PROOF. Who moves: HOST and IRQ wait while the engine runs a command, and the engine moves by its PHASE (41_call R163
to R166, R173; 70_reset_and_hazards R302). -/

namespace Sys2Proof.Machine

/-- What HOST and IRQ can issue is refused while the engine runs a command: it waits for its turn, or its word is
reserved. -/
theorem exec_hostIssued_busy {s : State} (busy : s.busy = true) {i : Instr} (issued : hostIssued i = true) :
    ∃ r, exec i s = .refused r := by
  cases i with
  | newBuffer | writeTag | call | tagCheck | readWord | discard | tryAcquire | release | getFirmwareRevision
  | getBoardSerial | raNew | raOffset | raRead | raWrite | tagResponseBit | terminator | tag1 | tag10001 | tag10004
  | tag10005 | tag30002 | tag38002 | tag40001 | tag40003 | tag40004 | tag44003 | tag44004 | tag48003 | tag48004
  | tag40005 | tag48005 | tag40006 | tag48006 => exact ⟨_, hostTurn_busy busy _⟩
  | reservedOp0 | reservedOp7 | reservedOpCToF => exact ⟨_, rfl⟩
  | _ => exact absurd issued Bool.false_ne_true

/-- Settles O48: `exec_hostIssued_busy` for the instructions, `step_waits` for the step. -/
theorem hostAndIrqWaitForTheEngine : Obligations.HostAndIrqWaitForTheEngine :=
  fun _ busy => ⟨fun _ issued => exec_hostIssued_busy busy issued,
    fun _ _ ha waits hv => step_waits hv ha waits busy⟩

theorem engineStep_submitPoll {s : State} (h : s.phase = .submitPoll) : engineStep s = submitPollStep s := by
  rw [engineStep, h]
  rfl

theorem engineStep_submitWrite {s : State} (h : s.phase = .submitWrite) : engineStep s = submitWriteStep s := by
  rw [engineStep, h]
  rfl

theorem engineStep_corrPoll {s : State} (h : s.phase = .corrPoll) : engineStep s = corrPollStep s := by
  rw [engineStep, h]
  rfl

theorem engineStep_corrRead {s : State} (h : s.phase = .corrRead) : engineStep s = corrReadStep s := by
  rw [engineStep, h]
  rfl

/-- Settles O56: the step is the engine's, which is the phase-step of PHASE or nothing. -/
theorem engineMovesByItsPhase : Obligations.EngineMovesByItsPhase := by
  intro s hv ha
  rw [step_engine hv ha]
  refine ⟨fun p hp phase => ?_, engineStep_idle⟩
  fin_cases hp
  · exact engineStep_submitPoll phase
  · exact engineStep_submitWrite phase
  · exact engineStep_corrPoll phase
  · exact engineStep_corrRead phase

/-! ### Runs -/

theorem run_succ {s t : State} (h : step s = .next t) (k : Nat) : core.run (k + 1) s = core.run k t := by
  have first : core.step s = .next t := h
  simp only [Host.Core.run, first]

/-- What every step keeps, and which holds now, holds after every run. -/
theorem exists_run {P : State → Prop} (keeps : ∀ s, P s → ∃ t, step s = .next t ∧ P t) {s : State} (h : P s) (k : Nat) :
    ∃ t, core.run k s = .next t ∧ P t := by
  induction k generalizing s with
  | zero => exact ⟨s, rfl, h⟩
  | succ k ih =>
    obtain ⟨u, first, hu⟩ := keeps s h
    obtain ⟨t, rest, ht⟩ := ih hu
    exact ⟨t, (run_succ first k).trans rest, ht⟩

end Sys2Proof.Machine
end

section
/-! PROOF. With POLL_LIMIT = N every phase-step spends the budget of CALL, and the engine alone ends it (41_call
R175). -/

namespace Sys2Proof.Machine

/-! ### The budget in each PHASE -/

theorem State.callBudget_submitPoll {s : State} (h : s.phase = .submitPoll) (n : Nat) :
    s.callBudget n = 2 * n + 1 + (n - s.polls) := by
  rw [State.callBudget, h]

theorem State.callBudget_submitWrite {s : State} (h : s.phase = .submitWrite) (n : Nat) :
    s.callBudget n = 2 * n + 1 := by
  rw [State.callBudget, h]

theorem State.callBudget_corrPoll {s : State} (h : s.phase = .corrPoll) (n : Nat) :
    s.callBudget n = 2 * (n - s.polls) := by
  rw [State.callBudget, h]

theorem State.callBudget_corrRead {s : State} (h : s.phase = .corrRead) (n : Nat) :
    s.callBudget n = 2 * (n - s.polls) - 1 := by
  rw [State.callBudget, h]

/-- The budget depends on PHASE and POLLS only. -/
theorem State.callBudget_congr {s t : State} (hp : t.phase = s.phase) (hk : t.polls = s.polls) (n : Nat) :
    t.callBudget n = s.callBudget n := by
  simp only [State.callBudget, hp, hk]

theorem Phase.inCall_iff {p : Phase} :
    p.inCall = true ↔ p = .submitPoll ∨ p = .submitWrite ∨ p = .corrPoll ∨ p = .corrRead := by
  cases p <;> decide

/-- Inside CALL some budget is left: POLLS has not reached POLL_LIMIT. -/
theorem State.Inv.callBudget_pos {s : State} (h : s.Inv) {n : Nat} (limit : s.cfg.pollLimit = some n)
    (inCall : s.phase.inCall = true) : 0 < s.callBudget n := by
  have below : s.polls < n := h.pollsBelow n limit inCall
  rcases Phase.inCall_iff.mp inCall with hp | hp | hp | hp
  · rw [State.callBudget_submitPoll hp]; omega
  · rw [State.callBudget_submitWrite hp]; omega
  · rw [State.callBudget_corrPoll hp]; omega
  · rw [State.callBudget_corrRead hp]; omega

/-! ### What a phase-step spends -/

/-- CALL has ended, or fewer than b phase-steps are left to it. -/
def State.EndedOrWithin (n b : Nat) (t : State) : Prop := t.phase.inCall = false ∨ t.callBudget n < b

/-- A failed poll ends CALL, or counts one more poll in the loop it goes on in. -/
theorem pollFailed_counts {s : State} {n : Nat} (limit : s.cfg.pollLimit = some n) (p : Phase) :
    (pollFailed p s).phase.inCall = false ∨ pollFailed p s = (s.setPolls (s.polls + 1)).setPhase p := by
  rcases pollFailed_cases p s with ⟨unlimited, -⟩ | ⟨-, -, -, e⟩ | ⟨m, info, -, -, e⟩
  · exact absurd (unlimited.symm.trans limit) nofun
  · exact .inr e
  · exact .inl (e ▸ rfl)

theorem submitPollStep_spends {s t : State} {n : Nat} (limit : s.cfg.pollLimit = some n) (h : s.Inv)
    (run : submitPollStep s = .next t) : t.EndedOrWithin n (s.callBudget n) := by
  obtain ⟨hp, -, rfl⟩ := submitPollStep_next.mp run
  have below : s.polls < n := h.pollsBelow n limit (congrArg Phase.inCall hp)
  rw [State.callBudget_submitPoll hp]
  split
  · refine (pollFailed_counts (s := s.statusDrawn) limit .submitPoll).imp_right fun e => ?_
    rw [e, State.callBudget_submitPoll (State.setPhase_phase _ _)]
    show 2 * n + 1 + (n - (s.polls + 1)) < _
    omega
  · right
    rw [State.callBudget_submitWrite (State.setPhase_phase _ _)]
    omega

theorem submitWriteStep_spends {s t : State} (n : Nat) (run : submitWriteStep s = .next t) :
    t.EndedOrWithin n (s.callBudget n) := by
  obtain ⟨hp, -, -, rfl⟩ := submitWriteStep_next.mp run
  right
  rw [State.callBudget_submitWrite hp, State.callBudget_corrPoll (State.setPhase_phase _ _)]
  show 2 * (n - 0) < 2 * n + 1
  omega

theorem corrPollStep_spends {s t : State} {n : Nat} (limit : s.cfg.pollLimit = some n) (h : s.Inv)
    (run : corrPollStep s = .next t) : t.EndedOrWithin n (s.callBudget n) := by
  obtain ⟨hp, -, rfl⟩ := corrPollStep_next.mp run
  have below : s.polls < n := h.pollsBelow n limit (congrArg Phase.inCall hp)
  rw [State.callBudget_corrPoll hp]
  split
  · refine (pollFailed_counts (s := s.statusDrawn) limit .corrPoll).imp_right fun e => ?_
    rw [e, State.callBudget_corrPoll (State.setPhase_phase _ _)]
    show 2 * (n - (s.polls + 1)) < _
    omega
  · right
    rw [State.callBudget_corrRead (State.setPhase_phase _ _)]
    show 2 * (n - s.polls) - 1 < _
    omega

theorem corrReadStep_spends {s t : State} {n : Nat} (limit : s.cfg.pollLimit = some n) (h : s.Inv)
    (run : corrReadStep s = .next t) : t.EndedOrWithin n (s.callBudget n) := by
  obtain ⟨hp, -, w, q, -, ⟨-, hc⟩ | ⟨-, rfl⟩⟩ := corrReadStep_next.mp run
  · left
    rcases List.mem_pair.mp (classify_phase hc) with e | e
    all_goals
      rw [e]
      rfl
  · have below : s.polls < n := h.pollsBelow n limit (congrArg Phase.inCall hp)
    rw [State.callBudget_corrRead hp]
    refine (pollFailed_counts (s := (s.setInq q).setResp w) limit .corrPoll).imp_right fun e => ?_
    rw [e, State.callBudget_corrPoll (State.setPhase_phase _ _)]
    show 2 * (n - (s.polls + 1)) < _
    omega

/-! ### What leaves the budget alone -/

/-- The ports of FW, of FOREIGN and of the bare register accesses. -/
def bystanderPorts : List Port := [.fwPop, .fwProcess, .fwPush, .foreignPush, .regAccess]

/-- FW, FOREIGN and the bare register accesses leave PHASE and POLLS alone. -/
theorem exec_bystander {i : Instr} {s t : State} (port : encodePort i ∈ bystanderPorts) (run : exec i s = .next t) :
    t.phase = s.phase ∧ t.polls = s.polls := by
  have notOf {ps : List Port} (disjoint : ∀ p ∈ bystanderPorts, p ∉ ps) (hi : encodePort i ∈ ps) : False :=
    disjoint _ port hi
  cases exec_next run with
  | newBuffer => exact absurd port (by decide)
  | recipe _ hi => rcases hi with rfl | rfl <;> exact absurd port (by decide)
  | writeTag _ _ _ _ _ run =>
    rw [writeTag_frame run]
    exact ⟨rfl, rfl⟩
  | call => exact absurd port (by decide)
  | discard => exact absurd port (by decide)
  | submitPoll hi => exact (notOf (by decide) hi).elim
  | submitWrite hi => exact (notOf (by decide) hi).elim
  | corrPoll hi => exact (notOf (by decide) hi).elim
  | corrRead hi => exact (notOf (by decide) hi).elim
  | _ => exact ⟨rfl, rfl⟩

/-- Settles O19: the budget at the first poll, what each phase-step spends of it, and `exec_bystander`. -/
theorem everyPhaseStepSpendsTheCallBudget : Obligations.EveryPhaseStepSpendsTheCallBudget := by
  intro s n limit h
  refine ⟨fun hp => ?_, fun i hi t run => ?_, fun i port t run => ?_⟩
  · rw [State.callBudget_submitPoll hp]
    omega
  · fin_cases hi
    · exact submitPollStep_spends limit h run
    · exact submitWriteStep_spends n run
    · exact corrPollStep_spends limit h run
    · exact corrReadStep_spends limit h run
  · obtain ⟨hp, hk⟩ := exec_bystander port run
    exact ⟨hp, State.callBudget_congr hp hk n⟩

/-! ### The engine alone -/

/-- The parts of the state a phase-step of CALL never writes, and the engine's next move depends on. -/
structure SameSetting (s t : State) : Prop where
  cfg : t.cfg = s.cfg
  baseValid : t.baseValid = s.baseValid
  agenda : t.agenda = s.agenda

theorem SameSetting.pollFailed {s u : State} (h : SameSetting s u) (p : Phase) : SameSetting s (pollFailed p u) := by
  rcases pollFailed_cases p u with ⟨-, e⟩ | ⟨n, -, -, e⟩ | ⟨n, info, -, -, e⟩
  all_goals
    rw [e]
    exact ⟨h.cfg, h.baseValid, h.agenda⟩

/-- Where the next phase-step accesses a queue, it has the room or the word it needs: the poll before it has seen so
(41_call R164, R166). -/
structure State.QueueReady (s : State) : Prop where
  room : s.phase = .submitWrite → s.outq.length ≠ s.cfg.fifoDepth
  word : s.phase = .corrRead → s.inq ≠ []

theorem State.QueueReady.of_phase {s : State} {ps : List Phase} (hp : s.phase ∈ ps)
    (polls : ∀ p ∈ ps, p ≠ .submitWrite ∧ p ≠ .corrRead) : s.QueueReady :=
  ⟨fun e => absurd e (polls _ hp).1, fun e => absurd e (polls _ hp).2⟩

theorem pollFailed_queueReady {p : Phase} (hp : p ≠ .submitWrite ∧ p ≠ .corrRead) (s : State) :
    (pollFailed p s).QueueReady := by
  refine .of_phase (pollFailed_phase p s) fun q hq => ?_
  rcases List.mem_pair.mp hq with rfl | rfl
  · exact hp
  · decide

/-- The engine at a phase-step of CALL, able to take it: no access of it faults. -/
structure State.Calling (s : State) : Prop where
  inv : s.Inv
  baseValid : s.baseValid = true
  inCall : s.phase.inCall = true
  ready : s.QueueReady

/-- The engine's phase-step completes, and can take the one after it. -/
theorem State.Calling.engineStep_completes {s : State} (h : s.Calling) :
    ∃ t, engineStep s = .next t ∧ SameSetting s t ∧ t.QueueReady := by
  have base := h.baseValid
  have drawn : SameSetting s s.statusDrawn := ⟨rfl, rfl, rfl⟩
  rcases Phase.inCall_iff.mp h.inCall with hp | hp | hp | hp
  · rw [engineStep_submitPoll hp]
    by_cases full : s.outq.length = s.cfg.fifoDepth
    · exact ⟨_, submitPollStep_full ⟨hp, base⟩ full, drawn.pollFailed _,
        pollFailed_queueReady (by decide) _⟩
    · exact ⟨_, submitPollStep_room ⟨hp, base⟩ full, ⟨rfl, rfl, rfl⟩, fun _ => full, nofun⟩
  · rw [engineStep_submitWrite hp]
    exact ⟨_, submitWriteStep_sends ⟨hp, base⟩ (h.ready.room hp), ⟨rfl, rfl, rfl⟩, nofun, nofun⟩
  · rw [engineStep_corrPoll hp]
    by_cases empty : s.inq = []
    · exact ⟨_, corrPollStep_empty ⟨hp, base⟩ empty, drawn.pollFailed _,
        pollFailed_queueReady (by decide) _⟩
    · exact ⟨_, corrPollStep_word ⟨hp, base⟩ empty, ⟨rfl, rfl, rfl⟩, nofun, fun _ => empty⟩
  · rw [engineStep_corrRead hp]
    obtain ⟨w, q, head⟩ := List.exists_cons_of_ne_nil (h.ready.word hp)
    by_cases hw : w = s.sub
    · subst hw
      obtain ⟨c, code⟩ := Option.isSome_iff_exists.mp (h.inv.bufPresent 1 (by decide))
      refine ⟨_, corrReadStep_matching ⟨hp, base⟩ head code, ⟨rfl, rfl, rfl⟩,
        .of_phase (ps := [.doneOk, .doneErr]) ?_ (by decide)⟩
      show (if c = 0x80000000#32 then Phase.doneOk else .doneErr) ∈ _
      split <;> simp
    · have taken : SameSetting s ((s.setInq q).setResp w) := ⟨rfl, rfl, rfl⟩
      exact ⟨_, corrReadStep_foreign ⟨hp, base⟩ head hw, taken.pollFailed _,
        pollFailed_queueReady (by decide) _⟩

/-- The engine's phase-step inside CALL spends the budget. -/
theorem engineStep_spends {s t : State} {n : Nat} (limit : s.cfg.pollLimit = some n) (h : s.Inv)
    (inCall : s.phase.inCall = true) (run : engineStep s = .next t) : t.EndedOrWithin n (s.callBudget n) := by
  rcases Phase.inCall_iff.mp inCall with hp | hp | hp | hp
  · exact submitPollStep_spends limit h (engineStep_submitPoll hp ▸ run)
  · exact submitWriteStep_spends n (engineStep_submitWrite hp ▸ run)
  · exact corrPollStep_spends limit h (engineStep_corrPoll hp ▸ run)
  · exact corrReadStep_spends limit h (engineStep_corrRead hp ▸ run)

/-- With the engine alone moving, CALL ends within its budget. -/
theorem State.Calling.ends {n b : Nat} {s : State} (h : s.Calling) (hv : s.cfg.Valid) (limit : s.cfg.pollLimit = some n)
    (alone : s.agenda = []) (hb : s.callBudget n ≤ b) :
    ∃ k t, k ≤ b ∧ core.run k s = .next t ∧ t.phase.inCall = false := by
  induction b generalizing s with
  | zero => exact absurd hb (Nat.not_le.mpr (h.inv.callBudget_pos limit h.inCall))
  | succ b ih =>
    obtain ⟨t, run, same, ready⟩ := h.engineStep_completes
    have one : step s = .next t := (step_engine hv alone).trans run
    cases inCall : t.phase.inCall with
    | false => exact ⟨1, t, by omega, run_succ one 0, inCall⟩
    | true =>
      have less : t.callBudget n < s.callBudget n :=
        (engineStep_spends limit h.inv h.inCall run).resolve_left (by simp [inCall])
      have calling : t.Calling :=
        ⟨engineStep_keeps_inv h.inv hv run, same.baseValid.trans h.baseValid, inCall, ready⟩
      obtain ⟨k, u, hk, rest, ended⟩ :=
        ih calling (same.cfg ▸ hv) (same.cfg ▸ limit) (same.agenda.trans alone) (by omega)
      exact ⟨k + 1, u, by omega, (run_succ one k).trans rest, ended⟩

/-- Settles O20: the budget of CALL at its first poll is at most 3N + 2, and CALL ends within it. -/
theorem boundedCallEnds : Obligations.BoundedCallEnds := by
  rintro s n hv h limit ⟨hp, base⟩ alone
  have calling : s.Calling :=
    ⟨h, base, congrArg Phase.inCall hp, .of_phase (ps := [.submitPoll]) (List.mem_singleton.mpr hp) (by decide)⟩
  exact calling.ends hv limit alone ((everyPhaseStepSpendsTheCallBudget s n limit h).1 hp)

end Sys2Proof.Machine
end

section
/-! PROOF. With POLL_LIMIT = none a CALL that is not answered stays inside CALL (41_call R174; 70_reset_and_hazards
R333). -/

namespace Sys2Proof.Machine

theorem budgetLeft_of_unlimited {s : State} (h : s.cfg.pollLimit = none) : s.budgetLeft :=
  fun _ limit => absurd (h.symm.trans limit) nofun

/-! ### The submit loop -/

/-- The engine alone polls an OUTQ that is full (41_call R174 (a)). -/
structure State.SubmitHangs (s : State) : Prop where
  valid : s.cfg.Valid
  unlimited : s.cfg.pollLimit = none
  here : s.atStep .submitPoll
  full : s.outq.length = s.cfg.fifoDepth
  alone : s.agenda = []

theorem State.SubmitHangs.step {s : State} (h : s.SubmitHangs) : ∃ t, step s = .next t ∧ t.SubmitHangs := by
  have run := submitPollStep_full_budgetLeft h.here h.full (budgetLeft_of_unlimited h.unlimited)
  rw [← engineStep_submitPoll h.here.1, ← step_engine h.valid h.alone] at run
  exact ⟨_, run, h.valid, h.unlimited, h.here, h.full, h.alone⟩

/-! ### The correlate loop -/

/-- The engine waits in PHASE p for the response to the word w, with q in INQ and a on the agenda. -/
structure State.Correlating (c : Params) (w : Word) (p : Phase) (q : List Word) (a : List Input) (s : State) : Prop where
  cfg : s.cfg = c
  baseValid : s.baseValid = true
  sub : s.sub = w
  phase : s.phase = p
  inq : s.inq = q
  agenda : s.agenda = a

section
variable {c : Params} {w x : Word} {p : Phase} {q : List Word} {a : List Input} {s : State}

theorem State.Correlating.budgetLeft (h : s.Correlating c w p q a) (unlimited : c.pollLimit = none) : s.budgetLeft :=
  budgetLeft_of_unlimited (h.cfg ▸ unlimited)

/-- CORR_POLL with INQ empty: the engine polls again. -/
theorem State.Correlating.poll_empty (h : s.Correlating c w .corrPoll [] a) (unlimited : c.pollLimit = none) :
    ∃ t, engineStep s = .next t ∧ t.Correlating c w .corrPoll [] a := by
  have run := corrPollStep_empty_budgetLeft ⟨h.phase, h.baseValid⟩ h.inq (h.budgetLeft unlimited)
  exact ⟨_, (engineStep_corrPoll h.phase).trans run, h.cfg, h.baseValid, h.sub, h.phase, h.inq, h.agenda⟩

/-- CORR_POLL with a word in INQ: the engine goes on to read it. -/
theorem State.Correlating.poll_word (h : s.Correlating c w .corrPoll q a) (word : q ≠ []) :
    ∃ t, engineStep s = .next t ∧ t.Correlating c w .corrRead q a := by
  have run := corrPollStep_word ⟨h.phase, h.baseValid⟩ (h.inq ▸ word)
  exact ⟨_, (engineStep_corrPoll h.phase).trans run, h.cfg, h.baseValid, h.sub, rfl, h.inq, h.agenda⟩

/-- CORR_READ of a foreign word: the engine drops it and polls again. -/
theorem State.Correlating.read_foreign (h : s.Correlating c w .corrRead (x :: q) a) (foreign : x ≠ w)
    (unlimited : c.pollLimit = none) : ∃ t, engineStep s = .next t ∧ t.Correlating c w .corrPoll q a := by
  have run := corrReadStep_foreign_budgetLeft ⟨h.phase, h.baseValid⟩ h.inq (h.sub ▸ foreign) (h.budgetLeft unlimited)
  exact ⟨_, (engineStep_corrRead h.phase).trans run, h.cfg, h.baseValid, h.sub, rfl, rfl, h.agenda⟩

/-- FOREIGN pushes a word. -/
theorem State.Correlating.push (h : s.Correlating c w p q a) (room : q.length < c.fifoDepth)
    (foreign : x ≠ submissionWord c.bufAddr) :
    ∃ t, exec (.foreignPush x) s = .next t ∧ t.Correlating c w p (q ++ [x]) a := by
  obtain ⟨rfl, base, sub, phase, rfl, agenda⟩ := h
  exact ⟨_, if_pos ⟨room, foreign⟩, rfl, base, sub, phase, rfl, agenda⟩

/-- With INQ empty and the engine alone moving, the correlate loop goes on (41_call R174 (b)). -/
theorem State.Correlating.empty_hangs (h : s.Correlating c w .corrPoll [] []) (hv : c.Valid)
    (unlimited : c.pollLimit = none) (k : Nat) : ∃ t, core.run k s = .next t ∧ t.Correlating c w .corrPoll [] [] := by
  refine exists_run (fun u hu => ?_) h k
  rw [step_engine (hu.cfg ▸ hv) hu.agenda]
  exact hu.poll_empty unlimited

/-! ### One foreign word after another (41_call R174 (c)) -/

/-- The input i, recurring or not. -/
def turn (recurs : Bool) (i : Input) : Input := if recurs then .again i else i

/-- What the input leaves at the end of the agenda when it is taken. -/
def turnLeft (recurs : Bool) (i : Input) : List Input := if recurs then [.again i] else []

theorem State.Correlating.step_turn {recurs : Bool} {i : Input} (h : s.Correlating c w p q (turn recurs i :: a))
    (hv : c.Valid) (goes : inputWaits i = false) :
    ∃ u, step s = perform i u ∧ u.Correlating c w p q (a ++ turnLeft recurs i) := by
  have moves : inputWaits (turn recurs i) = false := by cases recurs <;> exact goes
  refine ⟨s.setAgenda (a ++ turnLeft recurs i), ?_, h.cfg, h.baseValid, h.sub, h.phase, h.inq, rfl⟩
  rw [step_input (h.cfg ▸ hv) h.agenda fun e => absurd (moves.symm.trans e) Bool.false_ne_true]
  cases recurs with
  | false =>
    rw [turnLeft, if_neg Bool.false_ne_true, List.append_nil]
    rfl
  | true => rfl

/-- FOREIGN pushes x, and the engine polls and reads. -/
def delivery (recurs : Bool) (x : Word) : List Input :=
  [turn recurs (.words .foreignPush [x]), turn recurs .engine, turn recurs .engine]

/-- A recurring delivery stands at the end of the agenda again. -/
def deliveryLeft (recurs : Bool) (x : Word) : List Input := if recurs then delivery true x else []

theorem turnLeft_delivery (a : List Input) (recurs : Bool) (x : Word) :
    a ++ turnLeft recurs (.words .foreignPush [x]) ++ turnLeft recurs .engine ++ turnLeft recurs .engine =
      a ++ deliveryLeft recurs x := by
  cases recurs <;> simp [turnLeft, deliveryLeft, delivery, turn]

theorem perform_foreignPush (x : Word) (s : State) :
    perform (.words .foreignPush [x]) s = exec (.foreignPush x) s :=
  perform_words_of_decode (left := []) (i := .foreignPush x) rfl s

/-- The three steps of a delivery: the word arrives, the poll sees it, the read drops it. -/
theorem State.Correlating.delivery_steps {recurs : Bool}
    (h : s.Correlating c (submissionWord c.bufAddr) .corrPoll [] (delivery recurs x ++ a)) (hv : c.Valid)
    (unlimited : c.pollLimit = none) (foreign : x ≠ submissionWord c.bufAddr) :
    ∃ s₁ s₂ s₃, (step s = .next s₁ ∧ s₁.phase = .corrPoll ∧ s₁.inq = [x]) ∧
      (step s₁ = .next s₂ ∧ s₂.phase = .corrRead ∧ s₂.inq = [x]) ∧ step s₂ = .next s₃ ∧
      s₃.Correlating c (submissionWord c.bufAddr) .corrPoll [] (a ++ deliveryLeft recurs x) := by
  have room : 0 < c.fifoDepth := by
    obtain ⟨-, -, -, -, -, depth, -, -⟩ := hv
    exact depth
  obtain ⟨u, run, hu⟩ := h.step_turn hv rfl
  obtain ⟨s₁, pushed, h₁⟩ := hu.push room foreign
  obtain ⟨u₁, run₁, hu₁⟩ := h₁.step_turn (i := .engine) hv rfl
  obtain ⟨s₂, polled, h₂⟩ := hu₁.poll_word (List.cons_ne_nil x [])
  obtain ⟨u₂, run₂, hu₂⟩ := h₂.step_turn (i := .engine) hv rfl
  obtain ⟨s₃, dropped, h₃⟩ := hu₂.read_foreign foreign unlimited
  have arrives : step s = .next s₁ := run.trans ((perform_foreignPush x u).trans pushed)
  exact ⟨s₁, s₂, s₃, ⟨arrives, h₁.phase, h₁.inq⟩, ⟨run₁.trans polled, h₂.phase, h₂.inq⟩, run₂.trans dropped,
    turnLeft_delivery a recurs x ▸ h₃⟩

/-- Any finite number of foreign words leaves the engine in the correlate loop. -/
theorem State.Correlating.delivered_once {xs : List Word}
    (h : s.Correlating c (submissionWord c.bufAddr) .corrPoll [] (xs.flatMap (delivery false))) (hv : c.Valid)
    (unlimited : c.pollLimit = none) (foreign : ∀ x ∈ xs, x ≠ submissionWord c.bufAddr) :
    ∃ t, core.run (3 * xs.length) s = .next t ∧ t.Correlating c (submissionWord c.bufAddr) .corrPoll [] [] := by
  induction xs generalizing s with
  | nil => exact ⟨s, rfl, h⟩
  | cons x xs ih =>
    obtain ⟨foreignHead, foreignTail⟩ := List.forall_mem_cons.mp foreign
    obtain ⟨s₁, s₂, s₃, ⟨run, -, -⟩, ⟨run₁, -, -⟩, run₂, h₃⟩ := h.delivery_steps hv unlimited foreignHead
    obtain ⟨t, rest, ht⟩ := ih ((List.append_nil _).symm ▸ h₃) foreignTail
    exact ⟨t, (run_succ run _).trans ((run_succ run₁ _).trans ((run_succ run₂ _).trans rest)), ht⟩

/-- Where the engine is after k steps of deliveries of words of xs. -/
structure State.InDelivery (xs : List Word) (k : Nat) (t : State) : Prop where
  phase : t.phase = if k % 3 = 2 then .corrRead else .corrPoll
  between : k % 3 = 0 → t.inq = []
  within : k % 3 ≠ 0 → ∃ x ∈ xs, t.inq = [x]

theorem State.InDelivery.add_three {xs : List Word} {k : Nat} {t : State} (h : t.InDelivery xs k) :
    t.InDelivery xs (k + 3) := by
  obtain ⟨phase, between, within⟩ := h
  rw [← Nat.add_mod_right] at phase between within
  exact ⟨phase, between, within⟩

/-- Foreign words without end: the agenda of recurring deliveries turns, one delivery every three steps. -/
theorem State.Correlating.delivered_forever (hv : c.Valid) (unlimited : c.pollLimit = none) {xs : List Word}
    (foreign : ∀ x ∈ xs, x ≠ submissionWord c.bufAddr) (k : Nat) {x : Word} {ys : List Word}
    (mem : ∀ y ∈ x :: ys, y ∈ xs) {s : State}
    (h : s.Correlating c (submissionWord c.bufAddr) .corrPoll [] ((x :: ys).flatMap (delivery true))) :
    ∃ t, core.run k s = .next t ∧ t.InDelivery xs k := by
  obtain ⟨hx, hys⟩ := List.forall_mem_cons.mp mem
  obtain ⟨s₁, s₂, s₃, ⟨run, phase₁, inq₁⟩, ⟨run₁, phase₂, inq₂⟩, run₂, h₃⟩ :=
    h.delivery_steps hv unlimited (foreign x hx)
  match k with
  | 0 => exact ⟨s, rfl, h.phase, fun _ => h.inq, absurd rfl⟩
  | 1 => exact ⟨s₁, run_succ run 0, phase₁, nofun, fun _ => ⟨x, hx, inq₁⟩⟩
  | 2 => exact ⟨s₂, (run_succ run 1).trans (run_succ run₁ 0), phase₂, nofun, fun _ => ⟨x, hx, inq₂⟩⟩
  | k + 3 =>
    obtain ⟨y, zs, e⟩ : ∃ y zs, ys ++ [x] = y :: zs := List.exists_cons_of_ne_nil (by simp)
    have turned : ys.flatMap (delivery true) ++ deliveryLeft true x = (y :: zs).flatMap (delivery true) := by
      rw [← e, List.flatMap_append, List.flatMap_singleton]
      rfl
    have mem : ∀ z ∈ y :: zs, z ∈ xs := e ▸ List.forall_mem_append.mpr ⟨hys, List.forall_mem_singleton.mpr hx⟩
    obtain ⟨t, rest, ht⟩ := delivered_forever hv unlimited foreign k mem (turned ▸ h₃)
    exact ⟨t, (run_succ run _).trans ((run_succ run₁ _).trans ((run_succ run₂ _).trans rest)), ht.add_three⟩

/-! ### Any foreign traffic -/

/-- The engine is in the correlate loop, with a word to read where it reads, and SUB is not in INQ. -/
def State.Listening (c : Params) (a : List Input) (s : State) : Prop :=
  ∃ p q, s.Correlating c (submissionWord c.bufAddr) p q a ∧ (p = .corrPoll ∨ p = .corrRead ∧ q ≠ []) ∧
    submissionWord c.bufAddr ∉ q

theorem State.Listening.engineStep (h : s.Listening c a) (unlimited : c.pollLimit = none) :
    ∃ t, engineStep s = .next t ∧ t.Listening c a := by
  obtain ⟨p, q, h, rfl | ⟨rfl, word⟩, absent⟩ := h
  · cases q with
    | nil =>
      obtain ⟨t, run, ht⟩ := h.poll_empty unlimited
      exact ⟨t, run, _, _, ht, .inl rfl, absent⟩
    | cons x q =>
      obtain ⟨t, run, ht⟩ := h.poll_word (List.cons_ne_nil x q)
      exact ⟨t, run, _, _, ht, .inr ⟨rfl, List.cons_ne_nil x q⟩, absent⟩
  · obtain ⟨x, q, rfl⟩ := List.exists_cons_of_ne_nil word
    obtain ⟨notHead, notTail⟩ := not_or.mp (mt List.mem_cons.mpr absent)
    obtain ⟨t, run, ht⟩ := h.read_foreign (Ne.symm notHead) unlimited
    exact ⟨t, run, _, _, ht, .inl rfl, notTail⟩

/-- FOREIGN pushes a word that is not SUB, or has no step. -/
theorem State.Listening.foreignPush (h : s.Listening c a) (x : Word) :
    (∃ t, exec (.foreignPush x) s = .next t ∧ t.Listening c a) ∨
      exec (.foreignPush x) s = .refused .stepNotEnabled := by
  obtain ⟨p, q, h, phase, absent⟩ := h
  by_cases enabled : q.length < c.fifoDepth ∧ x ≠ submissionWord c.bufAddr
  · obtain ⟨room, foreign⟩ := enabled
    obtain ⟨t, run, ht⟩ := h.push room foreign
    have notLast : submissionWord c.bufAddr ∉ [x] := fun e => foreign (List.mem_singleton.mp e).symm
    exact .inl ⟨t, run, p, q ++ [x], ht, phase.imp_right (And.imp_right fun _ => by simp),
      List.not_mem_append absent notLast⟩
  · rw [← h.cfg, ← h.inq] at enabled
    exact .inr (if_neg enabled)

theorem eq_foreignPush_of_port {i : Instr} (h : encodePort i ∈ [Port.foreignPush]) : ∃ x, i = .foreignPush x := by
  cases i with
  | foreignPush x => exact ⟨x, rfl⟩
  | _ => exact nomatch List.mem_singleton.mp h

/-- Whatever is drawn among FOREIGN's words and the engine's step, the engine stays in the correlate loop. -/
theorem State.Listening.moveOrEngine (h : s.Listening c a) (unlimited : c.pollLimit = none) (m : Option Instr) :
    ∃ t, moveOrEngine [.foreignPush] m s = .next t ∧ t.Listening c a := by
  unfold Machine.moveOrEngine
  split
  · split
    · next port =>
      obtain ⟨x, rfl⟩ := eq_foreignPush_of_port port
      rcases h.foreignPush x with ⟨t, run, ht⟩ | refused
      · exact ⟨t, by rw [run]; rfl, ht⟩
      · rw [refused]
        exact h.engineStep unlimited
    · exact h.engineStep unlimited
  · exact h.engineStep unlimited

/-- Foreign traffic and the engine in any interleaving, without end. -/
theorem State.Listening.step_drawn (h : s.Listening c [.again (.drawn [.foreignPush])]) (hv : c.Valid)
    (unlimited : c.pollLimit = none) :
    ∃ t, step s = .next t ∧ t.Listening c [.again (.drawn [.foreignPush])] := by
  obtain ⟨p, q, h, phase, absent⟩ := h
  obtain ⟨u, run, hu⟩ := h.step_turn (recurs := true) (i := .drawn [.foreignPush]) hv rfl
  have drawn : (u.setDraws (u.draws + 1)).Listening c [.again (.drawn [.foreignPush])] :=
    ⟨p, q, ⟨hu.cfg, hu.baseValid, hu.sub, hu.phase, hu.inq, hu.agenda⟩, phase, absent⟩
  rw [run]
  exact drawn.moveOrEngine unlimited (Config.drawnMove u.draws)

end

/-- Settles O21: each hang is a condition that every step of its agenda keeps. -/
theorem silentFirmwareHangsTheCall : Obligations.SilentFirmwareHangsTheCall := by
  intro s k xs hv unlimited base
  refine ⟨fun phase full alone => ?_, fun phase empty alone => ?_, fun foreign sub phase empty => ⟨fun ha => ?_,
    fun nonempty ha => ?_⟩, fun phase sub absent ha => ?_⟩
  · obtain ⟨t, run, ht⟩ := exists_run (fun _ => State.SubmitHangs.step) ⟨hv, unlimited, ⟨phase, base⟩, full, alone⟩ k
    exact ⟨t, run, ht.here.1⟩
  · have here : s.Correlating s.cfg s.sub .corrPoll [] [] := ⟨rfl, base, rfl, phase, empty, alone⟩
    obtain ⟨t, run, ht⟩ := here.empty_hangs hv unlimited k
    exact ⟨t, run, ht.phase⟩
  · have here : s.Correlating s.cfg (submissionWord s.cfg.bufAddr) .corrPoll [] (xs.flatMap (delivery false)) :=
      ⟨rfl, base, sub, phase, empty, ha⟩
    obtain ⟨t, run, ht⟩ := here.delivered_once hv unlimited foreign
    exact ⟨t, run, ht.phase⟩
  · obtain ⟨x, ys, rfl⟩ := List.exists_cons_of_ne_nil nonempty
    obtain ⟨t, run, ht⟩ := State.Correlating.delivered_forever hv unlimited foreign k (fun _ h => h)
      ⟨rfl, base, sub, phase, empty, ha⟩
    exact ⟨t, run, ht.phase, ht.between, ht.within⟩
  · have here : s.Listening s.cfg [.again (.drawn [.foreignPush])] :=
      ⟨.corrPoll, s.inq, ⟨rfl, base, sub, phase, rfl, ha⟩, .inl rfl, sub ▸ absent⟩
    obtain ⟨t, run, p, q, ht, phase, absent⟩ := exists_run (fun _ h => h.step_drawn hv unlimited) here k
    exact ⟨t, run, ht.phase ▸ phase.imp_right And.left, ht.sub ▸ ht.inq ▸ absent⟩

end Sys2Proof.Machine
end

section
/-! PROOF. Reading results back: TAG_CHECK, READ_WORD and DISCARD, each in every case it has (42_readback R190 to
R193). -/

namespace Sys2Proof.Machine

/-- The command word of a one-byte operand, by shifts, compared bit by bit: OP is bits 3:0, the operand bits 15:8, and
the other fields are zero (30_encoding R121). -/
theorem cwMake_eq_shift (arg : BitVec 8) (op : BitVec 4) :
    cwMake arg 0#4 op = arg.setWidth 32 <<< 8 ||| op.setWidth 32 := by
  refine BitVec.eq_of_getLsbD_eq fun i hi => ?_
  simp only [cwMake, BitVec.getLsbD_append, BitVec.getLsbD_or, BitVec.getLsbD_shiftLeft, BitVec.getLsbD_setWidth,
    BitVec.getLsbD_zero]
  grind

theorem cmdTagCheck_inRange {s : State} {n : Nat} {c : Word} (request : s.holdsRequest = true)
    (phase : s.phase ∈ [Phase.doneOk, .doneErr]) (range : 2 ≤ n ∧ n ≤ 33) (code : s.buf (n + 2) = some c) :
    cmdTagCheck n s = .next (s.setResult ⟨if c.getLsbD 31 then .ok else .tagNotAnswered, c⟩) :=
  cmdTagCheck_next.mpr ⟨request, phase, tagVerdict_next.mpr ⟨range, c, code, rfl⟩⟩

theorem cmdTagCheck_outOfRange {s : State} {n : Nat} (request : s.holdsRequest = true)
    (phase : s.phase ∈ [Phase.doneOk, .doneErr]) (range : ¬ (2 ≤ n ∧ n ≤ 33)) :
    cmdTagCheck n s = .refused .operandOutOfRange :=
  (admitInRequest_ok request phase _).trans (if_neg range)

theorem cmdReadWord_inRange {s : State} {n : Nat} {w : Word} (request : s.holdsRequest = true)
    (phase : s.phase ∈ [Phase.build, .doneOk, .doneErr]) (range : n < 36) (word : s.buf n = some w) :
    cmdReadWord n s = .next (s.setResult ⟨.ok, w⟩) :=
  cmdReadWord_next.mpr ⟨request, phase, readBufferWord_next.mpr ⟨range, w, word, rfl⟩⟩

theorem cmdReadWord_outOfRange {s : State} {n : Nat} (request : s.holdsRequest = true)
    (phase : s.phase ∈ [Phase.build, .doneOk, .doneErr]) (range : ¬ n < 36) :
    cmdReadWord n s = .refused .operandOutOfRange :=
  (admitInRequest_ok request phase _).trans (if_neg range)

theorem cmdDiscard_eq {s : State} (request : s.holdsRequest = true)
    (phase : s.phase ∈ [Phase.build, .doneOk, .doneErr]) :
    cmdDiscard s = .next ((s.setPhase .none).setResult ⟨.ok, 0#32⟩) :=
  cmdDiscard_next.mpr ⟨request, phase, rfl⟩

/-- Settles O25: the word by its fields, the verdict of a tag index in range, and the refusal of any other. -/
theorem tagCheckTestsTheResponseBit : Obligations.TagCheckTestsTheResponseBit := by
  intro s t
  refine ⟨congrArg (fun w => (Port.command, [w])) (cwMake_eq_shift t 4#4), fun admitted => ⟨?_, ?_⟩⟩
  · intro c low high code
    exact exec_tagCheck_inRange admitted low high code
  · intro out
    obtain ⟨idle, request, phase⟩ := admitted
    exact (hostTurn_idle idle _).trans (cmdTagCheck_outOfRange request phase (by omega))

/-- Settles O26: the word by its fields, the buffer word at an index in range, and the refusal of any other. -/
theorem readWordReturnsTheBufferWord : Obligations.ReadWordReturnsTheBufferWord := by
  intro s i
  refine ⟨congrArg (fun w => (Port.command, [w])) (cwMake_eq_shift i 5#4), ?_⟩
  rintro ⟨idle, request, phase⟩
  constructor
  · intro w range word
    exact (hostTurn_idle idle _).trans (cmdReadWord_inRange request phase (by omega) word)
  · intro range
    exact (hostTurn_idle idle _).trans (cmdReadWord_outOfRange request phase (by omega))

/-- Settles O27: the word by the encoder, and DISCARD admitted. -/
theorem discardEndsTheRequest : Obligations.DiscardEndsTheRequest :=
  ⟨rfl, fun _ ⟨idle, request, phase⟩ => (hostTurn_idle idle _).trans (cmdDiscard_eq request phase)⟩

end Sys2Proof.Machine
end

section
/-! PROOF. How a recipe ends: the clean-up after a command that did not return Ok, and the values of an answered one
(42_readback R194 to R196; log 14). -/

namespace Sys2Proof.Machine

/-! ### The clean-up -/

/-- Settles O30: at the test of a failed CALL and at the clean-up the engine's step is DISCARD, which is admitted, and
the failing RESULT is kept or written back. -/
theorem failedRecipeDiscardsAndReturnsTheError : Obligations.FailedRecipeDiscardsAndReturnsTheError := by
  rintro s ⟨kind, stage, low, high⟩ recipe request
  constructor
  · rintro rfl phase
    rw [engineStep_recipe (congrArg Phase.inCall phase) recipe]
    exact (if_pos phase).trans (abandonRecipe_next.mpr ⟨request, by simp [phase], rfl⟩)
  · rintro res rfl phase
    have outside : s.phase.inCall = false := by rcases phase with h | h | h <;> rw [h] <;> rfl
    rw [engineStep_recipe outside recipe]
    exact abandonRecipe_next.mpr ⟨request, by simpa using phase, rfl⟩

/-! ### An answered recipe -/

/-- The engine alone, after a CALL that ended with Ok, over a buffer whose first tag is answered with these words
(42_readback R190, R195, R196). -/
structure State.Answered (low high : Word) (s : State) : Prop where
  valid : s.cfg.Valid
  alone : s.agenda = []
  phase : s.phase = .doneOk
  request : s.holdsRequest = true
  answered : ∃ c, s.buf 4 = some c ∧ c.getLsbD 31 = true
  low : s.buf 5 = some low
  high : s.buf 6 = some high

/-- The state with a command's RESULT, and the recipe at its next stage. -/
def State.recipeAt (s : State) (v : Result) (r : RecipeRun) : State := (s.setResult v).setRecipe (some r)

theorem State.recipeAt_self {s : State} {r : RecipeRun} (h : s.recipe = some r) : s.recipeAt s.result r = s := by
  rw [State.recipeAt, ← h]
  rfl

section
variable {low high : Word} {s : State}

/-- Neither RESULT nor the recipe is part of what an answered recipe reads. -/
theorem State.Answered.recipeAt (h : s.Answered low high) (v : Result) (r : RecipeRun) :
    (s.recipeAt v r).Answered low high :=
  ⟨h.valid, h.alone, h.phase, h.request, h.answered, h.low, h.high⟩

theorem State.Answered.step_eq (h : s.Answered low high) (v : Result) (r : RecipeRun) :
    step (s.recipeAt v r) = recipeStep r (s.recipeAt v r) :=
  have here : (s.recipeAt v r).Answered low high := h.recipeAt v r
  (step_engine here.valid here.alone).trans (engineStep_recipe (congrArg Phase.inCall here.phase) rfl)

/-- In an answered recipe a buffer word is read into RESULT. -/
theorem State.Answered.cmdReadWord_eq (h : s.Answered low high) (v : Result) (r : RecipeRun) {n : Nat} {w : Word}
    (range : n < 36) (word : s.buf n = some w) : cmdReadWord n (s.recipeAt v r) = .next (s.recipeAt ⟨.ok, w⟩ r) :=
  have phase : s.phase ∈ [Phase.build, .doneOk, .doneErr] := by simp [h.phase]
  cmdReadWord_inRange (h.recipeAt v r).request phase range word

/-- The first tag is answered, so TAG_CHECK returns Ok. -/
theorem State.Answered.cmdTagCheck_eq (h : s.Answered low high) (v : Result) (r : RecipeRun) :
    ∃ c, cmdTagCheck 2 (s.recipeAt v r) = .next (s.recipeAt ⟨.ok, c⟩ r) := by
  obtain ⟨c, code, bit⟩ := h.answered
  have phase : s.phase ∈ [Phase.doneOk, .doneErr] := by simp [h.phase]
  have run := cmdTagCheck_inRange (h.recipeAt v r).request phase (by decide) code
  rw [bit] at run
  exact ⟨c, run⟩

theorem State.Answered.step_checkTag (h : s.Answered low high) (v : Result) (k : RecipeKind) (l m : Word) :
    ∃ w, step (s.recipeAt v ⟨k, .checkTag, l, m⟩) = .next (s.recipeAt w ⟨k, .readLow, l, m⟩) := by
  obtain ⟨c, check⟩ := h.cmdTagCheck_eq v ⟨k, .checkTag, l, m⟩
  have notErr : s.phase ≠ .doneErr := by simp [h.phase]
  exact ⟨⟨.ok, c⟩, (h.step_eq _ _).trans ((if_neg notErr).trans (andThen_next.mpr ⟨_, check, rfl⟩))⟩

theorem State.Answered.step_readLow (h : s.Answered low high) (v : Result) (k : RecipeKind) (l m : Word) :
    step (s.recipeAt v ⟨k, .readLow, l, m⟩) = .next (s.recipeAt ⟨.ok, low⟩ ⟨k, afterReadLow k, low, m⟩) :=
  (h.step_eq _ _).trans (andThen_next.mpr ⟨_, h.cmdReadWord_eq _ _ (by decide) h.low, rfl⟩)

theorem State.Answered.step_readHigh (h : s.Answered low high) (v : Result) (k : RecipeKind) (l m : Word) :
    step (s.recipeAt v ⟨k, .readHigh, l, m⟩) = .next (s.recipeAt ⟨.ok, high⟩ ⟨k, .discard, l, high⟩) :=
  (h.step_eq _ _).trans (andThen_next.mpr ⟨_, h.cmdReadWord_eq _ _ (by decide) h.high, rfl⟩)

theorem State.Answered.step_discard (h : s.Answered low high) (v : Result) (k : RecipeKind) (l m : Word) :
    step (s.recipeAt v ⟨k, .discard, l, m⟩) = .next (finishRecipe ⟨k, .discard, l, m⟩ (s.setPhase .none)) := by
  have phase : s.phase ∈ [Phase.build, .doneOk, .doneErr] := by simp [h.phase]
  have discard := cmdDiscard_eq (h.recipeAt v ⟨k, .discard, l, m⟩).request phase
  refine (h.step_eq _ _).trans (andThen_next.mpr ⟨_, discard, ?_⟩)
  cases k <;> rfl

end

/-- Settles O31: the stages after CALL one by one, GET_BOARD_SERIAL with a READ_WORD more. -/
theorem answeredRecipeReturnsItsValue : Obligations.AnsweredRecipeReturnsItsValue := by
  rintro s ⟨kind, stage, l, m⟩ c low high valid alone phase request recipe rfl code bit hlow hhigh
  have h : s.Answered low high := ⟨valid, alone, phase, request, ⟨c, code, bit⟩, hlow, hhigh⟩
  obtain ⟨w, check⟩ := h.step_checkTag s.result kind l m
  rw [State.recipeAt_self recipe] at check
  constructor
  · rintro rfl
    calc core.run 3 s
        = core.run 2 (s.recipeAt w ⟨.firmwareRevision, .readLow, l, m⟩) := run_succ check 2
      _ = core.run 1 (s.recipeAt ⟨.ok, low⟩ ⟨.firmwareRevision, .discard, low, m⟩) :=
          run_succ (h.step_readLow _ _ _ _) 1
      _ = .next { s with phase := .none, recipe := none, result := ⟨.ok, low⟩ } :=
          run_succ (h.step_discard _ _ _ _) 0
  · rintro rfl
    calc core.run 4 s
        = core.run 3 (s.recipeAt w ⟨.boardSerial, .readLow, l, m⟩) := run_succ check 3
      _ = core.run 2 (s.recipeAt ⟨.ok, low⟩ ⟨.boardSerial, .readHigh, low, m⟩) :=
          run_succ (h.step_readLow _ _ _ _) 2
      _ = core.run 1 (s.recipeAt ⟨.ok, high⟩ ⟨.boardSerial, .discard, low, high⟩) :=
          run_succ (h.step_readHigh _ _ _ _) 1
      _ = .next { s with phase := .none, recipe := none, result := ⟨.ok, low⟩, value64 := high ++ low } :=
          run_succ (h.step_discard _ _ _ _) 0

end Sys2Proof.Machine
end

section
/-! PROOF. The device side: what FW_POP, FW_PROCESS, FW_PUSH and FOREIGN_PUSH do when they are enabled, and when they
are not (43_mailbox_registers R226 to R231). -/

namespace Sys2Proof.Machine

/-- A step that is taken under a condition, and else refused. -/
theorem ite_refused_next {p : Prop} [Decidable p] {u t : State} {r : Refusal} :
    (if p then .next u else .refused r : Out) = .next t ↔ p ∧ t = u := by
  by_cases h : p
  · simp only [h, if_true, next_eq_next, true_and]
  · simp only [h, if_false, refused_ne_next, false_and]

/-! ### FW_POP -/

theorem exec_fwPop_next {s t : State} :
    exec .fwPop s = .next t ↔
      ∃ w q, s.outq = w :: q ∧ t = (s.setOutq q).setFwPending (insertWord w s.fwPending) := by
  change execFwPop s = .next t ↔ _
  cases h : s.outq <;> simp [execFwPop, h, eq_comm]

theorem exec_fwPop_empty {s : State} (h : s.outq = []) : exec .fwPop s = .refused .stepNotEnabled := by
  change execFwPop s = _
  rw [execFwPop, h]

/-- Settles O37: the head of OUTQ is inserted into FW_PENDING (`insertWord_perm`). -/
theorem firmwareTakesTheOldestRequest : Obligations.FirmwareTakesTheOldestRequest := fun s =>
  ⟨fun w q head => ⟨_, exec_fwPop_next.mpr ⟨w, q, head, rfl⟩, rfl, insertWord_perm w s.fwPending⟩, exec_fwPop_empty⟩

/-! ### FW_PROCESS -/

theorem designatesBuffer_iff (c : Params) (w : Word) :
    designatesBuffer c w = true ↔ w.extractLsb' 0 4 = 8#4 ∧ w &&& 0xFFFFFFF0#32 = c.bufAddr := by
  rw [designatesBuffer, Bool.and_eq_true, decide_eq_true_iff, decide_eq_true_iff]
  rfl

/-- The submission word designates the engine's buffer (30_encoding R107). -/
theorem designatesBuffer_submissionWord {c : Params} (hv : c.Valid) :
    designatesBuffer c (submissionWord c.bufAddr) = true := by
  obtain ⟨-, -, channel, address⟩ := submissionWordKeepsAddressAndChannel c hv
  exact (designatesBuffer_iff c _).mpr ⟨channel, address⟩

theorem exec_fwProcess_next {s t : State} {w : Word} {f : List Word} :
    exec (.fwProcess w f) s = .next t ↔
      (w ∈ s.fwPending ∧ designatesBuffer s.cfg w = true ∧ f.length = 36) ∧ t = s.writeBuf 0 f := ite_refused_next

theorem exec_fwProcess_refused {s : State} {w : Word} {f : List Word}
    (h : ¬ (w ∈ s.fwPending ∧ designatesBuffer s.cfg w = true)) :
    exec (.fwProcess w f) s = .refused .stepNotEnabled :=
  if_neg fun enabled => h ⟨enabled.1, enabled.2.1⟩

/-- A list of words written from BUF[0] on is what the buffer then holds. -/
theorem State.buf_writeBuf_zero (s : State) {f : List Word} {i : Nat} (h : i < f.length) :
    (s.writeBuf 0 f).buf i = some f[i] := by
  simpa using State.buf_writeBuf_at s 0 f h

/-- Settles O38: the write covers BUF[0] to BUF[35] and nothing else. -/
theorem firmwareRewritesTheBufferOnly : Obligations.FirmwareRewritesTheBufferOnly := by
  intro s w f len
  refine ⟨fun pending channel address => ?_, fun h => exec_fwProcess_refused fun ⟨pending, mine⟩ => ?_⟩
  · have mine := (designatesBuffer_iff s.cfg w).mpr ⟨channel, address⟩
    refine ⟨_, exec_fwProcess_next.mpr ⟨⟨pending, mine, len⟩, rfl⟩, rfl, fun i hi => s.buf_writeBuf_zero hi,
      fun a ha => ?_⟩
    exact s.readByte_writeBuf_other 0 f (by rwa [len])
  · obtain ⟨channel, address⟩ := (designatesBuffer_iff s.cfg w).mp mine
    rcases h with notPending | otherChannel | otherBuffer
    · exact notPending pending
    · exact otherChannel channel
    · exact otherBuffer address

/-! ### FW_PUSH and FOREIGN_PUSH -/

theorem exec_fwPush_next {s t : State} {w : Word} :
    exec (.fwPush w) s = .next t ↔
      (w ∈ s.fwPending ∧ s.inq.length < s.cfg.fifoDepth) ∧
        t = (s.setFwPending (removeWord w s.fwPending)).setInq (s.inq ++ [w]) := ite_refused_next

/-- Settles O39: one occurrence of the word leaves FW_PENDING (`removeWord_perm`). -/
theorem firmwarePushesTheRequestWordBack : Obligations.FirmwarePushesTheRequestWordBack := by
  intro s w
  refine ⟨fun pending room => ⟨_, exec_fwPush_next.mpr ⟨⟨pending, room⟩, rfl⟩, rfl, removeWord_perm pending⟩,
    fun h => if_neg fun ⟨pending, room⟩ => ?_⟩
  exact h.elim (· pending) (Nat.not_le.mpr room)

theorem exec_foreignPush_next {s t : State} {x : Word} :
    exec (.foreignPush x) s = .next t ↔
      (s.inq.length < s.cfg.fifoDepth ∧ x ≠ submissionWord s.cfg.bufAddr) ∧ t = s.setInq (s.inq ++ [x]) :=
  ite_refused_next

/-- Settles O40: the condition of the step is that INQ has room and the word is not the submission word. -/
theorem foreignWordsAreNeverTheSubmissionWord : Obligations.ForeignWordsAreNeverTheSubmissionWord := by
  intro s x
  refine ⟨fun room foreign => exec_foreignPush_next.mpr ⟨⟨room, foreign⟩, rfl⟩,
    fun h => if_neg fun ⟨room, foreign⟩ => ?_⟩
  exact h.elim (Nat.not_le.mpr room) foreign

end Sys2Proof.Machine
end

section
/-! PROOF. The registers: the sums of RA_NEW and RA_OFFSET, the accesses through an address, the bare accesses, and
those that are refused or are faults (43_mailbox_registers R210 to R223; 93_implementation_defined U2, U3). -/

namespace Sys2Proof.Machine

/-! ### Addresses -/

theorem returnAddress_sum {a b : Word} (h : a.toNat + b.toNat < 2 ^ 32) (s : State) :
    returnAddress (a.toNat + b.toNat) s = .next { s with result := ⟨.ok, a + b⟩ } := by
  have sum : BitVec.ofNat 32 (a.toNat + b.toNat) = a + b := by simp [BitVec.ofNat_add]
  rw [returnAddress, if_neg (Nat.not_le.mpr h), sum]
  rfl

theorem returnAddress_overflow {a : Nat} (h : 2 ^ 32 ≤ a) (s : State) :
    returnAddress a s = .refused .addressOverflow := if_pos h

theorem exec_raNew {s : State} (idle : s.busy = false) (base : s.baseValid = true) (n : Word) :
    exec (.raNew n) s = returnAddress (s.cfg.mmioBase.toNat + n.toNat) s :=
  (hostTurn_idle idle _).trans (throughRa_ok base _)

theorem exec_raOffset {s : State} (idle : s.busy = false) (base : s.baseValid = true) (a n : Word) :
    exec (.raOffset a n) s = returnAddress (a.toNat + n.toNat) s :=
  (hostTurn_idle idle _).trans (throughRa_ok base _)

/-- Settles O32: both operations answer a sum, or refuse it. -/
theorem registerAddressesAreSums : Obligations.RegisterAddressesAreSums := by
  intro s a n idle base
  rw [exec_raNew idle base, exec_raOffset idle base]
  exact ⟨fun h => returnAddress_sum h s, fun h => returnAddress_overflow h s, fun h => returnAddress_sum h s,
    fun h => returnAddress_overflow h s⟩

/-! ### The queues behind the registers -/

theorem takeInbound_empty {s : State} (h : s.inq = []) (k : Word → State → Out) :
    takeInbound s k = .fault .inqEmpty := by
  rw [takeInbound, h]

theorem appendOutbound_room {s : State} (h : s.outq.length ≠ s.cfg.fifoDepth) (v : Word) :
    appendOutbound v s = .next { s with outq := s.outq ++ [v] } :=
  appendOutbound_next.mpr ⟨h, rfl⟩

theorem appendOutbound_full {s : State} (h : s.outq.length = s.cfg.fifoDepth) (v : Word) :
    appendOutbound v s = .fault .outqFull :=
  if_pos ((outqFull_iff s).mpr h)

/-! ### Accesses through an address -/

theorem regOffset_eq_some {c : Params} {a : Word} {k : Nat} :
    regOffset c a = some k ↔ a.toNat = c.mmioBase.toNat + 0xb880 + k := by
  unfold regOffset regBlock Config.mboxOffset
  split
  · rw [Option.some.injEq]
    omega
  · exact iff_of_false nofun (by omega)

section
variable {s : State} {a : Word} (idle : s.busy = false) (base : s.baseValid = true)
include idle base

theorem exec_raRead_misaligned (misaligned : a.toNat % 4 ≠ 0) :
    exec (.raRead a) s = .refused .misalignedAddress :=
  (hostTurn_idle idle _).trans ((throughRa_ok base _).trans (if_pos misaligned))

theorem exec_raWrite_misaligned (misaligned : a.toNat % 4 ≠ 0) (v : Word) :
    exec (.raWrite a v) s = .refused .misalignedAddress :=
  (hostTurn_idle idle _).trans ((throughRa_ok base _).trans (if_pos misaligned))

/-- RA_READ of an aligned address reads MBOX_RW, or MBOX_STATUS, or is refused. -/
theorem exec_raRead_aligned (aligned : a.toNat % 4 = 0) :
    exec (.raRead a) s =
      if regOffset s.cfg a = some 0x00 then takeInbound s fun w t => .next (t.ret w)
      else if regOffset s.cfg a = some 0x18 then .next (s.statusDrawn.ret s.status.word)
      else .refused .registerNotDescribed :=
  (hostTurn_idle idle _).trans ((throughRa_ok base _).trans (if_neg (not_not.mpr aligned)))

/-- RA_WRITE of an aligned address writes MBOX_WRITE, or is refused. -/
theorem exec_raWrite_aligned (aligned : a.toNat % 4 = 0) (v : Word) :
    exec (.raWrite a v) s =
      if regOffset s.cfg a = some 0x20 then appendOutbound v s else .refused .registerNotDescribed :=
  (hostTurn_idle idle _).trans ((throughRa_ok base _).trans (if_neg (not_not.mpr aligned)))

theorem exec_raRead_mboxRw (aligned : a.toNat % 4 = 0) (names : a.toNat = s.cfg.mmioBase.toNat + 0xb880) :
    exec (.raRead a) s = takeInbound s fun w t => .next (t.ret w) := by
  rw [exec_raRead_aligned idle base aligned, if_pos (regOffset_eq_some.mpr names)]

theorem exec_raRead_mboxStatus (aligned : a.toNat % 4 = 0)
    (names : a.toNat = s.cfg.mmioBase.toNat + 0xb880 + 0x18) :
    exec (.raRead a) s = .next (s.statusDrawn.ret s.status.word) := by
  have status : regOffset s.cfg a = some 0x18 := regOffset_eq_some.mpr names
  rw [exec_raRead_aligned idle base aligned, status]
  rfl

theorem exec_raWrite_mboxWrite (aligned : a.toNat % 4 = 0)
    (names : a.toNat = s.cfg.mmioBase.toNat + 0xb880 + 0x20) (v : Word) :
    exec (.raWrite a v) s = appendOutbound v s := by
  rw [exec_raWrite_aligned idle base aligned, if_pos (regOffset_eq_some.mpr names)]

end

/-- Settles O33: the offset of the address decides which register is accessed (`regOffset_eq_some`). -/
theorem registerAddressAccessesTheNamedRegister : Obligations.RegisterAddressAccessesTheNamedRegister := by
  intro s a v idle base
  refine ⟨fun names aligned w q head => ?_, fun names aligned => ?_, fun names aligned room => ?_,
    fun misaligned => ⟨?_, ?_⟩, fun aligned notRw notStatus => ?_, fun aligned notWrite => ?_⟩
  · rw [exec_raRead_mboxRw idle base aligned names, takeInbound_eq head]
    rfl
  · exact exec_raRead_mboxStatus idle base aligned names
  · rw [exec_raWrite_mboxWrite idle base aligned names, appendOutbound_room room]
  · exact exec_raRead_misaligned idle base misaligned
  · exact exec_raWrite_misaligned idle base misaligned v
  · rw [exec_raRead_aligned idle base aligned, if_neg (mt regOffset_eq_some.mp notRw),
      if_neg (mt regOffset_eq_some.mp notStatus)]
  · rw [exec_raWrite_aligned idle base aligned, if_neg (mt regOffset_eq_some.mp notWrite)]

/-! ### Bare accesses -/

section
variable {s : State} (base : s.baseValid = true)
include base

theorem exec_rdMboxRw : exec .rdMboxRw s = takeInbound s fun w t => .next (t.setReadData w) := throughRa_ok base _

theorem exec_rdMboxStatus : exec .rdMboxStatus s = .next (s.statusDrawn.setReadData s.status.word) :=
  throughRa_ok base _

theorem exec_wrMboxWrite (v : Word) : exec (.wrMboxWrite v) s = appendOutbound v s := throughRa_ok base _

end

/-- Settles O34: each access reaches its queue, or the status word. -/
theorem bareRegisterAccesses : Obligations.BareRegisterAccesses := by
  intro s v base
  refine ⟨fun w q head => ?_, exec_rdMboxStatus base, fun room => ?_⟩
  · rw [exec_rdMboxRw base, takeInbound_eq head]
    rfl
  · rw [exec_wrMboxWrite base, appendOutbound_room room]

/-- Settles O36: each of these instructions has its refusal as its meaning. -/
theorem undescribedAccessesAndReservedCodesAreRefused :
    Obligations.UndescribedAccessesAndReservedCodesAreRefused := by
  intro s v acc off cw info code
  refine ⟨fun i undescribed => ?_, fun i reserved => ?_, rfl⟩
  · fin_cases undescribed <;> rfl
  · fin_cases reserved <;> rfl

/-! ### Queue misuse -/

theorem submitWriteStep_full {s : State} (here : s.atStep .submitWrite) (full : s.outq.length = s.cfg.fifoDepth) :
    submitWriteStep s = .fault .outqFull := by
  have latched : (s.setSub (submissionWord s.cfg.bufAddr)).outq.length = s.cfg.fifoDepth := full
  rw [submitWriteStep, inStep_ok here.1, throughRa_ok here.2, appendOutbound_full latched]
  rfl

theorem corrReadStep_inqEmpty {s : State} (here : s.atStep .corrRead) (empty : s.inq = []) :
    corrReadStep s = .fault .inqEmpty := by
  rw [corrReadStep, inStep_ok here.1, throughRa_ok here.2, takeInbound_empty empty]

/-- Settles O41: each access reaches the queue it names, which is full or empty. -/
theorem queueMisuseFaults : Obligations.QueueMisuseFaults := by
  intro s a v base
  refine ⟨fun full => ⟨?_, fun idle names aligned => ?_, fun phase => submitWriteStep_full ⟨phase, base⟩ full⟩,
    fun empty => ⟨?_, fun idle names aligned => ?_, fun phase => corrReadStep_inqEmpty ⟨phase, base⟩ empty⟩⟩
  · rw [exec_wrMboxWrite base, appendOutbound_full full]
  · rw [exec_raWrite_mboxWrite idle base aligned names, appendOutbound_full full]
  · rw [exec_rdMboxRw base, takeInbound_empty empty]
  · rw [exec_raRead_mboxRw idle base aligned names, takeInbound_empty empty]

end Sys2Proof.Machine
end

section
/-! PROOF. With a firmware that behaves (FW_OK) a CALL ends with Ok or FirmwareRejected: what the engine and the device
have done is told by the firmware's stage, every step of the execution keeps that, and the engine alone then reads the
response (43_mailbox_registers R232; 41_call R166 to R170). -/

namespace Sys2Proof.Machine

/-! ### How CALL ends -/

/-- BUF[1] is one of the two codes a behaving firmware leaves there (43_mailbox_registers R232 (b1)). -/
def State.Coded (s : State) : Prop := s.buf 1 = some 0x80000000#32 ∨ s.buf 1 = some 0x80000001#32

/-- PHASE and RESULT of a CALL that has ended with Ok or with FirmwareRejected. -/
def EndsAnswered (p : Phase) (r : Result) : Prop :=
  (p = .doneOk ∧ r = ⟨.ok, 0x80000000#32⟩) ∨ (p = .doneErr ∧ r = ⟨.firmwareRejected, 0x80000001#32⟩)

/-- CORR_READ of the response ends CALL, as BUF[1] says (41_call R170). -/
theorem corrReadStep_coded {s : State} {q : List Word} (here : s.atStep .corrRead) (head : s.inq = s.sub :: q)
    (code : s.Coded) :
    ∃ p r, EndsAnswered p r ∧ corrReadStep s = .next { s with inq := q, resp := s.sub, phase := p, result := r } := by
  rcases code with code | code
  · exact ⟨_, _, .inl ⟨rfl, rfl⟩, corrReadStep_matching here head code⟩
  · exact ⟨_, _, .inr ⟨rfl, rfl⟩, corrReadStep_matching here head code⟩

/-- What a behaving firmware leaves in the buffer has one of its two codes in BUF[1]. -/
theorem fwOkWrite.coded {s : State} {f : List Word} (good : fwOkWrite s f) : (s.writeBuf 0 f).Coded := by
  obtain ⟨length, code, -⟩ := good
  have len : f.length = 36 := length
  have written : (s.writeBuf 0 f).buf 1 = f[1]? := by
    rw [s.buf_writeBuf_zero (i := 1) (by omega), List.getElem?_eq_getElem]
  rw [State.Coded, written]
  exact code

/-- Some run ends CALL with Ok or with FirmwareRejected. -/
def State.Ends (s : State) : Prop := ∃ k t, core.run k s = .next t ∧ EndsAnswered t.phase t.result

theorem EndsAnswered.ends {s : State} (h : EndsAnswered s.phase s.result) : s.Ends := ⟨0, s, rfl, h⟩

theorem State.Ends.of_step {s t : State} (run : step s = .next t) (h : t.Ends) : s.Ends := by
  obtain ⟨k, u, rest, hu⟩ := h
  exact ⟨k + 1, u, (run_succ run k).trans rest, hu⟩

/-- A step on the words of an instruction of a port that does not wait is that instruction. -/
theorem step_words {s : State} {p : Port} {ws : List Word} {rest : List Input} {i : Instr} (hv : s.cfg.Valid)
    (ha : s.agenda = .words p ws :: rest) (goes : portWaits p = false) (hd : decode p ws = .ok (i, [])) :
    step s = exec i (s.setAgenda rest) :=
  stepRunsTheDecodedInstruction s p ws [] rest i hv ha (fun waits => absurd (goes.symm.trans waits) nofun) hd

theorem step_engineInput {s : State} {rest : List Input} (hv : s.cfg.Valid) (ha : s.agenda = .engine :: rest) :
    step s = engineStep (s.setAgenda rest) :=
  step_input hv ha nofun

theorem decode_fwProcess (w : Word) {f : List Word} (len : f.length = 36) :
    decode .fwProcess (w :: f) = .ok (.fwProcess w f, []) :=
  Laws.RoundTrip.fwProcess w f (decide_eq_true len)

/-! ### What the stage of the firmware tells -/

/-- The engine has not written its request yet, and the word is not in OUTQ. -/
structure State.Submits (w : Word) (s : State) : Prop where
  phase : s.phase = .submitPoll ∨ s.phase = .submitWrite
  absent : w ∉ s.outq

/-- The engine waits for the response w; where it reads, there is a word to read. -/
structure State.Awaits (w : Word) (s : State) : Prop where
  sub : s.sub = w
  phase : s.phase = .corrPoll ∨ s.phase = .corrRead ∧ s.inq ≠ []

/-- The handshake for the request word w, with the firmware at stage g: the firmware gets no further before the engine
has submitted, w stands in INQ once it has been pushed, and BUF[1] is a code once it has been processed. -/
structure State.Handshake (w : Word) (g : FwStage) (s : State) : Prop where
  valid : s.cfg.Valid
  unlimited : s.cfg.pollLimit = none
  baseValid : s.baseValid = true
  request : submissionWord s.cfg.bufAddr = w
  engine : g = .waiting ∧ s.Submits w ∨ s.Awaits w
  response : w ∈ s.inq ↔ g = .answered
  code : g = .processed ∨ g = .answered → s.Coded

section
variable {w : Word} {g : FwStage} {s t : State}

theorem State.Handshake.busy (h : s.Handshake w g) : s.busy = true := by
  have inCall : s.phase.inCall = true := by
    rcases h.engine with ⟨-, hs⟩ | ha
    · rcases hs.phase with e | e <;> rw [e] <;> rfl
    · rcases ha.phase with e | ⟨e, -⟩ <;> rw [e] <;> rfl
  rw [State.busy, inCall, Bool.true_or]

/-- Past its first stage the firmware has the request. -/
theorem State.Handshake.awaits (h : s.Handshake w g) (hg : g ≠ .waiting) : s.Awaits w :=
  h.engine.resolve_left fun e => hg e.1

/-! ### Steps of FW and FOREIGN that are not about the request -/

/-- What the other agents can do to the queues while the engine waits: take words of OUTQ, and add words other than w to
INQ. -/
structure Traffic (w : Word) (s t : State) : Prop where
  cfg : t.cfg = s.cfg
  baseValid : t.baseValid = s.baseValid
  mem : t.mem = s.mem
  phase : t.phase = s.phase
  sub : t.sub = s.sub
  outq : t.outq ⊆ s.outq
  inq : ∃ l, t.inq = s.inq ++ l ∧ w ∉ l

theorem State.Handshake.traffic (h : s.Handshake w g) (tr : Traffic w s t) : t.Handshake w g := by
  obtain ⟨l, inq, other⟩ := tr.inq
  refine ⟨tr.cfg ▸ h.valid, tr.cfg ▸ h.unlimited, tr.baseValid.trans h.baseValid, tr.cfg ▸ h.request, ?_, ?_,
    fun hg => ?_⟩
  · refine h.engine.imp (fun ⟨hg, hs⟩ => ⟨hg, tr.phase ▸ hs.phase, fun hw => hs.absent (tr.outq hw)⟩)
      fun ha => ⟨tr.sub.trans ha.sub, ?_⟩
    rw [tr.phase, inq]
    exact ha.phase.imp_right (And.imp_right fun word => List.append_ne_nil_of_left_ne_nil word l)
  · rw [← h.response, inq, List.mem_append]
    exact or_iff_left other
  · simpa only [State.Coded, State.buf_congr tr.mem tr.cfg] using h.code hg

theorem State.Handshake.setAgenda (h : s.Handshake w g) (a : List Input) : (s.setAgenda a).Handshake w g :=
  h.traffic ⟨rfl, rfl, rfl, rfl, rfl, List.Subset.refl _, [], (List.append_nil _).symm, List.not_mem_nil⟩

theorem Traffic.fwPop (w : Word) (run : exec .fwPop s = .next t) : Traffic w s t := by
  obtain ⟨v, q, head, rfl⟩ := exec_fwPop_next.mp run
  exact ⟨rfl, rfl, rfl, rfl, rfl, head ▸ List.subset_cons_self v q, [], (List.append_nil _).symm, List.not_mem_nil⟩

theorem Traffic.fwPush {v : Word} (other : v ≠ w) (run : exec (.fwPush v) s = .next t) : Traffic w s t := by
  obtain ⟨-, rfl⟩ := exec_fwPush_next.mp run
  exact ⟨rfl, rfl, rfl, rfl, rfl, List.Subset.refl _, [v], rfl, mt List.mem_singleton.mp other.symm⟩

theorem Traffic.foreignPush {x : Word} (run : exec (.foreignPush x) s = .next t) :
    Traffic (submissionWord s.cfg.bufAddr) s t := by
  obtain ⟨⟨-, foreign⟩, rfl⟩ := exec_foreignPush_next.mp run
  exact ⟨rfl, rfl, rfl, rfl, rfl, List.Subset.refl _, [x], rfl, mt List.mem_singleton.mp foreign.symm⟩

/-! ### The firmware's three steps for the request -/

/-- (a): before the request is written its word is not in OUTQ, so the engine has submitted. -/
theorem State.Handshake.pop (h : s.Handshake w .waiting) (head : s.outq.head? = some w)
    (run : exec .fwPop s = .next t) : t.Handshake w .taken := by
  have submitted : s.Awaits w := h.engine.resolve_left fun e => e.2.absent (List.mem_of_mem_head? head)
  have taken : s.Handshake w .taken :=
    { h with engine := .inr submitted, response := h.response.trans (by decide), code := nofun }
  exact taken.traffic (.fwPop w run)

/-- (b): the firmware leaves a code in BUF[1]. -/
theorem State.Handshake.process {f : List Word} (h : s.Handshake w .taken) (good : fwOkWrite s f)
    (run : exec (.fwProcess w f) s = .next t) : t.Handshake w .processed := by
  obtain ⟨-, rfl⟩ := exec_fwProcess_next.mp run
  obtain ⟨sub, phase⟩ := h.awaits nofun
  exact { h with engine := .inr ⟨sub, phase⟩, response := h.response.trans (by decide), code := fun _ => good.coded }

/-- (c): the word goes to INQ. -/
theorem State.Handshake.push (h : s.Handshake w .processed) (run : exec (.fwPush w) s = .next t) :
    t.Handshake w .answered := by
  obtain ⟨-, rfl⟩ := exec_fwPush_next.mp run
  obtain ⟨sub, phase⟩ := h.awaits nofun
  exact
    { h with
      engine := .inr ⟨sub, phase.imp_right (And.imp_right fun _ => by simp)⟩
      response := iff_of_true (by simp) rfl
      code := fun _ => h.code (.inl rfl) }

/-! ### The engine's steps -/

/-- How many phase-steps the engine takes, at most, to read every word of INQ. -/
def State.stepsToRead (s : State) : Nat := 2 * s.inq.length + if s.phase = .corrPoll then 1 else 0

/-- While the engine waits for the response its step ends CALL, or leaves it nearer to the end of INQ. -/
theorem State.Handshake.awaits_engineStep (h : s.Handshake w g) (ha : s.Awaits w) :
    ∃ t, engineStep s = .next t ∧ (EndsAnswered t.phase t.result ∨ t.Handshake w g ∧ t.agenda = s.agenda ∧
      (s.inq ≠ [] → t.stepsToRead < s.stepsToRead)) := by
  have left := budgetLeft_of_unlimited h.unlimited
  rcases ha.phase with phase | ⟨phase, word⟩
  · rw [engineStep_corrPoll phase]
    by_cases empty : s.inq = []
    · refine ⟨_, corrPollStep_empty_budgetLeft ⟨phase, h.baseValid⟩ empty left, .inr ⟨?_, rfl, absurd empty⟩⟩
      exact { h with engine := .inr ⟨ha.sub, .inl phase⟩ }
    · refine ⟨_, corrPollStep_word ⟨phase, h.baseValid⟩ empty, .inr ⟨?_, rfl, fun _ => ?_⟩⟩
      · exact { h with engine := .inr ⟨ha.sub, .inr ⟨rfl, empty⟩⟩ }
      · simp [State.stepsToRead, phase]
  · rw [engineStep_corrRead phase]
    obtain ⟨x, q, head⟩ := List.exists_cons_of_ne_nil word
    by_cases hx : x = w
    · have answered : g = .answered := h.response.mp (by simp [head, hx])
      obtain ⟨p, r, ended, run⟩ :=
        corrReadStep_coded ⟨phase, h.baseValid⟩ (by rw [head, hx, ha.sub]) (h.code (.inr answered))
      exact ⟨_, run, .inl ended⟩
    · refine ⟨_, corrReadStep_foreign_budgetLeft ⟨phase, h.baseValid⟩ head (ha.sub ▸ hx) left,
        .inr ⟨?_, rfl, fun _ => ?_⟩⟩
      · have response : w ∈ q ↔ g = .answered := by
          rw [← h.response, head, List.mem_cons]
          exact (or_iff_right (Ne.symm hx)).symm
        exact { h with engine := .inr ⟨ha.sub, .inl rfl⟩, response }
      · simp [State.stepsToRead, head, phase]
        omega

/-- Before that its step polls, or writes the request. -/
theorem State.Handshake.submits_engineStep (h : s.Handshake w .waiting) (hs : s.Submits w)
    (run : engineStep s = .next t) : t.Handshake w .waiting := by
  rcases hs.phase with phase | phase
  · rw [engineStep_submitPoll phase] at run
    by_cases full : s.outq.length = s.cfg.fifoDepth
    · rw [submitPollStep_full_budgetLeft ⟨phase, h.baseValid⟩ full (budgetLeft_of_unlimited h.unlimited)] at run
      cases run
      exact { h with engine := .inl ⟨rfl, .inl phase, hs.absent⟩ }
    · rw [submitPollStep_room ⟨phase, h.baseValid⟩ full] at run
      cases run
      exact { h with engine := .inl ⟨rfl, .inr rfl, hs.absent⟩ }
  · rw [engineStep_submitWrite phase] at run
    obtain ⟨-, -, -, rfl⟩ := submitWriteStep_next.mp run
    exact { h with engine := .inr ⟨h.request, .inl rfl⟩ }

theorem State.Handshake.engineStep (h : s.Handshake w g) (run : engineStep s = .next t) :
    EndsAnswered t.phase t.result ∨ t.Handshake w g := by
  rcases h.engine with ⟨rfl, hs⟩ | ha
  · exact .inr (h.submits_engineStep hs run)
  · obtain ⟨u, run', hu⟩ := h.awaits_engineStep ha
    obtain rfl : u = t := next_eq_next.mp (run.symm.trans run')
    exact hu.imp_right And.left

/-! ### Executions -/

theorem State.Handshake.step_alone (h : s.Handshake w g) (alone : ∀ x ∈ s.agenda.head?, inputWaits x = true) :
    step s = Machine.engineStep s := by
  cases ha : s.agenda with
  | nil => exact step_engine h.valid ha
  | cons x rest => exact step_waits h.valid ha (alone x (by rw [ha]; rfl)) h.busy

/-- The engine moves, on the state its input, if it had one, has been taken from. -/
theorem State.Handshake.step_engine (h : s.Handshake w g)
    (moves : ∀ x ∈ s.agenda.head?, x = .engine ∨ inputWaits x = true) :
    ∃ a, step s = Machine.engineStep (s.setAgenda a) := by
  by_cases alone : ∀ x ∈ s.agenda.head?, inputWaits x = true
  · exact ⟨s.agenda, h.step_alone alone⟩
  · push Not at alone
    obtain ⟨x, hx, goes⟩ := alone
    obtain ⟨rest, ha⟩ := List.head?_eq_some_iff.mp hx
    obtain rfl := (moves x hx).resolve_right goes
    exact ⟨rest, step_engineInput h.valid ha⟩

/-- Once w stands in INQ the engine alone reads it. -/
theorem State.Handshake.ends_alone {s : State} (h : s.Handshake w .answered)
    (alone : ∀ x ∈ s.agenda.head?, inputWaits x = true) : s.Ends := by
  obtain ⟨t, run, ended | ⟨ht, same, nearer⟩⟩ := h.awaits_engineStep (h.awaits nofun)
  · exact .of_step ((h.step_alone alone).trans run) ended.ends
  · have less : t.stepsToRead < s.stepsToRead := nearer (List.ne_nil_of_mem (h.response.mpr rfl))
    exact .of_step ((h.step_alone alone).trans run) (ht.ends_alone (same ▸ alone))
termination_by s.stepsToRead

/-- Every step of the execution keeps the handshake or ends CALL, and the engine alone ends it at last. -/
theorem FwOk.ends (execution : FwOk w g s) (h : s.Handshake w g) : s.Ends := by
  induction execution with
  | done alone => exact h.ends_alone alone
  | engine moves run _ ih =>
    obtain ⟨a, engine⟩ := h.step_engine moves
    rcases (h.setAgenda a).engineStep (engine.symm.trans run) with ended | ht
    · exact .of_step run ended.ends
    · exact .of_step run (ih ht)
  | foreignPush ha run _ ih =>
    have push := (step_words h.valid ha rfl rfl).symm.trans run
    have traffic := h.request ▸ Traffic.foreignPush push
    exact .of_step run (ih ((h.setAgenda _).traffic traffic))
  | popOther ha _ run _ ih =>
    have pop := (step_words h.valid ha rfl rfl).symm.trans run
    exact .of_step run (ih ((h.setAgenda _).traffic (.fwPop w pop)))
  | pushOther ha other run _ ih =>
    have push := (step_words h.valid ha rfl rfl).symm.trans run
    exact .of_step run (ih ((h.setAgenda _).traffic (.fwPush other push)))
  | @pop s t rest ha head run _ ih =>
    have pop := (step_words h.valid ha rfl rfl).symm.trans run
    exact .of_step run (ih ((h.setAgenda rest).pop head pop))
  | @process s t f rest ha good run _ ih =>
    have process := (step_words h.valid ha rfl (decode_fwProcess w good.1)).symm.trans run
    exact .of_step run (ih ((h.setAgenda rest).process good process))
  | push ha run _ ih =>
    have push := (step_words h.valid ha rfl rfl).symm.trans run
    exact .of_step run (ih ((h.setAgenda _).push push))

end

end Sys2Proof.Machine
end

section
/-! PROOF. The handshake without a failed poll or a foreign word, in seven steps (43_mailbox_registers R226, R228, R229;
41_call R163 to R170). -/

namespace Sys2Proof.Machine

/-- s once the engine has submitted, in PHASE p, with these words in the queues and in FW_PENDING. -/
def State.requested (s : State) (p : Phase) (outq inq pending : List Word) (agenda : List Input) : State :=
  { s with
    phase := p, sub := submissionWord s.cfg.bufAddr, polls := 0, outq := outq, inq := inq, fwPending := pending,
    agenda := agenda }

section
variable {s : State} {w : Word} {p : Phase} {outq inq pending : List Word} {a : List Input} (valid : s.cfg.Valid)
include valid

theorem fifoDepth_pos : 0 < s.cfg.fifoDepth := by
  obtain ⟨-, -, -, -, -, depth, -, -⟩ := valid
  exact depth

theorem State.requested_pop :
    step (s.requested p [w] inq [] (.words .fwPop [] :: a)) = .next (s.requested p [] inq [w] a) := by
  rw [step_words (s := s.requested p [w] inq [] _) valid rfl rfl rfl]
  exact exec_fwPop_next.mpr ⟨w, [], rfl, rfl⟩

theorem State.requested_process (hw : w = submissionWord s.cfg.bufAddr) {f : List Word} (len : f.length = 36) :
    step (s.requested p outq inq [w] (.words .fwProcess (w :: f) :: a)) =
      .next ((s.writeBuf 0 f).requested p outq inq [w] a) := by
  have mine : designatesBuffer s.cfg w = true := hw ▸ designatesBuffer_submissionWord valid
  rw [step_words (s := s.requested p outq inq [w] _) valid rfl rfl (decode_fwProcess w len)]
  exact exec_fwProcess_next.mpr ⟨⟨List.mem_singleton_self w, mine, len⟩, rfl⟩

theorem State.requested_push :
    step (s.requested p outq [] [w] (.words .fwPush [w] :: a)) = .next (s.requested p outq [w] [] a) := by
  have delivered : removeWord w [w] = [] := if_pos rfl
  have push : exec (.fwPush w) (s.requested p outq [] [w] a) =
      .next (((s.requested p outq [] [w] a).setFwPending (removeWord w [w])).setInq [w]) :=
    exec_fwPush_next.mpr ⟨⟨List.mem_singleton_self w, fifoDepth_pos valid⟩, rfl⟩
  rw [delivered] at push
  exact (step_words (s := s.requested p outq [] [w] _) valid rfl rfl rfl).trans push

theorem State.requested_poll (base : s.baseValid = true) :
    step (s.requested .corrPoll outq [w] pending (.engine :: a)) =
      .next (s.statusDrawn.requested .corrRead outq [w] pending a) :=
  (step_engineInput (s := s.requested .corrPoll outq [w] pending _) valid rfl).trans ((engineStep_corrPoll rfl).trans
    (corrPollStep_word (s := s.requested .corrPoll outq [w] pending a) ⟨rfl, base⟩ (List.cons_ne_nil w [])))

theorem State.requested_read (base : s.baseValid = true) (code : s.Coded) (hw : w = submissionWord s.cfg.bufAddr) :
    ∃ p r, EndsAnswered p r ∧
      step (s.requested .corrRead outq [w] pending (.engine :: a)) =
        .next { s.requested p outq [] pending a with resp := w, result := r } := by
  subst hw
  obtain ⟨p, r, ended, run⟩ := corrReadStep_coded
    (s := s.requested .corrRead outq [submissionWord s.cfg.bufAddr] pending a) ⟨rfl, base⟩ rfl code
  exact ⟨p, r, ended, (step_engineInput (s := s.requested .corrRead outq _ pending _) valid rfl).trans
    ((engineStep_corrRead rfl).trans run)⟩

/-- The firmware's three steps and the engine's last two. -/
theorem State.requested_run (base : s.baseValid = true) (hw : w = submissionWord s.cfg.bufAddr) {f : List Word}
    (good : fwOkWrite s f) :
    ∃ p r, EndsAnswered p r ∧
      core.run 5 (s.requested .corrPoll [w] [] [] [.words .fwPop [], .words .fwProcess (w :: f), .words .fwPush [w],
        .engine, .engine]) =
      .next { (s.writeBuf 0 f).statusDrawn.requested p [] [] [] [] with resp := w, result := r } := by
  obtain ⟨p, r, ended, read⟩ := State.requested_read (s := (s.writeBuf 0 f).statusDrawn) (outq := []) (pending := [])
    (a := []) valid base good.coded hw
  refine ⟨p, r, ended, ?_⟩
  calc core.run 5 (s.requested .corrPoll [w] [] [] _)
      = core.run 4 (s.requested .corrPoll [] [] [w] _) := run_succ (State.requested_pop valid) 4
    _ = core.run 3 ((s.writeBuf 0 f).requested .corrPoll [] [] [w] _) :=
        run_succ (State.requested_process valid hw good.1) 3
    _ = core.run 2 ((s.writeBuf 0 f).requested .corrPoll [] [w] [] _) :=
        run_succ (State.requested_push (s := s.writeBuf 0 f) valid) 2
    _ = core.run 1 ((s.writeBuf 0 f).statusDrawn.requested .corrRead [] [w] [] [.engine]) :=
        run_succ (State.requested_poll (s := s.writeBuf 0 f) valid base) 1
    _ = .next { (s.writeBuf 0 f).statusDrawn.requested p [] [] [] [] with resp := w, result := r } :=
        run_succ read 0

/-- The two phase-steps of the submission, with room in OUTQ. -/
theorem State.submission_run (here : s.atStep .submitPoll) (noRequest : s.outq = []) (noResponse : s.inq = [])
    (noPending : s.fwPending = []) (ha : s.agenda = .engine :: .engine :: a) (k : Nat) :
    core.run (k + 2) s =
      core.run k (s.statusDrawn.requested .corrPoll [submissionWord s.cfg.bufAddr] [] [] a) := by
  have room : s.outq.length ≠ s.cfg.fifoDepth := noRequest ▸ Nat.ne_of_lt (fifoDepth_pos valid)
  have poll : step s = .next ((s.statusDrawn.setPhase .submitWrite).setAgenda (.engine :: a)) :=
    (step_engineInput valid ha).trans ((engineStep_submitPoll (s := s.setAgenda (.engine :: a)) here.1).trans
      (submitPollStep_room (s := s.setAgenda (.engine :: a)) here room))
  have write : step ((s.statusDrawn.setPhase .submitWrite).setAgenda (.engine :: a)) =
      .next (s.statusDrawn.requested .corrPoll [submissionWord s.cfg.bufAddr] [] [] a) := by
    refine (step_engineInput (s := (s.statusDrawn.setPhase .submitWrite).setAgenda (.engine :: a)) valid rfl).trans
      ((engineStep_submitWrite rfl).trans (submitWriteStep_next.mpr ⟨rfl, here.2, room, ?_⟩))
    simp [State.requested, State.statusDrawn, State.setDraws, State.setPhase, State.setAgenda, State.setSub,
      State.setOutq, State.setPolls, noRequest, noResponse, noPending]
  exact (run_succ poll _).trans (run_succ write _)

end

/-- Settles O22: any execution by `FwOk.ends`, the shortest one step by step. -/
theorem handshakeUnderFwOkEnds : Obligations.HandshakeUnderFwOkEnds := by
  rintro s valid ⟨phase, base⟩
  refine ⟨fun unlimited notSent notAnswered execution => ?_, fun f outq inq pending good ha => ?_⟩
  · exact execution.ends
      { valid, unlimited, baseValid := base, request := rfl
        engine := .inl ⟨rfl, .inl phase, notSent⟩
        response := iff_of_false notAnswered nofun
        code := nofun }
  · obtain ⟨p, r, ended, run⟩ := State.requested_run (s := s.statusDrawn) valid base rfl good
    exact ⟨_, (State.submission_run valid ⟨phase, base⟩ outq inq pending ha 5).trans run, ended,
      fun i h => s.buf_writeBuf_zero h, rfl, rfl, rfl, rfl, rfl, rfl, rfl⟩

end Sys2Proof.Machine
end

section
/-! PROOF. The lock: TRY_ACQUIRE and RELEASE, and what the guard of lock 0 admits (44_lock R241 to R249). -/

namespace Sys2Proof.Machine

/-! ### TRY_ACQUIRE and RELEASE, each in every case it has -/

section
variable {s : State} {k : BitVec 8} {l : LockCell} (idle : s.busy = false) (cell : s.locks[k.toNat]? = some l)
include idle cell

theorem exec_tryAcquire_unlocked (free : l.flag = .unlocked) :
    exec (.tryAcquire k) s = .next (acquire k.toNat s) :=
  execTryAcquire_next.mpr ⟨idle, tryAcquire_next.mpr ⟨l, cell, .inl ⟨free, rfl⟩⟩⟩

theorem exec_tryAcquire_locked (taken : l.flag = .locked) :
    exec (.tryAcquire k) s = .next (s.raise .lockContention (BitVec.ofNat 32 k.toNat)) :=
  execTryAcquire_next.mpr ⟨idle, tryAcquire_next.mpr ⟨l, cell, .inr ⟨taken, rfl⟩⟩⟩

theorem exec_release_held (live : l.live = true) (mine : l.holder = s.running) :
    exec (.release k) s = .next (giveBack k.toNat l s) :=
  execRelease_next.mpr ⟨idle, l, cell, live, mine, rfl⟩

theorem exec_release_notHeld (other : l.live = false ∨ l.holder ≠ s.running) :
    exec (.release k) s = .refused .noLiveGuard := by
  have notHeld : ¬ s.holdsGuard k.toNat = true := fun held => by
    obtain ⟨c, hc, live, mine⟩ := State.holdsGuard_iff.mp held
    obtain rfl : c = l := Option.some.inj (hc.symm.trans cell)
    exact other.elim (fun dead => absurd live (by simp [dead])) fun theirs => theirs mine
  calc exec (.release k) s = execRelease k s := rfl
    _ = if s.holdsGuard k.toNat then .next (giveBack k.toNat l s) else .refused .noLiveGuard := by
      rw [execRelease, hostTurn_idle idle, cell]
    _ = .refused .noLiveGuard := if_neg notHeld

end

theorem exec_tryAcquire_noLock {s : State} {k : BitVec 8} (idle : s.busy = false) (out : s.locks.length ≤ k.toNat) :
    exec (.tryAcquire k) s = .refused .operandOutOfRange := by
  calc exec (.tryAcquire k) s = tryAcquire k.toNat s := hostTurn_idle idle _
    _ = .refused .operandOutOfRange := by rw [tryAcquire, List.getElem?_eq_none out]

/-- Settles O42: the word by its fields, and the attempt by the flag. -/
theorem tryAcquireSucceedsIffUnlocked : Obligations.TryAcquireSucceedsIffUnlocked := by
  intro s k
  have info : BitVec.ofNat 32 k.toNat = k.setWidth 32 := BitVec.ofNat_toNat 32 k
  refine ⟨congrArg (fun w => (Port.command, [w])) (cwMake_eq_shift k 8#4), fun idle => ⟨?_, ?_, ?_⟩⟩
  · intro l cell free
    rw [exec_tryAcquire_unlocked idle cell free, acquire, info]
    rfl
  · intro l cell taken
    rw [exec_tryAcquire_locked idle cell taken, info]
    rfl
  · exact exec_tryAcquire_noLock idle

/-- Settles O43: the word by its fields, and the release by who holds the guard. -/
theorem releaseRestoresTheInterruptEnable : Obligations.ReleaseRestoresTheInterruptEnable :=
  fun _ k _ => ⟨congrArg (fun w => (Port.command, [w])) (cwMake_eq_shift k 9#4),
    fun idle cell => ⟨exec_release_held idle cell, exec_release_notHeld idle cell⟩⟩

/-! ### Failed attempts between the two (44_lock R243, R246) -/

/-- The lock just taken holds the interrupt enable as it was before. -/
theorem acquire_cell {s : State} {k : Nat} {l : LockCell} (cell : s.locks[k]? = some l) :
    (acquire k s).locks[k]? = some ⟨.locked, true, s.ie, s.running⟩ :=
  List.getElem?_set_self (List.getElem?_eq_some_iff.mp cell).1

/-- Failed attempts, one or more, leave what one of them leaves: RESULT alone is written. -/
theorem tryAgain_locked {s : State} {k : BitVec 8} {l : LockCell} (idle : s.busy = false)
    (cell : s.locks[k.toNat]? = some l) (taken : l.flag = .locked) (n : Nat) :
    tryAgain k (n + 1) s = .next (s.raise .lockContention (BitVec.ofNat 32 k.toNat)) := by
  induction n generalizing s with
  | zero => exact andThen_next.mpr ⟨_, exec_tryAcquire_locked idle cell taken, rfl⟩
  | succ n ih =>
    exact andThen_next.mpr ⟨_, exec_tryAcquire_locked idle cell taken,
      ih (s := s.raise .lockContention (BitVec.ofNat 32 k.toNat)) idle cell⟩

/-- Failed attempts, if any, write RESULT alone. -/
theorem tryAgain_locked_next {s u : State} {k : BitVec 8} {l : LockCell} {n : Nat} (idle : s.busy = false)
    (cell : s.locks[k.toNat]? = some l) (taken : l.flag = .locked) (run : tryAgain k n s = .next u) :
    ∃ r, u = s.setResult r := by
  cases n with
  | zero => exact ⟨s.result, next_eq_next.mp run⟩
  | succ n => exact ⟨_, next_eq_next.mp ((tryAgain_locked idle cell taken n).symm.trans run)⟩

/-- The lock given back is Unlocked and its guard dead. -/
theorem giveBack_cell {s : State} {k : Nat} {l : LockCell} (cell : s.locks[k]? = some l) :
    (giveBack k l s).locks[k]? = some { l with flag := .unlocked, live := false } :=
  List.getElem?_set_self (List.getElem?_eq_some_iff.mp cell).1

theorem giveBack_ie (k : Nat) (l : LockCell) (s : State) : (giveBack k l s).ie = l.savedIe := rfl

theorem acquire_otherLock (s : State) {j k : Nat} (other : j ≠ k) : (acquire k s).locks[j]? = s.locks[j]? :=
  List.getElem?_set_ne other.symm

theorem giveBack_otherLock (s : State) (l : LockCell) {j k : Nat} (other : j ≠ k) :
    (giveBack k l s).locks[j]? = s.locks[j]? :=
  List.getElem?_set_ne other.symm

/-- Settles O44: the attempts write RESULT alone, so RELEASE finds the cell as TRY_ACQUIRE left it. -/
theorem releaseUndoesAcquireAfterAnyFailures : Obligations.ReleaseUndoesAcquireAfterAnyFailures := by
  intro s t u k n first ok failed
  obtain ⟨idle, attempt⟩ := execTryAcquire_next.mp first
  obtain ⟨l, free, ⟨-, rfl⟩ | ⟨-, rfl⟩⟩ := tryAcquire_next.mp attempt
  · have idle' : (acquire k.toNat s).busy = false := idle
    have cell := acquire_cell free
    refine ⟨fun m _ => ⟨_, tryAgain_locked idle' cell rfl m, rfl⟩, ?_⟩
    obtain ⟨r, rfl⟩ := tryAgain_locked_next idle' cell rfl failed
    have held : ((acquire k.toNat s).setResult r).locks[k.toNat]? = some ⟨.locked, true, s.ie, s.running⟩ := cell
    exact ⟨_, _, exec_release_held idle' held rfl rfl, giveBack_cell held, rfl, rfl, giveBack_ie _ _ _,
      fun j other => (giveBack_otherLock _ _ other).trans (acquire_otherLock s other)⟩
  · cases ok

/-! ### What the guard of lock 0 admits (44_lock R249; 60_exceptions R276) -/

theorem admit_noGuard {s : State} (notHeld : s.holdsGuard 0 = false) (ps : List Phase) (k : Out) :
    admitted ps s k = .refused .guardNotHeld := by
  rw [admitted, notHeld, if_neg Bool.false_ne_true]

theorem admit_otherPhase {s : State} {ps : List Phase} (guard : s.holdsGuard 0 = true) (other : s.phase ∉ ps)
    (k : Out) : admitted ps s k = .refused .phaseNotAdmitted := by
  rw [admitted, if_pos guard, if_neg other]

/-- A command of a request in progress, between commands, is what its admission lets through. -/
theorem exec_phasedCommand {s : State} (idle : s.busy = false) {ws : List Word} {t i : BitVec 8}
    {c : Instr × List Phase} (hc : c ∈ phasedCommands ws t i) : ∃ k, exec c.1 s = admittedInRequest c.2 s k := by
  fin_cases hc
  all_goals exact ⟨_, hostTurn_idle idle _⟩

/-- The engine commands are NEW_BUFFER, the commands that ask for certain PHASE values, and the recipes. -/
theorem engineCommands_eq (ws : List Word) (t i : BitVec 8) :
    engineCommands ws t i =
      .newBuffer :: ((phasedCommands ws t i).map Prod.fst ++ [.getFirmwareRevision, .getBoardSerial]) := rfl

theorem startRecipe_noGuard {s : State} (notHeld : s.holdsGuard 0 = false) (k : RecipeKind) :
    startRecipe k s = .refused .guardNotHeld := by
  rw [startRecipe, cmdNewBuffer, admit_noGuard notHeld, andThen]

theorem exec_engineCommand_noGuard {s : State} (idle : s.busy = false) (notHeld : s.holdsGuard 0 = false)
    {ws : List Word} {t i : BitVec 8} {c : Instr} (hc : c ∈ engineCommands ws t i) :
    exec c s = .refused .guardNotHeld := by
  rw [engineCommands_eq, List.mem_cons, List.mem_append, List.mem_map] at hc
  obtain rfl | ⟨row, hrow, rfl⟩ | hc := hc
  · exact (hostTurn_idle idle _).trans (admit_noGuard notHeld _ _)
  · obtain ⟨k, run⟩ := exec_phasedCommand idle hrow
    exact run.trans (admit_noGuard notHeld _ _)
  · fin_cases hc
    · exact (hostTurn_idle idle _).trans (startRecipe_noGuard notHeld .firmwareRevision)
    · exact (hostTurn_idle idle _).trans (startRecipe_noGuard notHeld .boardSerial)

/-- RELEASE 0 ends the cover of the request. -/
theorem exec_release_zero_unbroken {s t : State} (run : exec (.release 0#8) s = .next t) : t.unbroken = false := by
  obtain ⟨-, l, -, -, -, rfl⟩ := execRelease_next.mp run
  exact Bool.and_false s.unbroken

/-- Taking a lock, or failing to, begins no cover and ends none. -/
theorem exec_tryAcquire_unbroken {s t : State} {k : BitVec 8} (run : exec (.tryAcquire k) s = .next t) :
    t.unbroken = s.unbroken := by
  obtain ⟨-, attempt⟩ := execTryAcquire_next.mp run
  obtain ⟨l, -, ⟨-, rfl⟩ | ⟨-, rfl⟩⟩ := tryAcquire_next.mp attempt
  · rfl
  · rfl

/-- The guard that covers a request is live. -/
theorem State.Inv.anyGuardLive {s : State} (h : s.Inv) (covered : s.unbroken = true) : s.anyGuardLive = true := by
  obtain ⟨l, cell, live⟩ := h.unbrokenLive covered
  exact List.any_eq_true.mpr ⟨l, List.mem_of_getElem? cell, live⟩

/-- No handler begins while a guard is live (60_exceptions R275). -/
theorem irqEnter_guardLive {s : State} (idle : s.busy = false) (live : s.anyGuardLive = true) :
    irqEnter s = .refused .interruptNotDeliverable :=
  (hostTurn_idle idle _).trans (if_neg fun ⟨_, _, dead⟩ => absurd (dead.symm.trans live) Bool.false_ne_true)

/-- Settles O45: the refusals of admission in R276's order, then the cover that RELEASE 0 ends and TRY_ACQUIRE does not
bring back, and the live guard of a covered request. -/
theorem engineCommandsNeedGuardAndPhase : Obligations.EngineCommandsNeedGuardAndPhase := by
  intro s ws t i idle
  refine ⟨fun notHeld c hc => exec_engineCommand_noGuard idle notHeld hc, ?_, ?_, ?_, ?_⟩
  · intro guard c hc other
    obtain ⟨k, run⟩ := exec_phasedCommand idle hc
    exact run.trans (admit_otherPhase guard other _)
  · intro guard broken c hc phase
    obtain ⟨k, run⟩ := exec_phasedCommand idle hc
    exact run.trans (admitInRequest_broken guard broken phase k)
  · intro r u released retaken
    have ended := exec_release_zero_unbroken released
    exact ⟨ended, (exec_tryAcquire_unbroken retaken).trans ended⟩
  · exact fun inv covered => irqEnter_guardLive idle (inv.anyGuardLive covered)

end Sys2Proof.Machine
end

section
/-! PROOF. The result-kind rows: the step each takes, the result it ends with, and the two ends of the CPU-model
detection (60_exceptions R260 to R270, R277; log 17, log 24). -/

namespace Sys2Proof.Machine

/-! ### The ends of CALL -/

/-- The result kinds with which CALL fails (60_exceptions R264 to R266, R269). -/
def callErrorKinds : List Kind := [.firmwareRejected, .unknownResponseStatus, .noResponse, .timeout]

theorem callStep_submitPoll {s : State} (h : s.phase = .submitPoll) : callStep s = submitPollStep s := by
  rw [callStep, h]

theorem callStep_corrPoll {s : State} (h : s.phase = .corrPoll) : callStep s = corrPollStep s := by
  rw [callStep, h]

theorem callStep_corrRead {s : State} (h : s.phase = .corrRead) : callStep s = corrReadStep s := by
  rw [callStep, h]

/-- A failed poll that does not go on inside CALL has ended it in DONE_ERR. -/
theorem pollFailed_doneErr {p : Phase} {s : State} (loop : p.inCall = true)
    (ended : (pollFailed p s).phase.inCall = false) : (pollFailed p s).phase = .doneErr := by
  obtain goesOn | failed : (pollFailed p s).phase = p ∨ (pollFailed p s).phase = .doneErr := by
    simpa using pollFailed_phase p s
  · rw [goesOn, loop] at ended
    cases ended
  · exact failed

/-- Classification that does not end CALL with Ok ends it in DONE_ERR. -/
theorem classify_doneErr {s t : State} (run : classify s = .next t) (error : t.result.kind ≠ .ok) :
    t.phase = .doneErr := by
  obtain ⟨c, -, rfl⟩ := classify_next.mp run
  by_cases hc : c = Config.codeResponse
  · exact absurd (if_pos hc) error
  · exact if_neg hc

/-- CALL ends with a kind other than Ok in DONE_ERR only (41_call R172). -/
theorem callStep_doneErr {s t : State} (run : callStep s = .next t) (ended : t.phase.inCall = false)
    (error : t.result.kind ≠ .ok) : t.phase = .doneErr := by
  rcases callStep_next run with run | run | run
  · obtain ⟨-, -, rfl⟩ := submitPollStep_next.mp run
    split at ended
    · next full => rw [if_pos full]; exact pollFailed_doneErr rfl ended
    · cases ended
  · obtain ⟨-, -, rfl⟩ := corrPollStep_next.mp run
    split at ended
    · next empty => rw [if_pos empty]; exact pollFailed_doneErr rfl ended
    · cases ended
  · obtain ⟨-, -, w, q, -, ⟨-, classified⟩ | ⟨-, rfl⟩⟩ := corrReadStep_next.mp run
    · exact classify_doneErr classified error
    · exact pollFailed_doneErr rfl ended

/-! ### What a row that completes has done -/

theorem execKindOk_next {info : Word} {s t : State} (run : execKindOk info s = .next t) :
    ∃ o, endingWith .ok info o = .next t := by
  unfold execKindOk at run
  split at run
  · exact ⟨_, run⟩
  · obtain ⟨-, run⟩ := hostTurn_next.mp run
    split at run
    · exact ⟨_, run⟩
    · exact absurd run refused_ne_next

theorem execKindLockContention_next {info : Word} {s t : State} (run : execKindLockContention info s = .next t) :
    ∃ o, endingWith .lockContention info o = .next t := by
  obtain ⟨-, run⟩ := hostTurn_next.mp run
  split at run
  · exact absurd run refused_ne_next
  · exact ⟨_, run⟩

theorem execKindTagNotAnswered_next {info : Word} {s t : State} (run : execKindTagNotAnswered info s = .next t) :
    ∃ o, endingWith .tagNotAnswered info o = .next t := by
  obtain ⟨-, run⟩ := hostTurn_next.mp run
  split at run
  · exact ⟨_, run⟩
  · exact absurd run refused_ne_next

theorem execKindTimeout_next {info : Word} {s t : State} (run : execKindTimeout info s = .next t) :
    endingWith .timeout info (callStep s) = .next t := by
  unfold execKindTimeout at run
  split at run
  · exact absurd run refused_ne_next
  · exact run

/-- A row that completes has taken a step for the result it names; for a kind with which CALL fails, a step of CALL. -/
theorem exec_kindRow_next {row : Kind × (Word → Instr)} (hrow : row ∈ kindRows) {info : Word} {s t : State}
    (run : exec (row.2 info) s = .next t) :
    ∃ o, endingWith row.1 info o = .next t ∧ (row.1 ∈ callErrorKinds → o = callStep s) := by
  unfold kindRows at hrow
  fin_cases hrow
  · exact (execKindOk_next run).imp fun _ h => ⟨h, fun error => absurd error (by decide)⟩
  · exact (execKindLockContention_next run).imp fun _ h => ⟨h, fun error => absurd error (by decide)⟩
  · exact ⟨_, (hostTurn_next.mp run).2, fun error => absurd error (by decide)⟩
  · exact ⟨_, run, fun _ => rfl⟩
  · exact ⟨_, run, fun _ => rfl⟩
  · exact ⟨_, run, fun _ => rfl⟩
  · exact (execKindTagNotAnswered_next run).imp fun _ h => ⟨h, fun error => absurd error (by decide)⟩
  · exact ⟨_, execKindTimeout_next run, fun _ => rfl⟩

/-- A row completes with its own kind and INFO only, and an error of CALL in DONE_ERR only. -/
theorem exec_kindRow_reports {row : Kind × (Word → Instr)} (hrow : row ∈ kindRows) {info : Word} {s t : State}
    (run : exec (row.2 info) s = .next t) :
    t.result = ⟨row.1, info⟩ ∧ (row.1 ∈ callErrorKinds → t.phase = .doneErr) := by
  obtain ⟨o, ending, call⟩ := exec_kindRow_next hrow run
  obtain ⟨step, ended, reported⟩ := endingWith_next.mp ending
  refine ⟨reported, fun error => callStep_doneErr (call error ▸ step) ended ?_⟩
  have notOk : row.1 ≠ .ok := ne_of_mem_of_not_mem error (by decide)
  rwa [reported]

/-! ### READ_WORD, TRY_ACQUIRE, WRITE_TAG and TAG_CHECK -/

theorem exec_kindOk_readWord {s : State} {info : Word} {i : Nat}
    (admitted : s.inRequest [.build, .doneOk, .doneErr]) (inside : i < 36) (word : s.buf i = some info) :
    exec (.kindOk info) s = .next (s.setResult ⟨.ok, info⟩) := by
  obtain ⟨idle, request, phase⟩ := admitted
  have outside : s.phase.inCall = false := (State.busy_eq_false idle).1
  obtain ⟨j, found⟩ := State.findWord_isSome (i := 0) (n := 36) ⟨i.zero_le, by omega⟩ word
  obtain ⟨range, holds⟩ := State.findWord_eq_some found
  have read : cmdReadWord j s = .next (s.setResult ⟨.ok, info⟩) :=
    cmdReadWord_inRange request phase (by omega) holds
  calc exec (.kindOk info) s = endingWith .ok info (cmdReadWord j s) := by
        change execKindOk info s = _
        simp only [execKindOk, outside, Bool.false_eq_true, if_false, hostTurn_idle idle, found]
    _ = .next (s.setResult ⟨.ok, info⟩) := endingWith_next.mpr ⟨read, outside, rfl⟩

theorem exec_kindLockContention_locked {s : State} {info : Word} {l : LockCell} (idle : s.busy = false)
    (operand : info.toNat < 256) (cell : s.locks[info.toNat]? = some l) (taken : l.flag = .locked) :
    exec (.kindLockContention info) s = .next (s.raise .lockContention info) := by
  have raised : tryAcquire info.toNat s = .next (s.raise .lockContention info) :=
    tryAcquire_next.mpr ⟨l, cell, .inr ⟨taken, by rw [BitVec.ofNat_toNat, BitVec.setWidth_eq]⟩⟩
  calc exec (.kindLockContention info) s = endingWith .lockContention info (tryAcquire info.toNat s) :=
        (hostTurn_idle idle _).trans (if_neg (Nat.not_le.mpr operand))
    _ = .next (s.raise .lockContention info) :=
        endingWith_next.mpr ⟨raised, (State.busy_eq_false idle).1, rfl⟩

/-- KIND_BufferFull reports what WRITE_TAG of the longest list raises. -/
theorem exec_kindBufferFull_of_writeTag {s : State} {info : Word}
    (raised : exec (.writeTag (List.replicate 255 0#32)) s = .next (s.raise .bufferFull info)) :
    exec (.kindBufferFull info) s = .next (s.raise .bufferFull info) := by
  obtain ⟨idle, run⟩ := hostTurn_next.mp raised
  exact hostTurn_next.mpr ⟨idle, endingWith_next.mpr ⟨run, (State.busy_eq_false idle).1, rfl⟩⟩

theorem exec_kindTagNotAnswered_unanswered {s : State} {info : Word} {t : Nat}
    (admitted : s.inRequest [.doneOk, .doneErr]) (low : 2 ≤ t) (high : t ≤ 33) (code : s.buf (t + 2) = some info)
    (clear : info.getLsbD 31 = false) :
    exec (.kindTagNotAnswered info) s = .next (s.setResult ⟨.tagNotAnswered, info⟩) := by
  obtain ⟨idle, request, phase⟩ := admitted
  obtain ⟨c, found⟩ := State.findWord_isSome (i := 4) (n := 32) ⟨by omega, by omega⟩ code
  obtain ⟨range, holds⟩ := State.findWord_eq_some found
  have index : c - 2 + 2 = c := by omega
  have checked : cmdTagCheck (c - 2) s = .next (s.setResult ⟨.tagNotAnswered, info⟩) := by
    rw [cmdTagCheck_inRange request phase (by omega) (index ▸ holds), clear]
    rfl
  calc exec (.kindTagNotAnswered info) s = endingWith .tagNotAnswered info (cmdTagCheck (c - 2) s) := by
        change execKindTagNotAnswered info s = _
        simp only [execKindTagNotAnswered, hostTurn_idle idle, found]
    _ = .next (s.setResult ⟨.tagNotAnswered, info⟩) :=
        endingWith_next.mpr ⟨checked, (State.busy_eq_false idle).1, rfl⟩

/-! ### The classifications and the spent budget -/

/-- i is the result-kind row with which CALL reports this whole-buffer code word (41_call R170). -/
def IsClassificationRow (c : Word) (i : Instr) : Prop :=
  (i = .kindOk c ∧ c = 0x80000000#32) ∨ (i = .kindFirmwareRejected c ∧ c = 0x80000001#32) ∨
    (i = .kindNoResponse c ∧ c = 0#32) ∨
    (i = .kindUnknownResponseStatus c ∧ c ≠ 0x80000000#32 ∧ c ≠ 0x80000001#32 ∧ c ≠ 0#32)

/-- Inside CALL the row is CALL's step, taken for the kind the code word is classified as. -/
theorem IsClassificationRow.exec {c : Word} {i : Instr} (row : IsClassificationRow c i) {s : State}
    (here : s.phase = .corrRead) :
    exec i s = endingWith
      (if c = 0x80000000#32 then .ok
        else if c = 0x80000001#32 then .firmwareRejected
        else if c = 0#32 then .noResponse
        else .unknownResponseStatus) c (callStep s) := by
  rcases row with ⟨rfl, rfl⟩ | ⟨rfl, rfl⟩ | ⟨rfl, rfl⟩ | ⟨rfl, notResponse, notError, notRequest⟩
  · exact if_pos (congrArg Phase.inCall here)
  · rfl
  · rfl
  · rw [if_neg notResponse, if_neg notError, if_neg notRequest]
    rfl

theorem exec_classificationRow {s : State} {q : List Word} {c : Word} {i : Instr} (here : s.atStep .corrRead)
    (head : s.inq = s.sub :: q) (code : s.buf 1 = some c) (row : IsClassificationRow c i) :
    exec i s = corrReadStep s := by
  rw [row.exec here.1, callStep_corrRead here.1, corrReadStep_matching here head code]
  refine endingWith_next.mpr ⟨rfl, ?_, rfl⟩
  split <;> rfl

/-- KIND_Timeout is CALL's step where that ends CALL with Timeout, in a configuration with POLL_LIMIT. -/
theorem exec_kindTimeout_of_callStep {s t : State} {info : Word} (spent : s.budgetSpent)
    (step : callStep s = .next t) (ended : t.phase = .doneErr) (timeout : t.result = ⟨.timeout, info⟩) :
    exec (.kindTimeout info) s = .next t := by
  obtain ⟨n, limit, -⟩ := spent
  have limited : ¬ s.cfg.pollLimit = none := fun unlimited => nomatch limit.symm.trans unlimited
  exact (if_neg limited).trans (endingWith_next.mpr ⟨step, congrArg Phase.inCall ended, timeout⟩)

/-! ### The CPU-model detection -/

theorem detection_resolved {s : State} (base : s.baseValid = true) (k : Out) :
    detection s k = .refused .baseAlreadyResolved := if_pos base

theorem detectionFails_unresolved {s : State} (unresolved : s.baseValid = false) (first : s.startup = none) (k : Kind) :
    detectionFails k s = .next (s.setStartup (some k)) :=
  detection_next.mpr ⟨unresolved, first, rfl⟩

/-- Settles O46: each row where its command ends with its kind, and then what a completed row reports, Timeout without
POLL_LIMIT, and the two ends of the detection. -/
theorem resultKindsAreReported : Obligations.ResultKindsAreReported := by
  intro s info
  refine ⟨fun admitted i inside word => exec_kindOk_readWord admitted inside word,
    fun q i here head code row => ?_,
    fun idle operand l cell taken => exec_kindLockContention_locked idle operand cell taken,
    fun admitted => ⟨fun p hp => ?_, fun none => ?_⟩,
    fun admitted t low high code clear => exec_kindTagNotAnswered_unanswered admitted low high code clear,
    fun base spent => ⟨fun phase full => ?_, fun phase empty => ?_, fun phase w q head foreign => ?_⟩,
    fun row hrow t run => exec_kindRow_reports hrow run,
    fun unlimited => if_pos unlimited,
    fun unresolved first =>
      ⟨detectionFails_unresolved unresolved first _, detectionFails_unresolved unresolved first _⟩,
    fun base => ⟨detection_resolved base _, detection_resolved base _⟩⟩
  · rw [exec_classificationRow here head code row, corrReadStep_matching here head code]
  · have long : 36 < p + (List.replicate 255 0#32).length + s.cfg.termReserve.val := by
      rw [List.length_replicate]
      omega
    exact exec_kindBufferFull_of_writeTag (exec_writeTag_tooLong admitted hp long)
  · exact exec_kindBufferFull_of_writeTag (exec_writeTag_noTerminator admitted none _)
  · have step := (callStep_submitPoll phase).trans (submitPollStep_full_budgetSpent ⟨phase, base⟩ full spent)
    exact exec_kindTimeout_of_callStep spent step rfl rfl
  · have step := (callStep_corrPoll phase).trans (corrPollStep_empty_budgetSpent ⟨phase, base⟩ empty spent)
    exact exec_kindTimeout_of_callStep spent step rfl rfl
  · have step :=
      (callStep_corrRead phase).trans (corrReadStep_foreign_budgetSpent ⟨phase, base⟩ head foreign spent)
    exact exec_kindTimeout_of_callStep spent step rfl rfl

end Sys2Proof.Machine
end

section
/-! PROOF. The unresolved MMIO base: every access to the registers goes through the Register Address unit, which is
fatal (00_scope R4; 60_exceptions R271; log 11, log 13). -/

namespace Sys2Proof.Machine

theorem throughRa_unresolved {s : State} (h : s.baseValid = false) (k : Out) :
    throughRa s k = .fault .baseNotResolved := by simp [throughRa, h]

/-- Settles O47: each of these instructions, in its turn or its PHASE, begins at the Register Address unit. -/
theorem unresolvedBaseIsFatal : Obligations.UnresolvedBaseIsFatal := by
  intro s a n unresolved
  have fatal (k : Out) : throughRa s k = .fault .baseNotResolved := throughRa_unresolved unresolved k
  refine ⟨fun idle i operation => ?_, fun i access => ?_, fun p hp phase => ?_⟩
  · fin_cases operation <;> exact (hostTurn_idle idle _).trans (fatal _)
  · fin_cases access <;> exact fatal _
  · fin_cases hp <;> exact (inStep_ok phase _).trans (fatal _)

end Sys2Proof.Machine
end

section
/-! PROOF. Interrupt handlers and the host's own write of IE: each where it is admitted and where it is refused
(60_exceptions R275; 10_state R30; log 9, log 10, log 23). -/

namespace Sys2Proof.Machine

section
variable {s : State} (idle : s.busy = false)
include idle

theorem irqEnter_deliverable (host : s.running = .host) (enabled : s.ie = true) (unguarded : s.anyGuardLive = false) :
    irqEnter s = .next ((s.setRunning .irq).setIe false) :=
  (hostTurn_idle idle _).trans (if_pos ⟨host, enabled, unguarded⟩)

/-- A handler does not begin inside another, while interrupts are masked, or while a guard is live. -/
theorem irqEnter_blocked (blocked : s.running = .irq ∨ s.ie = false ∨ s.anyGuardLive = true) :
    irqEnter s = .refused .interruptNotDeliverable := by
  refine (hostTurn_idle idle _).trans (if_neg ?_)
  rintro ⟨host, enabled, unguarded⟩
  rcases blocked with handler | masked | live
  · exact nomatch handler.symm.trans host
  · exact nomatch masked.symm.trans enabled
  · exact nomatch live.symm.trans unguarded

theorem irqExit_handler (handler : s.running = .irq) : irqExit s = .next ((s.setRunning .host).setIe true) :=
  (hostTurn_idle idle _).trans (if_pos handler)

theorem irqExit_host (host : s.running = .host) : irqExit s = .refused .interruptNotDeliverable :=
  (hostTurn_idle idle _).trans (if_neg fun handler : s.running = .irq => nomatch host.symm.trans handler)

theorem hostSetIe_admitted {b : Bool} (host : s.running = .host) (safe : b = false ∨ s.anyGuardLive = false) :
    hostSetIe b s = .next (s.setIe b) :=
  (hostTurn_idle idle _).trans (if_pos ⟨host, safe⟩)

/-- IE is not written by a handler, and not enabled while a guard is live. -/
theorem hostSetIe_notAdmitted {b : Bool} (excluded : s.running = .irq ∨ (b = true ∧ s.anyGuardLive = true)) :
    hostSetIe b s = .refused .interruptEnableNotAdmitted := by
  refine (hostTurn_idle idle _).trans (if_neg ?_)
  rintro ⟨host, masks | unguarded⟩
  · rcases excluded with handler | ⟨enables, -⟩
    · exact nomatch handler.symm.trans host
    · exact nomatch masks.symm.trans enables
  · rcases excluded with handler | ⟨-, live⟩
    · exact nomatch handler.symm.trans host
    · exact nomatch live.symm.trans unguarded

end

/-- Settles O49: a handler's beginning and end and the host's write of IE, each admitted and refused. -/
theorem handlersMaskInterrupts : Obligations.HandlersMaskInterrupts :=
  fun _ idle => ⟨irqEnter_deliverable idle, irqEnter_blocked idle, irqExit_handler idle, irqExit_host idle,
    fun _ => hostSetIe_admitted idle, fun _ => hostSetIe_notAdmitted idle⟩

end Sys2Proof.Machine
end

section
/-! PROOF. Resolving the MMIO base, as an input of the agenda: once, and never after the detection has failed
(70_reset_and_hazards R303; 60_exceptions R270; log 24, log 28). -/

namespace Sys2Proof.Machine

theorem detection_failed {s : State} (unresolved : s.baseValid = false) (failed : s.startup ≠ none) (k : Out) :
    detection s k = .refused .detectionFailed :=
  (if_neg (Bool.eq_false_iff.mp unresolved)).trans (if_pos (Option.isSome_iff_ne_none.mpr failed))

/-- The input is taken whatever the engine does: resolving the base waits for no command. -/
theorem step_resolveBase {s : State} {rest : List Input} (hv : s.cfg.Valid) (ha : s.agenda = .resolveBase :: rest) :
    step s = resolveBase (s.setAgenda rest) :=
  step_input hv ha nofun

/-- Settles O57: the step is `resolveBase` on the rest of the agenda, and the detection it is part of has three ends. -/
theorem baseIsResolvedOnce : Obligations.BaseIsResolvedOnce := by
  intro s tail hv ha
  rw [step_resolveBase hv ha]
  exact ⟨fun unresolved unfailed => resolveBase_next.mpr ⟨unresolved, unfailed, rfl⟩,
    fun resolved => detection_resolved resolved _,
    fun unresolved failed => detection_failed unresolved failed _⟩

end Sys2Proof.Machine
end
